-- ==== Sys2Proof/Word.lean ====
section
/-! DEFINITION. The word types of the I2C Bus Transport Engine (spec/00_scope.md R9, R11): bus bytes, command words and their fields.
All values are unsigned and bit 0 is the least significant bit. -/

namespace Sys2Proof

/-- A bus byte, a buffer or queue entry, a host-visible MBB register (R9: 8 bits). -/
abbrev Byte := BitVec 8

/-- An MBB command word (R79: exactly 16 bits). -/
abbrev CommandWord := BitVec 16

/-- The OP and LEN fields of a command word (R82). -/
abbrev Nibble := BitVec 4

/-- A 7-bit device address (R64). -/
abbrev DeviceAddr := BitVec 7

end Sys2Proof
end

