-- ==== Sys2Proof/Config.lean ====
section
/-! DEFINITION. Configuration and free values: the parameters of spec/00_scope.md R9, the draws of R16, and the agents' order of steps
(R20, R21, R70), which no rule fixes. `BUF_CAP` is an argument, 1 to 15 (conflict C7; spec/93_implementation_defined.md I6). A constant
without a body is OPEN in the spec: no proof can see its value (DESIGN CHOICE, assumptions 4, 6, 14). -/

namespace Sys2Proof

/-- The task-side wait of a blocking queue operation (R166, R167). `bounded expired`: the wait is bounded, and `expired` says whether
it has run out at this step (a time the spec does not fix; DESIGN CHOICE, assumption 17). -/
inductive Wait where
  | indefinite
  | bounded (expired : Bool)
  deriving DecidableEq, Repr

/-- The two completion semaphores (R54). -/
inductive Sem where
  | rx
  | tx
  deriving DecidableEq, Repr

/-- One step of one agent (R20), and the two resets (R197): the alphabet of the interleaving. A step that its agent cannot take in a
state (an idle MBB, a blocked task, a masked SED) changes nothing there (R195; DESIGN CHOICE, assumption 7). -/
inductive AgentStep where
  /-- HOST: `MemRead(off, 1)` (R13). -/
  | hostRead (off : Byte)
  /-- HOST: `MemWrite(off, 1, v)` (R13). -/
  | hostWrite (off v : Byte)
  /-- MBB: one uop (R67). -/
  | mbb
  /-- PEER: sets its drive of the two lines (R47); `false` pulls a line low, `true` releases it. -/
  | peerDrive (scl sda : Bool)
  /-- PERIPH: raises an event (R146). `sta`, `sto`: a START, a STOP condition was detected. `rx`: the byte loaded into PORT_RX, if any. -/
  | periphRaise (sta sto nam rd btc : Bool) (rx : Option Byte)
  /-- PERIPH: transmits a byte to its bus master (R149, R163). -/
  | periphTransmit
  /-- SED: handles the pending event (R145). -/
  | sed
  /-- TASKS: `INQ.receive(wait)` (R166). -/
  | taskReceive (w : Wait)
  /-- TASKS: `OUTQ.send(v, wait)` (R167). -/
  | taskSend (v : Byte) (w : Wait)
  /-- TASKS: `SEM_X.take()` (R168). -/
  | taskTake (x : Sem)
  /-- TASKS: `IMASK <- 1` enters, `IMASK <- 0` leaves a critical section (R169). -/
  | taskMask (on : Bool)
  /-- The reset of the master side (R197). -/
  | masterReset
  /-- The reset of the slave side (R197). -/
  | slaveReset
  deriving DecidableEq, Repr, Inhabited

/-- The parameter of R9 that is an argument of the model (conflict C7; spec/93_implementation_defined.md I6). It stands in `State`, fixed
there (DESIGN CHOICE, assumption 1). -/
structure Params where
  /-- `BUF_CAP` less one. -/
  bufCapLessOne : Fin 15
  deriving DecidableEq, Repr

/-- R9 `BUF_CAP`, capacity of every transfer buffer and the cursors' modulus: any integer from 1 to 15. -/
def Params.bufCap (p : Params) : Nat := p.bufCapLessOne.val + 1

/-- R9: the default, `BUF_CAP` = 6 (conflict C7). -/
def Params.default : Params := ⟨5⟩

namespace Config

/-- R9 `QCAP` less one: OPEN. -/
opaque qCapLessOne : Nat

/-- R9 `QCAP`, capacity of INQ and of OUTQ: any integer from 1. -/
def qCap : Nat := qCapLessOne + 1

/-- R9 `T_UNIT` less one: OPEN, in whatever unit of time the platform counts. -/
opaque tUnitLessOne : Nat

/-- R9 `T_UNIT`, nominal duration of one delay unit: positive. No rule reads it (R112). -/
def tUnit : Nat := tUnitLessOne + 1

/-- R9 `N_BIT`: units in one ordinary delay. -/
def nBit : Nat := 1

/-- R9 `N_ACK` less `N_BIT + 1`: OPEN. -/
opaque nAckBeyond : Nat

/-- R9 `N_ACK`: units before the acknowledgement sample, any integer above `N_BIT`. -/
def nAck : Nat := nBit + 1 + nAckBeyond

/-- R9 `N_RSP`: units in each delay of `respond`. -/
def nRsp : Nat := 1

/-- R9 `SLV_ADDR`, the address the slave's peripheral matches: OPEN. -/
opaque slvAddr : DeviceAddr

/-- R61 `MBB_BASE`, where the MBB register space sits in the host's own address map: OPEN. -/
opaque mbbBase : Nat

/-- R16 `draw()` of a byte on the master side, if it is that side's `n`-th draw: the answer to a read of a reserved offset (R45). -/
opaque drawHost : Nat → Byte

/-- R16 `draw()` of a byte on the slave side, if it is that side's `n`-th draw: a pop of an empty port (R148), a byte sent from a port
that is not armed (R163). -/
opaque drawPort : Nat → Byte

/-- R16 `draw()` of a bit on the slave side, if it is that side's `n`-th draw: the "woken" answer of a give (R153). -/
opaque drawWoken : Nat → Bool

/-- The `n`-th step of the interleaving (R20, R21, R47, R70, R146, R180): which agent moves, and with what input, is free. -/
opaque freeStep : Nat → AgentStep

end Config

end Sys2Proof
end

