-- ==== Sys2Proof/Syntax.lean ====
section
/-! DEFINITION. The instructions: one constructor per row of spec/opcode_table.json. The first eight are the MBB's commands
(spec/30_encoding.md R84), the last five the SED's event classes (R90). Bits that an encoding ignores (R94) are kept as fields, so that
an instruction names its word exactly. -/

namespace Sys2Proof

/-- A command of the MBB or an event of the SED. -/
inductive Instr where
  /-- `START`, class Z (R118). -/
  | start
  /-- `STOP`, class Z (R119). -/
  | stop
  /-- `SEND b`, class B (R121). -/
  | send (b : Byte)
  /-- `RECV`, class Z (R124). -/
  | recv
  /-- `RESP n`, class A: `false` = ACK, `true` = NACK (R87, R127). -/
  | resp (n : Bool)
  /-- `WRTX a, l`, class T: count, device address, the ignored DATA[0] (R85, R88, R133). -/
  | wrtx (len : Nibble) (addr : DeviceAddr) (x : Bool)
  /-- `RDTX a, l`, class T (R85, R88, R137). -/
  | rdtx (len : Nibble) (addr : DeviceAddr) (x : Bool)
  /-- `DELAY u`, class B (R110). -/
  | delay (u : Byte)
  /-- `EV_ADDR_RD`: NAM = 1, RD = 1; bits 7:5 and BTC are ignored (R155). -/
  | evAddrRd (ign : BitVec 3) (btc sto sta : Bool)
  /-- `EV_ADDR_WR`: NAM = 1, RD = 0; bits 7:5 and BTC are ignored (R156). -/
  | evAddrWr (ign : BitVec 3) (btc sto sta : Bool)
  /-- `EV_TX`: NAM = 0, RD = 1; bits 7:5 and BTC are ignored (R157). -/
  | evTx (ign : BitVec 3) (btc sto sta : Bool)
  /-- `EV_RX`: NAM = 0, RD = 0, BTC = 1; bits 7:5 are ignored (R158). -/
  | evRx (ign : BitVec 3) (sto sta : Bool)
  /-- `EV_END`: NAM = 0, RD = 0, BTC = 0; bits 7:5 are ignored (R159). -/
  | evEnd (ign : BitVec 3) (sto sta : Bool)
  deriving DecidableEq, Repr

end Sys2Proof
end

