-- ==== Sys2Proof/WellFormed.lean ====
section
/-! DEFINITION. Which instructions are well formed: the one condition of spec/30_encoding.md R93 that a term of `Instr` can break is
(e), a count above `BUF_CAP`. Conditions (a) to (d) are about words that no term stands for, and the decoder rejects those. -/

namespace Sys2Proof

/-- R88, R93 (e): the count of a transaction fits a transfer buffer of capacity `cap`. -/
def countFits (cap : Nat) (len : Nibble) : Bool := decide (len.toNat ≤ cap)

/-- R93: every instruction is legal but a transaction whose count exceeds `BUF_CAP`, here `cap`. -/
def Instr.wellFormed (cap : Nat) : Instr → Bool
  | .start => true
  | .stop => true
  | .send _ => true
  | .recv => true
  | .resp _ => true
  | .wrtx len _ _ => countFits cap len
  | .rdtx len _ _ => countFits cap len
  | .delay _ => true
  | .evAddrRd _ _ _ _ => true
  | .evAddrWr _ _ _ _ => true
  | .evTx _ _ _ _ => true
  | .evRx _ _ _ => true
  | .evEnd _ _ _ => true

end Sys2Proof
end

