-- ==== Sys2Proof/Decode.lean ====
section
/-! DEFINITION. The two decoders of spec/30_encoding.md (R78: the command word and the event vector) and the encoder. Both decoders are
total: a command word is decoded or rejected by the name of the clause of R93 it breaks, and every event vector has a class (R91). -/

namespace Sys2Proof

/-- Why a command word is illegal: the clauses of R93. -/
inductive DecodeError where
  /-- (a) OP = 0x0 or OP in 0x9..0xF. -/
  | reservedOpcode
  /-- (b) START, STOP or RECV with LEN or DATA not zero. -/
  | operandNotZero
  /-- (c) SEND or DELAY with LEN not zero. -/
  | lengthNotZero
  /-- (d) RESP with LEN or DATA[7:1] not zero. -/
  | ackOperandTooWide
  /-- (e) WRTX or RDTX with LEN > BUF_CAP. -/
  | countOverCapacity
  deriving DecidableEq, Repr

/-- What a decoder answers. -/
inductive Decoded where
  | ok (i : Instr)
  | reject (e : DecodeError)
  deriving DecidableEq, Repr

/-- The two kinds of encoded object (R78). -/
inductive Code where
  | command (w : CommandWord)
  | event (v : Byte)
  deriving DecidableEq, Repr

/-! ### Fields -/

/-- R82: OP, bits 15:12. -/
def opField (w : CommandWord) : Nibble := w.extractLsb' 12 4

/-- R82: LEN, bits 11:8. -/
def lenField (w : CommandWord) : Nibble := w.extractLsb' 8 4

/-- R82: DATA, bits 7:0. -/
def dataField (w : CommandWord) : Byte := w.extractLsb' 0 8

/-- R60, R82: the word whose low byte is `CMDL` and whose high byte is `CMDH`. -/
def commandWord (cmdl cmdh : Byte) : CommandWord := cmdh ++ cmdl

/-- R85: the device address, DATA[7:1]. -/
def addrField (data : Byte) : DeviceAddr := data.extractLsb' 1 7

/-! ### The command decoder -/

/-- Class Z of R83: no operand. -/
def decodeClassZ (i : Instr) (len : Nibble) (data : Byte) : Decoded :=
  if len = 0 ∧ data = 0 then .ok i else .reject .operandNotZero

/-- Class B of R83: a byte operand. -/
def decodeClassB (mk : Byte → Instr) (len : Nibble) (data : Byte) : Decoded :=
  if len = 0 then .ok (mk data) else .reject .lengthNotZero

/-- Class A of R83: the acknowledgement operand DATA[0]. -/
def decodeClassA (mk : Bool → Instr) (len : Nibble) (data : Byte) : Decoded :=
  if len = 0 ∧ addrField data = 0 then .ok (mk (data.getLsbD 0)) else .reject .ackOperandTooWide

/-- Class T of R83: count and address byte form, where `BUF_CAP` is `cap`. -/
def decodeClassT (cap : Nat) (mk : Nibble → DeviceAddr → Bool → Instr) (len : Nibble) (data : Byte) : Decoded :=
  if countFits cap len then .ok (mk len (addrField data) (data.getLsbD 0)) else .reject .countOverCapacity

/-- The opcode map of R84, with the rejections of R93, where `BUF_CAP` is `cap`. -/
def decodeCommand (cap : Nat) (w : CommandWord) : Decoded :=
  match (opField w).toNat with
  | 0x1 => decodeClassZ .start (lenField w) (dataField w)
  | 0x2 => decodeClassZ .stop (lenField w) (dataField w)
  | 0x3 => decodeClassB .send (lenField w) (dataField w)
  | 0x4 => decodeClassZ .recv (lenField w) (dataField w)
  | 0x5 => decodeClassA .resp (lenField w) (dataField w)
  | 0x6 => decodeClassT cap .wrtx (lenField w) (dataField w)
  | 0x7 => decodeClassT cap .rdtx (lenField w) (dataField w)
  | 0x8 => decodeClassB .delay (lenField w) (dataField w)
  | _ => .reject .reservedOpcode

/-! ### The event decoder -/

/-- R90: the first row whose condition the vector meets, in the order NAM, RD, BTC. Bits 7:5 never change the class (R91). -/
def decodeEvent (v : Byte) : Instr :=
  if v.getLsbD 2 then
    if v.getLsbD 3 then .evAddrRd (v.extractLsb' 5 3) (v.getLsbD 4) (v.getLsbD 1) (v.getLsbD 0)
    else .evAddrWr (v.extractLsb' 5 3) (v.getLsbD 4) (v.getLsbD 1) (v.getLsbD 0)
  else if v.getLsbD 3 then .evTx (v.extractLsb' 5 3) (v.getLsbD 4) (v.getLsbD 1) (v.getLsbD 0)
  else if v.getLsbD 4 then .evRx (v.extractLsb' 5 3) (v.getLsbD 1) (v.getLsbD 0)
  else .evEnd (v.extractLsb' 5 3) (v.getLsbD 1) (v.getLsbD 0)

/-- The decoder of either kind of object, where `BUF_CAP` is `cap`. -/
def decode (cap : Nat) : Code → Decoded
  | .command w => decodeCommand cap w
  | .event v => .ok (decodeEvent v)

/-! ### The encoder -/

/-- R82: the word `{OP, LEN, DATA}`. -/
def packCommand (op len : Nibble) (data : Byte) : CommandWord := op ++ len ++ data

/-- R89: the vector `{ign, BTC, RD, NAM, STO, STA}`. -/
def packEvent (ign : BitVec 3) (btc rd nam sto sta : Bool) : Byte :=
  ign ++ BitVec.ofBool btc ++ BitVec.ofBool rd ++ BitVec.ofBool nam ++ BitVec.ofBool sto ++ BitVec.ofBool sta

/-- R85: the byte `{addr, low}`: the address byte form of an operand, and the address byte on the wire. -/
def addressByte (addr : DeviceAddr) (low : Bool) : Byte := addr ++ BitVec.ofBool low

/-- The encoding of an instruction (R84, R89, R90). -/
def encode : Instr → Code
  | .start => .command (packCommand 0x1 0 0)
  | .stop => .command (packCommand 0x2 0 0)
  | .send b => .command (packCommand 0x3 0 b)
  | .recv => .command (packCommand 0x4 0 0)
  | .resp n => .command (packCommand 0x5 0 (addressByte 0 n))
  | .wrtx len addr x => .command (packCommand 0x6 len (addressByte addr x))
  | .rdtx len addr x => .command (packCommand 0x7 len (addressByte addr x))
  | .delay u => .command (packCommand 0x8 0 u)
  | .evAddrRd ign btc sto sta => .event (packEvent ign btc true true sto sta)
  | .evAddrWr ign btc sto sta => .event (packEvent ign btc false true sto sta)
  | .evTx ign btc sto sta => .event (packEvent ign btc true false sto sta)
  | .evRx ign sto sta => .event (packEvent ign true false false sto sta)
  | .evEnd ign sto sta => .event (packEvent ign false false false sto sta)

/-! ### The table's numbering -/

/-- The instruction read from a row's bits: rows of up to 8 bits are event vectors (R80), rows of up to 16 bits command words (R79),
stored low byte (`CMDL`) first (R60). `BUF_CAP` is the default's (R9), as it is at `State.reset`. -/
def decodeTableWord (nbits w : Nat) : Option Instr :=
  if nbits = 0 ∨ 16 < nbits then none
  else if nbits ≤ 8 then some (decodeEvent (BitVec.ofNat 8 w))
  else match decodeCommand Params.default.bufCap (BitVec.ofNat 16 w) with
    | .ok i => some i
    | .reject _ => none

/-! ### Pseudo-instructions (R97) -/

/-- `RESP ACK` = `RESP 0`. -/
def respAck : Instr := .resp false

/-- `RESP NACK` = `RESP 1`. -/
def respNack : Instr := .resp true

/-- `NOP` = `DELAY 0`. -/
def nop : Instr := .delay 0

end Sys2Proof
end

