-- ==== Sys2Proof/Machine/State.lean ====
section
/-! DEFINITION. The state of the machine as plain data: everything spec/10_state.md gives the block, side by side (R20: the master side
and the slave side share no state), with the PEER's drive, the agents' latest answers and the model's own bookkeeping. -/

namespace Sys2Proof.Machine

/-! ### Names -/

/-- Data direction (R46). -/
inductive Dir where
  | out
  | inp
  deriving DecidableEq, Repr

/-- The slave's recorded phase (R51, conflict C9). -/
inductive Phase where
  | idle
  | addrRd
  | addrWr
  | inXfer
  deriving DecidableEq, Repr

/-- The host-visible transfer buffers (R43, R44). -/
inductive Buffer where
  | txbuf
  | rxbuf
  deriving DecidableEq, Repr

/-! ### Uops and the uop program -/

/-- A uop as the TRACE records it: the five kinds of R100. -/
inductive Uop where
  | scl (v : Bool)
  | sda (v : Bool)
  | sdaOe (d : Dir)
  | wait (n : Nat)
  | sample
  deriving DecidableEq, Repr

/-- Where the level of an `SDA(v)` comes from. -/
inductive SdaSource where
  /-- `SDA(0)`. -/
  | low
  /-- `SDA(1)`. -/
  | high
  /-- `SDA(SH[7])` (R122). -/
  | sh7
  /-- `SDA(n)` of `RESP n`, `n = LDATA[0]` (R127). -/
  | ldata0
  /-- `SDA(if K < LLEN - 1 then 0 else 1)` (R137). -/
  | nackIfLast
  deriving DecidableEq, Repr

/-- Where the length of a `WAIT(n)` comes from (R111, R110). -/
inductive WaitSource where
  | nBit
  | nAck
  | nRsp
  | ldata
  deriving DecidableEq, Repr

/-- Where the bit of a `SAMPLE()` goes: `ACKB` (R122), or bit 0 of `RB` by OR (R125). -/
inductive SampleDest where
  | ackb
  | rb
  deriving DecidableEq, Repr

/-- A uop as a command's pseudocode writes it. -/
inductive ProgUop where
  | scl (v : Bool)
  | sda (src : SdaSource)
  | sdaOe (d : Dir)
  | wait (src : WaitSource)
  | sample (dst : SampleDest)
  deriving DecidableEq, Repr

/-- Which failure bit an abort sets (R32, R33). -/
inductive FailBit where
  | af
  | df
  deriving DecidableEq, Repr

/-- The control that the pseudocode of R122, R125, R133 and R137 writes between uops. -/
inductive Control where
  /-- `SH <- LDATA` (R121). -/
  | loadShData
  /-- `SH <- {LDATA[7:1], low}` (R133, R137). -/
  | loadShAddr (low : Bool)
  /-- `SH <- TXBUF[K]` (R134). -/
  | loadShTx
  /-- `BITN <- 0`. -/
  | clearBitn
  /-- `BITN <- BITN + 1`. -/
  | countBit
  /-- `SH <- (SH << 1) & 0xFF`. -/
  | shiftSh
  /-- `STATUS.NACK <- ACKB`. -/
  | reportAck
  /-- `RB <- 0x00`. -/
  | clearRb
  /-- `if i < 7 then RB <- (RB << 1) & 0xFF`, with `i` the loop index, which `BITN` holds (DEDUCED, assumption 16). -/
  | shiftRbUnlessLast
  /-- `RXDATA <- RB` (R125). -/
  | storeRxdata
  /-- `RXBUF[K] <- RB` (R138). -/
  | storeRxbuf
  /-- `K <- K + 1; XCNT <- K`. -/
  | countByte
  /-- `if ACKB = 1: STATUS.F <- 1; STOP_SEQ ; FINISH`: the branch to the abort (R133, R137). -/
  | abortIfNack (f : FailBit)
  deriving DecidableEq, Repr

/-- One line of uop with its control (R116): `pre` is the control on lines of its own before it, performed at the start of its step;
`post` is the control after `;` on its line, performed in the same step after it. -/
structure Micro where
  pre : List Control := []
  uop : ProgUop
  post : List Control := []
  deriving DecidableEq, Repr

/-- One record of the TRACE (R48). -/
structure TraceRec where
  uop : Uop
  sclOut : Bool
  sdaOut : Bool
  sdaDir : Dir
  scl : Bool
  sda : Bool
  deriving DecidableEq, Repr

/-! ### Memory -/

/-- A transfer buffer: index and byte of every entry that holds a value, indexes strictly rising. An entry that is not listed holds no
value (R43, R44, R50). -/
abbrev Memory := List Host.Cell

/-! ### The two sides -/

/-- The master side: the MBB's registers, buffers, pins and trace (R57 lists them). -/
structure Master where
  /-- R26 `MPC`: the remaining uop program of the running command; `[]` is `IDLE` (DESIGN CHOICE, assumption 8). -/
  mpc : List Micro
  /-- R23 `SH`. -/
  sh : Byte
  /-- R24 `RB`. -/
  rb : Byte
  /-- R25 `BITN`, 0..8. -/
  bitn : Nat
  /-- R25 `ACKB`: `true` = NACK. -/
  ackb : Bool
  /-- R25 `K`, 0..15. -/
  k : Nat
  /-- R27 `LOP`. -/
  lop : Nibble
  /-- R27 `LLEN`. -/
  llen : Nibble
  /-- R27 `LDATA`. -/
  ldata : Byte
  /-- R38 `CMDL`. -/
  cmdl : Byte
  /-- R39 `CMDH`. -/
  cmdh : Byte
  /-- R28 `STATUS`. -/
  status : Byte
  /-- R40 `RXDATA`. -/
  rxdata : Byte
  /-- R41 `XCNT`. -/
  xcnt : Byte
  /-- R46 `SCL_OUT`. -/
  sclOut : Bool
  /-- R46 `SDA_OUT`. -/
  sdaOut : Bool
  /-- R46 `SDA_DIR`. -/
  sdaDir : Dir
  /-- R43 `TXBUF`. -/
  txbuf : Memory
  /-- R44 `RXBUF`. -/
  rxbuf : Memory
  /-- R48 `TRACE`, oldest record first. -/
  trace : List TraceRec
  deriving DecidableEq, Repr

/-- The slave side: the SED's state, the peripheral's, and the bridge (R58 lists them). -/
structure Slave where
  /-- R49 `RXCUR`, 0..BUF_CAP-1. -/
  rxcur : Nat
  /-- R49 `TXCUR`, 0..BUF_CAP-1. -/
  txcur : Nat
  /-- R50 `SRXBUF`. -/
  srxbuf : Memory
  /-- R51 `PHASE`. -/
  phase : Phase
  /-- R52, R80, R89 `FLAGS`, as the event vector they form: STA, STO, NAM, RD, BTC in bits 0 to 4 (DESIGN CHOICE, assumption 9). -/
  flags : Byte
  /-- R52 `PORT_RX`: 8 bits or no value. -/
  portRx : Option Byte
  /-- R52 `PORT_TX`: 8 bits, no value at reset (R58). -/
  portTx : Option Byte
  /-- R52 `TX_ARMED`. -/
  txArmed : Bool
  /-- R52 `HOLD`. -/
  hold : Bool
  /-- R52 `EVT_PEND`. -/
  evtPend : Bool
  /-- The model's own (DESIGN CHOICE, assumption 12): an event of the transaction on the bus has been raised, so that `NAM` is 1 on
  no later one of it (R146). -/
  eventSeen : Bool
  /-- R53 `INQ`, oldest byte first. -/
  inq : List Byte
  /-- R53 `OUTQ`, oldest byte first. -/
  outq : List Byte
  /-- R54 `SEM_RX`. -/
  semRx : Bool
  /-- R54 `SEM_TX`. -/
  semTx : Bool
  /-- R55 `IMASK`. -/
  imask : Bool
  /-- R56 `YIELD`. -/
  yield : Bool
  deriving DecidableEq, Repr

/-- The PEER's drive of the two lines (R47): `false` pulls low, `true` releases. -/
structure Peer where
  scl : Bool
  sda : Bool
  deriving DecidableEq, Repr

/-- What a task-side operation returned (R166, R167, R168). -/
inductive TaskResult where
  | received (v : Byte)
  | sent
  | taken
  | failed
  deriving DecidableEq, Repr

/-- The latest answers the block gave to the agents outside it. The model's own (DESIGN CHOICE, assumption 3). -/
structure Answers where
  /-- The byte of the latest `MemRead` (R13). -/
  hostRead : Option Byte
  /-- The result of the latest task-side operation that completed. -/
  task : Option TaskResult
  /-- The byte the PERIPH transmitted latest (R149, R163). -/
  transmitted : Option Byte
  deriving DecidableEq, Repr

/-- The whole machine. -/
structure State where
  /-- R9: the parameter that is an argument of the model; no step changes it (DESIGN CHOICE, assumption 1). -/
  params : Params
  master : Master
  slave : Slave
  peer : Peer
  answers : Answers
  /-- The model's own (DESIGN CHOICE, assumption 6): the steps of the interleaving already chosen from outside, soonest first; when there
  is none, the free schedule chooses. -/
  inputs : List AgentStep
  /-- The model's own (DESIGN CHOICE, assumption 6): how many steps the free schedule `Config.freeStep` has chosen. -/
  sched : Nat
  /-- The model's own (DESIGN CHOICE, assumption 4): how many values have been drawn on the master side (R16). -/
  hostDraws : Nat
  /-- The model's own (DESIGN CHOICE, assumption 4): how many values have been drawn on the slave side (R16). -/
  slaveDraws : Nat
  deriving DecidableEq, Repr

/-- R9 `BUF_CAP`. -/
def State.bufCap (s : State) : Nat := s.params.bufCap

/-- Why the machine stops with a fault. -/
inductive Fault where
  /-- `UNINIT` (R43, R44, R178): raised by a host read of a TXBUF or RXBUF entry that holds no value, and by the MBB step in which a
  `WRTX` would send such a TXBUF entry (R134). Safe: the hardware would go on with some byte, and the model stops. -/
  | uninit (buf : Buffer) (i : Nat)
  deriving DecidableEq, Repr

/-- Why the machine refuses an instruction. -/
inductive Refusal where
  /-- Raised by an arm of `exec` that has no meaning yet; no arm does. Safe: the model stops. -/
  | notModelled (mnemonic : String)
  deriving DecidableEq, Repr

/-! ### Reset -/

/-- R57: the master side after its reset. -/
def Master.reset : Master where
  mpc := []
  sh := 0x00
  rb := 0x00
  bitn := 0
  ackb := false
  k := 0
  lop := 0
  llen := 0
  ldata := 0x00
  cmdl := 0x00
  cmdh := 0x00
  status := 0x00
  rxdata := 0x00
  xcnt := 0x00
  sclOut := true
  sdaOut := true
  sdaDir := .out
  txbuf := []
  rxbuf := []
  trace := []

/-- R58: the slave side after its reset. -/
def Slave.reset : Slave where
  rxcur := 0
  txcur := 0
  srxbuf := []
  phase := .idle
  flags := 0
  portRx := none
  portTx := none
  txArmed := false
  hold := false
  evtPend := false
  eventSeen := false
  inq := []
  outq := []
  semRx := false
  semTx := false
  imask := true
  yield := false

/-- A PEER that pulls neither line. -/
def Peer.released : Peer := ⟨true, true⟩

/-- Both sides right after their resets (R197), with the default parameters of R9. The PEER's drive is not reset by either (R197): DESIGN
CHOICE, released (assumption 5). Nothing has been answered, chosen or drawn yet: DESIGN CHOICE (assumptions 3, 4 and 6). -/
def State.reset : State where
  params := Params.default
  master := Master.reset
  slave := Slave.reset
  peer := Peer.released
  answers := ⟨none, none, none⟩
  inputs := []
  sched := 0
  hostDraws := 0
  slaveDraws := 0

end Sys2Proof.Machine
end

