-- ==== Sys2Proof/Machine/Flags.lean ====
section
/-! DEFINITION. The status bits of the MBB (spec/10_state.md R28 to R36) and the flag bits of the event vector (spec/30_encoding.md R89). -/

namespace Sys2Proof.Machine

/-! ### A byte's bits -/

/-- The byte with only bit `i` set. -/
def bitMask (i : Nat) : Byte := BitVec.twoPow 8 i

/-- Writes bit `i` of a byte and keeps the others. -/
def putBit (i : Nat) (b : Bool) (v : Byte) : Byte :=
  if b then v ||| bitMask i else v &&& ~~~ bitMask i

/-! ### STATUS (R28) -/

/-- Bit numbers of R28. -/
def bitBUSY : Nat := 0
def bitDONE : Nat := 1
def bitNACK : Nat := 2
def bitAF : Nat := 3
def bitDF : Nat := 4
def bitILL : Nat := 5
def bitOVR : Nat := 6

/-- R29 `STATUS.BUSY`. -/
def Master.busy (m : Master) : Bool := m.status.getLsbD bitBUSY
/-- R30 `STATUS.DONE`. -/
def Master.done (m : Master) : Bool := m.status.getLsbD bitDONE
/-- R31 `STATUS.NACK`. -/
def Master.nack (m : Master) : Bool := m.status.getLsbD bitNACK
/-- R32 `STATUS.AF`. -/
def Master.af (m : Master) : Bool := m.status.getLsbD bitAF
/-- R33 `STATUS.DF`. -/
def Master.df (m : Master) : Bool := m.status.getLsbD bitDF
/-- R34 `STATUS.ILL`. -/
def Master.ill (m : Master) : Bool := m.status.getLsbD bitILL
/-- R35 `STATUS.OVR`. -/
def Master.ovr (m : Master) : Bool := m.status.getLsbD bitOVR

/-- Writes one status bit. -/
def Master.putStatus (m : Master) (i : Nat) (b : Bool) : Master := { m with status := putBit i b m.status }

/-- The bit an abort sets (R32, R33). -/
def FailBit.index : FailBit → Nat
  | .af => bitAF
  | .df => bitDF

/-- The W1C bits of R28: AF, DF, ILL, OVR. -/
def w1cMask : Byte := 0x78

/-- R36: a host write to STATUS clears the W1C bits it names and ignores bits 0, 1, 2 and 7. -/
def Master.writeStatus (m : Master) (v : Byte) : Master := { m with status := m.status &&& ~~~ (v &&& w1cMask) }

/-- R36: a read of STATUS returns the current bits, bit 7 as 0. -/
def Master.readStatus (m : Master) : Byte := m.status &&& 0x7F

/-! ### The document's boolean results (R99) -/

/-- The failure result of `writeTransaction`. -/
def Master.writeFailed (m : Master) : Bool := m.af || m.df

/-- The failure result of `readTransaction`. -/
def Master.readFailed (m : Master) : Bool := m.af

/-- The result of `sendByte`: `true` = not acknowledged (R123, conflict C1). -/
def Master.sendResult (m : Master) : Bool := m.nack

/-! ### FLAGS and the event vector (R52, R89) -/

/-- Bit numbers of R89. -/
def bitSTA : Nat := 0
def bitSTO : Nat := 1
def bitNAM : Nat := 2
def bitRD : Nat := 3
def bitBTC : Nat := 4

/-- R147: the snapshot of the flags that the handler tests, one event vector of 8 bits. -/
def Slave.eventVector (sl : Slave) : Byte := sl.flags

/-- R154: `ClearLatch(STA)` if `STA` is set in the snapshot, `ClearLatch(STO)` if `STO` is. -/
def Slave.clearLatches (sl : Slave) (sto sta : Bool) : Slave :=
  let f := if sta then putBit bitSTA false sl.flags else sl.flags
  { sl with flags := if sto then putBit bitSTO false f else f }

/-- R146: the flags a raised event leaves: `STA` and `STO` are set if detected and else kept; `NAM`, `RD`, `BTC` describe the event
(DEDUCED, assumption 10). -/
def raisedFlags (old : Byte) (sta sto nam rd btc : Bool) : Byte :=
  packEvent 0 btc rd nam (sto || old.getLsbD bitSTO) (sta || old.getLsbD bitSTA)

end Sys2Proof.Machine
end

