-- ==== Sys2Proof/Machine/Operands.lean ====
section
/-! DEFINITION. The operand forms: the latched fields of a command (spec/30_encoding.md R85 to R88, spec/10_state.md R27), the levels and
lengths its uops take from the datapath, and the host's register offsets (spec/10_state.md R37, R45). -/

namespace Sys2Proof.Machine

/-! ### Operands of a running command (R27: read from the latches only) -/

/-- R85: the 7-bit device address, `LDATA[7:1]`. -/
def Master.deviceAddr (m : Master) : DeviceAddr := addrField m.ldata

/-- R85: the address byte `{LDATA[7:1], low}`; `low` = 0 writes, 1 reads. -/
def Master.addressOperand (m : Master) (low : Bool) : Byte := addressByte m.deviceAddr low

/-- R86: the byte operand of SEND. -/
def Master.byteOperand (m : Master) : Byte := m.ldata

/-- R86: the unit count of DELAY. -/
def Master.unitOperand (m : Master) : Nat := m.ldata.toNat

/-- R87: the acknowledgement operand of RESP. -/
def Master.ackOperand (m : Master) : Bool := m.ldata.getLsbD 0

/-- R88: the count operand of WRTX and RDTX. -/
def Master.countOperand (m : Master) : Nat := m.llen.toNat

/-- R137: `if K < LLEN - 1 then 0 else 1`: ACK after all but the last byte. -/
def Master.nackIfLast (m : Master) : Bool := !decide (m.k + 1 < m.countOperand)

/-- The level an `SDA(v)` of the program drives. -/
def SdaSource.level : SdaSource → Master → Bool
  | .low, _ => false
  | .high, _ => true
  | .sh7, m => m.sh.getLsbD 7
  | .ldata0, m => m.ackOperand
  | .nackIfLast, m => m.nackIfLast

/-- The units a `WAIT(n)` of the program takes (R111). -/
def WaitSource.units : WaitSource → Master → Nat
  | .nBit, _ => Config.nBit
  | .nAck, _ => Config.nAck
  | .nRsp, _ => Config.nRsp
  | .ldata, m => m.unitOperand

/-! ### Host register offsets -/

/-- What an offset of the MBB register space names (R37, R45). -/
inductive HostReg where
  | cmdl
  | cmdh
  | status
  | rxdata
  | xcnt
  | pins
  | txbuf (i : Nat)
  | rxbuf (i : Nat)
  | reserved
  deriving DecidableEq, Repr

/-- First offset of TXBUF (R37). -/
def txbufBase : Nat := 0x10

/-- First offset of RXBUF (R37). -/
def rxbufBase : Nat := 0x20

/-- R37: the register at an offset, where `BUF_CAP` is `cap`; every other offset is reserved (R45). -/
def hostReg (cap : Nat) (off : Byte) : HostReg :=
  if off = 0x00 then .cmdl
  else if off = 0x01 then .cmdh
  else if off = 0x02 then .status
  else if off = 0x03 then .rxdata
  else if off = 0x04 then .xcnt
  else if off = 0x05 then .pins
  else if txbufBase ≤ off.toNat ∧ off.toNat < txbufBase + cap then .txbuf (off.toNat - txbufBase)
  else if rxbufBase ≤ off.toNat ∧ off.toNat < rxbufBase + cap then .rxbuf (off.toNat - rxbufBase)
  else .reserved

/-- R61: the host address of an offset. -/
def hostAddress (off : Byte) : Nat := Config.mbbBase + off.toNat

end Sys2Proof.Machine
end

