-- ==== Sys2Proof/Machine/Ops.lean ====
section
/-! DEFINITION. The shared operations: buffers, queues, line levels and the trace, the acceptance and rejection of a command
(spec/30_encoding.md R92), the bridge primitives of the SED and the one frame every event is handled in
(spec/43_slave_dispatcher.md R148 to R154, R160 to R162; spec/60_exceptions.md R185, R186: what taking an event saves and restores,
which is nothing). -/

namespace Sys2Proof.Machine

/-! ### Buffers as memory -/

/-- The byte an entry holds, if it holds one. -/
def Memory.read : Memory → Nat → Option Byte
  | [], _ => none
  | c :: rest, a => if c.1 = a then some c.2 else Memory.read rest a

/-- Writes an entry, keeping the indexes strictly rising. -/
def Memory.write : Memory → Nat → Byte → Memory
  | [], a, v => [(a, v)]
  | c :: rest, a, v =>
    if a < c.1 then (a, v) :: c :: rest
    else if a = c.1 then (a, v) :: rest
    else c :: Memory.write rest a v

/-- Every index of the memory is above `lo`, and they rise strictly. -/
def Memory.risesFrom : Nat → Memory → Bool
  | _, [] => true
  | lo, c :: rest => decide (lo ≤ c.1) && Memory.risesFrom (c.1 + 1) rest

/-- The canonical form: indexes strictly rising. An unlisted entry holds no value, which no listed entry equals. -/
def Memory.wf (m : Memory) : Bool := Memory.risesFrom 0 m

/-- Every listed index is one of the buffer's `BUF_CAP` entries, here `cap`. -/
def Memory.fits (cap : Nat) (m : Memory) : Bool := m.all fun c => decide (c.1 < cap)

/-! ### The state's sides -/

/-- Changes the master side only. -/
def State.onMaster (f : Master → Master) (s : State) : State := { s with master := f s.master }

/-- Changes the slave side only. -/
def State.onSlave (f : Slave → Slave) (s : State) : State := { s with slave := f s.slave }

/-! ### Line levels and the trace -/

/-- R102: `SCL_LVL`. -/
def sclLevel (m : Master) (p : Peer) : Bool := m.sclOut && p.scl

/-- R102: `SDA_LVL`; a line whose direction is Input is released and reads high (general knowledge of the spec, its G1). -/
def sdaLevel (m : Master) (p : Peer) : Bool :=
  (match m.sdaDir with
    | .out => m.sdaOut
    | .inp => true) && p.sda

/-- R42: `PINS`. -/
def pinsByte (m : Master) (p : Peer) : Byte :=
  (0 : BitVec 3) ++ BitVec.ofBool (sdaLevel m p) ++ BitVec.ofBool (sclLevel m p) ++ BitVec.ofBool (m.sdaDir = .out)
    ++ BitVec.ofBool m.sdaOut ++ BitVec.ofBool m.sclOut

/-- R48: appends the record of a uop, taken after it. -/
def Master.record (m : Master) (p : Peer) (u : Uop) : Master :=
  { m with trace := m.trace ++ [⟨u, m.sclOut, m.sdaOut, m.sdaDir, sclLevel m p, sdaLevel m p⟩] }

/-! ### Acceptance and rejection of a command (R92) -/

/-- R176: `raise ILL()`. -/
def Master.raiseIll (m : Master) : Master := m.putStatus bitILL true

/-- R177: `raise OVR()`. -/
def Master.raiseOvr (m : Master) : Master := m.putStatus bitOVR true

/-- R92, first two branches: a word that is not accepted raises OVR while BUSY, and else ILL (R182: OVR is checked first). -/
def Master.rejectIllegal (m : Master) : Master := if m.busy then m.raiseOvr else m.raiseIll

/-- R92, last branch: latches the operands, clears DONE, sets BUSY, and sets MPC to the first uop of the command's program. -/
def Master.accept (m : Master) (op len : Nibble) (data : Byte) (program : List Micro) : Master :=
  { (m.putStatus bitDONE false).putStatus bitBUSY true with lop := op, llen := len, ldata := data, mpc := program }

/-- R92: what acceptance of a `WRTX` or `RDTX` clears besides. -/
def Master.clearTransaction (m : Master) : Master :=
  { (m.putStatus bitAF false).putStatus bitDF false with k := 0, xcnt := 0x00 }

/-- R92 for a single command presented to the MBB. -/
def Master.present (op : Nibble) (data : Byte) (program : List Micro) (m : Master) : Master :=
  if m.busy then m.raiseOvr else m.accept op 0 data program

/-- R92 for a transaction presented to the MBB; a count above `BUF_CAP`, here `cap`, is illegal (R93 (e);
DEDUCED, assumption 15). -/
def Master.presentTransaction (cap : Nat) (op len : Nibble) (data : Byte) (program : List Micro) (m : Master) : Master :=
  if m.busy then m.raiseOvr
  else if countFits cap len then (m.accept op len data program).clearTransaction
  else m.raiseIll

/-- R116 `FINISH`. -/
def Master.finish (m : Master) : Master :=
  { (m.putStatus bitDONE true).putStatus bitBUSY false with mpc := [] }

/-! ### Queues -/

/-- R150: the non-blocking dequeue: the oldest byte, if there is one, and what is left. -/
def tryDequeue : List Byte → Option Byte × List Byte
  | [] => (none, [])
  | v :: rest => (some v, rest)

/-- R151: the non-blocking enqueue on a queue of capacity `cap`: whether there was room, and the queue. -/
def tryEnqueue (cap : Nat) (q : List Byte) (v : Byte) : Bool × List Byte :=
  if q.length < cap then (true, q ++ [v]) else (false, q)

/-! ### The bridge primitives of the SED -/

/-- What one event's handling carries: the slave side, its number of draws so far, and the OR of the gives' answers (R152 `woken`). -/
structure Isr where
  slave : Slave
  draws : Nat
  woken : Bool
  deriving DecidableEq, Repr

/-- R148 `PortPop()`: the byte popped; a draw if the port holds none. -/
def Isr.portPop (c : Isr) : Byte × Isr :=
  match c.slave.portRx with
  | some v => (v, { c with slave := { c.slave with portRx := none } })
  | none => (Config.drawPort c.draws, { c with draws := c.draws + 1 })

/-- R149 `PortArm(v)`. -/
def Isr.portArm (c : Isr) (v : Byte) : Isr :=
  { c with slave := { c.slave with portTx := some v, txArmed := true } }

/-- R152: `(ok, v) <- OUTQ.tryDequeue(); if ok = 1: PortArm(v)`. On an empty queue the port is left as it is (R155, R157, R163),
a byte still armed from an earlier event included (DESIGN CHOICE, assumption 25). -/
def Isr.armFromOutq (c : Isr) : Isr :=
  match tryDequeue c.slave.outq with
  | (some v, rest) => { c with slave := { c.slave with outq := rest } }.portArm v
  | (none, _) => c

/-- R152: `INQ.tryEnqueue(v)`, whose answer the SED ignores. -/
def Isr.enqueueInq (c : Isr) (v : Byte) : Isr :=
  { c with slave := { c.slave with inq := (tryEnqueue Config.qCap c.slave.inq v).2 } }

/-- R153 `SEM_X.giveFromISR()`, its answer ORed into `woken`: a draw if the flag was 0; a give to a flag at 1 is lost. -/
def Isr.give (c : Isr) (x : Sem) : Isr :=
  match x with
  | .rx =>
    if c.slave.semRx then c
    else { slave := { c.slave with semRx := true }, draws := c.draws + 1, woken := c.woken || Config.drawWoken c.draws }
  | .tx =>
    if c.slave.semTx then c
    else { slave := { c.slave with semTx := true }, draws := c.draws + 1, woken := c.woken || Config.drawWoken c.draws }

/-- R155, R156: `RXCUR <- 0; TXCUR <- 0`. -/
def Isr.resetCursors (c : Isr) : Isr := { c with slave := { c.slave with rxcur := 0, txcur := 0 } }

/-- R157: `TXCUR <- TXCUR + 1; if TXCUR = BUF_CAP: TXCUR <- 0; give SEM_TX`. `BUF_CAP` is `cap`. -/
def Isr.advanceTx (cap : Nat) (c : Isr) : Isr :=
  if c.slave.txcur + 1 = cap then Isr.give { c with slave := { c.slave with txcur := 0 } } .tx
  else { c with slave := { c.slave with txcur := c.slave.txcur + 1 } }

/-- R158: `RXCUR <- RXCUR + 1; if RXCUR = BUF_CAP: RXCUR <- 0; give SEM_RX`. `BUF_CAP` is `cap`. -/
def Isr.advanceRx (cap : Nat) (c : Isr) : Isr :=
  if c.slave.rxcur + 1 = cap then Isr.give { c with slave := { c.slave with rxcur := 0 } } .rx
  else { c with slave := { c.slave with rxcur := c.slave.rxcur + 1 } }

/-- R158: `SRXBUF[RXCUR] <- v`. -/
def Isr.storeSrx (c : Isr) (v : Byte) : Isr :=
  { c with slave := { c.slave with srxbuf := c.slave.srxbuf.write c.slave.rxcur v } }

/-! ### The frame of an event -/

/-- R160 `Continue()`, R161 the yield request, R162 the phase record, and `EVT_PEND <- 0`: the return from an event (R186). -/
def Slave.endEvent (sl : Slave) (phase : Phase) (woken : Bool) : Slave :=
  { sl with phase := phase, hold := false, yield := woken, evtPend := false }

/-- R152: one event handled: the prologue, the class's body, the epilogue. Entry saves nothing and does not change IMASK (R185). -/
def State.handleEvent (sto sta : Bool) (body : Isr → Isr) (phase : Phase) (s : State) : State :=
  let c := body ⟨s.slave.clearLatches sto sta, s.slaveDraws, false⟩
  { s with slave := c.slave.endEvent phase c.woken, slaveDraws := c.draws }

end Sys2Proof.Machine
end

