-- ==== Sys2Proof/Machine/Sequences.lean ====
section
/-! DEFINITION. The uop sequences of spec/41_master_byte.md (R117) and the programs of the eight commands, each line as the pseudocode
has it. `FINISH` stands in no line: it is performed in the step of a program's last uop (R116), see `Master.performUop`. -/

namespace Sys2Proof.Machine

/-- A line that is a uop with no control. -/
def line (u : ProgUop) : Micro := { uop := u }

/-- Puts control on lines of its own before a sequence. -/
def withPre (cs : List Control) : List Micro → List Micro
  | [] => []
  | u :: rest => { u with pre := cs ++ u.pre } :: rest

/-- R118 `START_SEQ`. -/
def startSeq : List Micro :=
  [line (.sdaOe .out), line (.sda .high), line (.scl true), line (.wait .nBit),
   line (.sda .low), line (.wait .nBit), line (.scl false), line (.wait .nBit)]

/-- R119 `STOP_SEQ`. -/
def stopSeq : List Micro :=
  [line (.scl false), line (.sdaOe .out), line (.sda .low), line (.wait .nBit),
   line (.scl true), line (.wait .nBit), line (.sda .high)]

/-- R122: the body of the loop over the 8 bits. -/
def sendBit : List Micro :=
  [line (.scl false), line (.wait .nBit), line (.sda .sh7), line (.wait .nBit), line (.scl true),
   { uop := .wait .nBit, post := [.shiftSh, .countBit] }]

/-- R122: the acknowledgement clock. -/
def sendAck : List Micro :=
  [line (.scl false), line (.wait .nBit), line (.sdaOe .inp), line (.wait .nBit), line (.scl true), line (.wait .nAck),
   { uop := .sample .ackb, post := [.reportAck] }, line (.scl false), line (.sdaOe .out), line (.sda .low)]

/-- A sequence repeated. -/
def repeatSeq : Nat → List Micro → List Micro
  | 0, _ => []
  | n + 1, p => p ++ repeatSeq n p

/-- R122 `SEND_SEQ(b)`, 58 uops as its pseudocode has them (DEDUCED, assumption 2), with the control that stands before it and the one
that loads `SH`. -/
def sendSeq (before : List Control) (load : Control) : List Micro :=
  withPre (before ++ [load, .clearBitn]) (repeatSeq 8 sendBit ++ sendAck)

/-- R125: the body of the loop over the 8 bits. -/
def recvBit : List Micro :=
  [line (.scl false), line (.wait .nBit), line (.scl true), line (.wait .nBit),
   { uop := .sample .rb, post := [.shiftRbUnlessLast, .countBit] }]

/-- R125: what follows the loop, with the control on the lines before its `SCL(0)`. -/
def recvEnd (store : List Control) : List Micro :=
  [{ pre := store, uop := .scl false }, line (.sdaOe .out), line (.sda .low)]

/-- R125 `RECV_SEQ`, with the control that stands before it and what is stored at its end (R130's remark on it does not hold of its first
uop from the idle bus: DEDUCED, assumption 19). -/
def recvSeq (before store : List Control) : List Micro :=
  withPre (before ++ [.clearRb, .clearBitn]) (line (.sdaOe .inp) :: repeatSeq 8 recvBit ++ recvEnd store)

/-- R128 `RESP_SEQ(n)`, as its pseudocode has it (R130's remark on it does not hold from the idle bus: DEDUCED, assumption 19). -/
def respSeq (n : SdaSource) : List Micro :=
  [line (.sda .low), line (.scl false), line (.sda n), line (.wait .nRsp), line (.scl true), line (.wait .nRsp), line (.scl false)]

/-! ### The programs of the commands -/

/-- R118. -/
def startProgram : List Micro := startSeq

/-- R119. -/
def stopProgram : List Micro := stopSeq

/-- R121: `SEND_SEQ(LDATA)`. -/
def sendProgram : List Micro := sendSeq [] .loadShData

/-- R124. -/
def recvProgram : List Micro := recvSeq [] [.storeRxdata]

/-- R127: `RESP_SEQ(n)` with `n = LDATA[0]`. -/
def respProgram : List Micro := respSeq .ldata0

/-- R110: `WAIT(u)`. -/
def delayProgram : List Micro := [line (.wait .ldata)]

/-- R133: the data bytes still to send and the final STOP, after the control that closes the byte before. -/
def wrtxTail : Nat → List Control → List Micro
  | 0, closing => withPre closing stopSeq
  | n + 1, closing => sendSeq closing .loadShTx ++ wrtxTail n [.abortIfNack .df, .countByte]

/-- R133: the program of `WRTX` with `n` data bytes. -/
def wrtxProgram (n : Nat) : List Micro :=
  startSeq ++ sendSeq [] (.loadShAddr false) ++ wrtxTail n [.abortIfNack .af]

/-- R137: the data bytes still to receive and the final STOP, after the control that closes the byte before. -/
def rdtxTail : Nat → List Control → List Micro
  | 0, closing => withPre closing stopSeq
  | n + 1, closing => recvSeq closing [.storeRxdata, .storeRxbuf] ++ respSeq .nackIfLast ++ rdtxTail n [.countByte]

/-- R137: the program of `RDTX` with `n` data bytes. -/
def rdtxProgram (n : Nat) : List Micro :=
  startSeq ++ sendSeq [] (.loadShAddr true) ++ rdtxTail n [.abortIfNack .af]

end Sys2Proof.Machine
end

