-- ==== Sys2Proof/Machine/Sequencer.lean ====
section
/-! DEFINITION. One step of the MBB: the control before a uop, the uop, the control after it (spec/40_bus_primitives.md R100 to R107,
spec/41_master_byte.md R116). -/

namespace Sys2Proof.Machine

/-- One piece of control that does not branch. `SH <- TXBUF[K]` faults on an entry that holds no value (R134). -/
def Master.runControl (m : Master) : Control → Except Fault Master
  | .loadShData => .ok { m with sh := m.byteOperand }
  | .loadShAddr low => .ok { m with sh := m.addressOperand low }
  | .loadShTx =>
    match m.txbuf.read m.k with
    | some v => .ok { m with sh := v }
    | none => .error (.uninit .txbuf m.k)
  | .clearBitn => .ok { m with bitn := 0 }
  | .countBit => .ok { m with bitn := m.bitn + 1 }
  | .shiftSh => .ok { m with sh := m.sh <<< 1 }
  | .reportAck => .ok (m.putStatus bitNACK m.ackb)
  | .clearRb => .ok { m with rb := 0x00 }
  | .shiftRbUnlessLast => .ok (if m.bitn < 7 then { m with rb := m.rb <<< 1 } else m)
  | .storeRxdata => .ok { m with rxdata := m.rb }
  | .storeRxbuf => .ok { m with rxbuf := m.rxbuf.write m.k m.rb }
  | .countByte => .ok { m with k := m.k + 1, xcnt := BitVec.ofNat 8 (m.k + 1) }
  | .abortIfNack f => .ok (if m.ackb then { m.putStatus f.index true with mpc := stopSeq } else m)

/-- The control of one place, in order. A branch that is taken leaves the rest behind: MPC then names the first uop of `STOP_SEQ`. -/
def Master.runControls : List Control → Master → Except Fault Master
  | [], m => .ok m
  | .abortIfNack f :: rest, m =>
    if m.ackb then m.runControl (.abortIfNack f) else Master.runControls rest m
  | c :: rest, m =>
    match m.runControl c with
    | .ok m' => Master.runControls rest m'
    | .error e => .error e

/-- The uop alone, with the PEER's drive: R101, R103, R104, R106, R107. Answers the uop as the TRACE records it. -/
def Master.doUop (m : Master) (p : Peer) : ProgUop → Uop × Master
  | .scl v => (.scl v, { m with sclOut := v })
  | .sda src => (.sda (src.level m), { m with sdaOut := src.level m })
  | .sdaOe d => (.sdaOe d, { m with sdaDir := d })
  | .wait src => (.wait (src.units m), m)
  | .sample .ackb => (.sample, { m with ackb := sdaLevel m p })
  | .sample .rb => (.sample, { m with rb := m.rb ||| (BitVec.ofBool (sdaLevel m p)).zeroExtend 8 })

/-- The uop at MPC with the control after it; MPC advances, and after the last uop of a command it is `FINISH` (R26, R30, R116). -/
def Master.performUop (m : Master) (p : Peer) (u : Micro) (rest : List Micro) : Except Fault Master :=
  let r := m.doUop p u.uop
  match Master.runControls u.post ({ r.2 with mpc := rest }.record p r.1) with
  | .ok m' => .ok (match m'.mpc with
    | [] => m'.finish
    | _ :: _ => m')
  | .error e => .error e

/-- One MBB step, with the PEER's drive at it (R105, R106; DEDUCED, assumption 11). An idle MBB takes none (R195). -/
def Master.step (m : Master) (p : Peer) : Except Fault Master :=
  match m.mpc with
  | [] => .ok m
  | u :: _ =>
    match Master.runControls u.pre m with
    | .ok m' =>
      match m'.mpc with
      | [] => .ok m'
      | u' :: rest => m'.performUop p u' rest
    | .error e => .error e

end Sys2Proof.Machine
end

