-- ==== Sys2Proof/Machine/ByteCommands.lean ====
section
/-! DEFINITION. The meanings of START, STOP, SEND, RECV, RESP (spec/41_master_byte.md) and DELAY (spec/40_bus_primitives.md R110): the
word is presented to the MBB, which latches the operands and enters the command's program (spec/30_encoding.md R92), or rejects it. The
program's uops are then the MBB's steps, `Master.step` (DEDUCED, assumption 18). -/

namespace Sys2Proof.Machine

/-- R118. -/
def execStart (s : State) : Host.Outcome State Fault Refusal :=
  .next (s.onMaster (Master.present 0x1 0 startProgram))

/-- R119. -/
def execStop (s : State) : Host.Outcome State Fault Refusal :=
  .next (s.onMaster (Master.present 0x2 0 stopProgram))

/-- R121. -/
def execSend (b : Byte) (s : State) : Host.Outcome State Fault Refusal :=
  .next (s.onMaster (Master.present 0x3 b sendProgram))

/-- R124. -/
def execRecv (s : State) : Host.Outcome State Fault Refusal :=
  .next (s.onMaster (Master.present 0x4 0 recvProgram))

/-- R127. -/
def execResp (n : Bool) (s : State) : Host.Outcome State Fault Refusal :=
  .next (s.onMaster (Master.present 0x5 (addressByte 0 n) respProgram))

/-- R110. -/
def execDelay (u : Byte) (s : State) : Host.Outcome State Fault Refusal :=
  .next (s.onMaster (Master.present 0x8 u delayProgram))

end Sys2Proof.Machine
end

