-- ==== Sys2Proof/Machine/SlaveEvents.lean ====
section
/-! DEFINITION. The meanings of the SED's five event classes: the whole handler of spec/43_slave_dispatcher.md R152 in one atomic step
(R145). Bits 7:5 of a vector, and BTC where a class ignores it, change nothing (R90, R91). -/

namespace Sys2Proof.Machine

/-- R155: the body of `EV_ADDR_RD`. -/
def addrRdBody (c : Isr) : Isr := c.resetCursors.armFromOutq

/-- R156: the body of `EV_ADDR_WR`; the byte popped is discarded. -/
def addrWrBody (c : Isr) : Isr := c.resetCursors.portPop.2

/-- R157: the body of `EV_TX`, where `BUF_CAP` is `cap`. -/
def txBody (cap : Nat) (c : Isr) : Isr := c.armFromOutq.advanceTx cap

/-- R158: the body of `EV_RX`, where `BUF_CAP` is `cap`. -/
def rxBody (cap : Nat) (c : Isr) : Isr :=
  let r := c.portPop
  ((r.2.storeSrx r.1).enqueueInq r.1).advanceRx cap

/-- R159: the body of `EV_END`. -/
def endBody (c : Isr) : Isr := c.give .tx

/-- R155. -/
def execEvAddrRd (sto sta : Bool) (s : State) : Host.Outcome State Fault Refusal :=
  .next (s.handleEvent sto sta addrRdBody .addrRd)

/-- R156. -/
def execEvAddrWr (sto sta : Bool) (s : State) : Host.Outcome State Fault Refusal :=
  .next (s.handleEvent sto sta addrWrBody .addrWr)

/-- R157. -/
def execEvTx (sto sta : Bool) (s : State) : Host.Outcome State Fault Refusal :=
  .next (s.handleEvent sto sta (txBody s.bufCap) .inXfer)

/-- R158. -/
def execEvRx (sto sta : Bool) (s : State) : Host.Outcome State Fault Refusal :=
  .next (s.handleEvent sto sta (rxBody s.bufCap) .inXfer)

/-- R159. -/
def execEvEnd (sto sta : Bool) (s : State) : Host.Outcome State Fault Refusal :=
  .next (s.handleEvent sto sta endBody .idle)

end Sys2Proof.Machine
end

