-- ==== Sys2Proof/Machine/TransactionCommands.lean ====
section
/-! DEFINITION. The meanings of WRTX and RDTX (spec/42_master_transactions.md): presented to the MBB as the single commands are. -/

namespace Sys2Proof.Machine

/-- R133. -/
def execWrtx (len : Nibble) (addr : DeviceAddr) (x : Bool) (s : State) : Host.Outcome State Fault Refusal :=
  .next (s.onMaster (Master.presentTransaction s.bufCap 0x6 len (addressByte addr x) (wrtxProgram len.toNat)))

/-- R137. -/
def execRdtx (len : Nibble) (addr : DeviceAddr) (x : Bool) (s : State) : Host.Outcome State Fault Refusal :=
  .next (s.onMaster (Master.presentTransaction s.bufCap 0x7 len (addressByte addr x) (rdtxProgram len.toNat)))

end Sys2Proof.Machine
end

