-- ==== Sys2Proof/Machine/Dispatch.lean ====
section
/-! DEFINITION. One arm per instruction: each calls its meaning. -/

namespace Sys2Proof.Machine

def exec (i : Instr) (s : State) : Host.Outcome State Fault Refusal :=
  match i with
  | .start => Sys2Proof.Machine.execStart s
  | .stop => Sys2Proof.Machine.execStop s
  | .send b => Sys2Proof.Machine.execSend b s
  | .recv => Sys2Proof.Machine.execRecv s
  | .resp n => Sys2Proof.Machine.execResp n s
  | .wrtx len addr x => Sys2Proof.Machine.execWrtx len addr x s
  | .rdtx len addr x => Sys2Proof.Machine.execRdtx len addr x s
  | .delay u => Sys2Proof.Machine.execDelay u s
  | .evAddrRd _ _ sto sta => Sys2Proof.Machine.execEvAddrRd sto sta s
  | .evAddrWr _ _ sto sta => Sys2Proof.Machine.execEvAddrWr sto sta s
  | .evTx _ _ sto sta => Sys2Proof.Machine.execEvTx sto sta s
  | .evRx _ sto sta => Sys2Proof.Machine.execEvRx sto sta s
  | .evEnd _ sto sta => Sys2Proof.Machine.execEvEnd sto sta s

end Sys2Proof.Machine
end

