-- ==== Sys2Proof/Machine/HostPort.lean ====
section
/-! DEFINITION. The HOST's accesses to the MBB's register space (spec/10_state.md R36 to R45, spec/20_memory.md R61 to R66, R69). -/

namespace Sys2Proof.Machine

/-- The byte a `MemRead` returns to the host. -/
def State.answerHost (s : State) (v : Byte) : State := { s with answers := { s.answers with hostRead := some v } }

/-- A read of a transfer-buffer entry: its byte, or the fault UNINIT (R43, R44). -/
def readEntry (buf : Buffer) (mem : Memory) (i : Nat) (s : State) : Host.Outcome State Fault Refusal :=
  match mem.read i with
  | some v => .next (s.answerHost v)
  | none => .fault (.uninit buf i)

/-- `MemRead(off, 1)`. No read has a side effect on the block (R65); a reserved offset answers a draw (R45). -/
def hostRead (off : Byte) (s : State) : Host.Outcome State Fault Refusal :=
  match hostReg s.bufCap off with
  | .cmdl => .next (s.answerHost s.master.cmdl)
  | .cmdh => .next (s.answerHost s.master.cmdh)
  | .status => .next (s.answerHost s.master.readStatus)
  | .rxdata => .next (s.answerHost s.master.rxdata)
  | .xcnt => .next (s.answerHost s.master.xcnt)
  | .pins => .next (s.answerHost (pinsByte s.master s.peer))
  | .txbuf i => readEntry .txbuf s.master.txbuf i s
  | .rxbuf i => readEntry .rxbuf s.master.rxbuf i s
  | .reserved => .next { s.answerHost (Config.drawHost s.hostDraws) with hostDraws := s.hostDraws + 1 }

/-- R92: a command word presented to the MBB: the instruction it encodes is run, and an illegal word is rejected. -/
def presentWord (w : CommandWord) (s : State) : Host.Outcome State Fault Refusal :=
  match decodeCommand s.bufCap w with
  | .ok i => exec i s
  | .reject _ => .next (s.onMaster Master.rejectIllegal)

/-- `MemWrite(off, 1, v)` (R36, R38, R39, R43, R66): a write to a read-only register or a reserved offset has no effect. -/
def hostWrite (off v : Byte) (s : State) : Host.Outcome State Fault Refusal :=
  match hostReg s.bufCap off with
  | .cmdl => .next (s.onMaster fun m => { m with cmdl := v })
  | .cmdh => presentWord (commandWord s.master.cmdl v) (s.onMaster fun m => { m with cmdh := v })
  | .status => .next (s.onMaster (Master.writeStatus · v))
  | .txbuf i => .next (s.onMaster fun m => { m with txbuf := m.txbuf.write i v })
  | .rxdata => .next s
  | .xcnt => .next s
  | .pins => .next s
  | .rxbuf _ => .next s
  | .reserved => .next s

end Sys2Proof.Machine
end

