-- ==== Sys2Proof/Machine/Peripheral.lean ====
section
/-! DEFINITION. The PERIPH agent, as far as its contract goes (spec/43_slave_dispatcher.md R146, R149, R163), and the reference peripheral
of spec/92_eei_decisions.md D24. -/

namespace Sys2Proof.Machine

/-- R146: `NAM` is 1 only on the first event of a transaction, the event of the address byte that matched `SLV_ADDR`, and `RD` is then bit
0 of that byte: no event of the transaction on the bus has been raised, or a START condition is new with this one (which begins
another), and the byte loaded, if any, is that address byte (DESIGN CHOICE, assumption 12). -/
def addressContract (eventSeen sta nam rd : Bool) (rx : Option Byte) : Bool :=
  !nam || ((sta || !eventSeen) &&
    (match rx with
      | none => true
      | some v => v == addressByte Config.slvAddr rd))

/-- R146: an event may be raised only when HOLD = 0 and EVT_PEND = 0, and with NAM = 1 only as `addressContract` says; else the step
is not enabled (DESIGN CHOICE, assumption 7). What the event is otherwise is the input's. A STOP condition that no address match comes
with ends the transaction on the bus. -/
def periphRaise (sta sto nam rd btc : Bool) (rx : Option Byte) (s : State) : Host.Outcome State Fault Refusal :=
  if s.slave.hold || s.slave.evtPend || !addressContract s.slave.eventSeen sta nam rd rx then .next s
  else .next (s.onSlave fun sl =>
    { sl with
      flags := raisedFlags sl.flags sta sto nam rd btc
      portRx := rx.or sl.portRx
      evtPend := true
      hold := true
      eventSeen := nam || !sto })

/-- R149, R163: the byte transmitted is `PORT_TX` if it is armed, and else a draw; `TX_ARMED` is cleared. A byte armed by an earlier event
and not sent yet is the one sent, though a later event found OUTQ empty (DESIGN CHOICE, assumption 25). It may transmit at any step, and an
armed port without a byte gives a draw (DESIGN CHOICE, assumptions 12, 13). -/
def periphTransmit (s : State) : Host.Outcome State Fault Refusal :=
  match s.slave.txArmed, s.slave.portTx with
  | true, some v =>
    .next { s with slave := { s.slave with txArmed := false }, answers := { s.answers with transmitted := some v } }
  | _, _ =>
    .next { s with
      slave := { s.slave with txArmed := false }
      answers := { s.answers with transmitted := some (Config.drawPort s.slaveDraws) }
      slaveDraws := s.slaveDraws + 1 }

/-! ### The reference peripheral (D24; the vectors' own, not a premise of any rule) -/

/-- The address event: `rd` is bit 0 of the matched address byte. -/
def refAddress (rd : Bool) : AgentStep := .periphRaise true false true rd false (some (addressByte Config.slvAddr rd))

/-- A data byte received. -/
def refReceived (v : Byte) : AgentStep := .periphRaise false false false false true (some v)

/-- A data byte transmitted. -/
def refSent : AgentStep := .periphRaise false false false true false none

/-- A STOP condition. -/
def refStop : AgentStep := .periphRaise false true false false false none

end Sys2Proof.Machine
end

