-- ==== Sys2Proof/Machine/TaskSide.lean ====
section
/-! DEFINITION. The TASKS agent's bridge operations and critical sections (spec/43_slave_dispatcher.md R166 to R169). An operation that
blocks takes no step. -/

namespace Sys2Proof.Machine

/-- Hands a result to the task. -/
def State.answerTask (s : State) (r : TaskResult) : State := { s with answers := { s.answers with task := some r } }

/-- A blocking operation that cannot complete: with a bounded wait that has run out it fails, and else the task stays blocked. -/
def blockOrFail (w : Wait) (s : State) : State :=
  match w with
  | .bounded true => s.answerTask .failed
  | .bounded false => s
  | .indefinite => s

/-- R166 `INQ.receive(wait)`. -/
def taskReceive (w : Wait) (s : State) : Host.Outcome State Fault Refusal :=
  match tryDequeue s.slave.inq with
  | (some v, rest) => .next ((s.onSlave fun sl => { sl with inq := rest }).answerTask (.received v))
  | (none, _) => .next (blockOrFail w s)

/-- R167 `OUTQ.send(v, wait)`. -/
def taskSend (v : Byte) (w : Wait) (s : State) : Host.Outcome State Fault Refusal :=
  match tryEnqueue Config.qCap s.slave.outq v with
  | (true, q) => .next ((s.onSlave fun sl => { sl with outq := q }).answerTask .sent)
  | (false, _) => .next (blockOrFail w s)

/-- R168 `SEM_X.take()`. -/
def taskTake (x : Sem) (s : State) : Host.Outcome State Fault Refusal :=
  match x with
  | .rx => .next (if s.slave.semRx then (s.onSlave fun sl => { sl with semRx := false }).answerTask .taken else s)
  | .tx => .next (if s.slave.semTx then (s.onSlave fun sl => { sl with semTx := false }).answerTask .taken else s)

/-- R169: `IMASK <- 1` enters a critical section, `IMASK <- 0` leaves it. -/
def taskMask (on : Bool) (s : State) : Host.Outcome State Fault Refusal :=
  .next (s.onSlave fun sl => { sl with imask := on })

end Sys2Proof.Machine
end

