-- ==== Sys2Proof/Machine/Agents.lean ====
section
/-! DEFINITION. The steps of the agents (spec/10_state.md R20) and the order they come in. -/

namespace Sys2Proof.Machine

/-- One MBB step (R67). -/
def mbbStep (s : State) : Host.Outcome State Fault Refusal :=
  match s.master.step s.peer with
  | .ok m => .next { s with master := m }
  | .error f => .fault f

/-- R145: the SED has a step exactly when EVT_PEND = 1 and IMASK = 0; it runs the class of the event vector. -/
def sedStep (s : State) : Host.Outcome State Fault Refusal :=
  if s.slave.evtPend && !s.slave.imask then exec (decodeEvent s.slave.eventVector) s else .next s

/-- R47: the PEER changes its drive. -/
def peerStep (scl sda : Bool) (s : State) : Host.Outcome State Fault Refusal := .next { s with peer := ⟨scl, sda⟩ }

/-- R197: the reset of the master side. -/
def masterReset (s : State) : Host.Outcome State Fault Refusal := .next (s.onMaster fun _ => Master.reset)

/-- R197: the reset of the slave side. -/
def slaveReset (s : State) : Host.Outcome State Fault Refusal := .next (s.onSlave fun _ => Slave.reset)

/-- The step of one agent. -/
def agentStep (a : AgentStep) (s : State) : Host.Outcome State Fault Refusal :=
  match a with
  | .hostRead off => hostRead off s
  | .hostWrite off v => hostWrite off v s
  | .mbb => mbbStep s
  | .peerDrive scl sda => peerStep scl sda s
  | .periphRaise sta sto nam rd btc rx => periphRaise sta sto nam rd btc rx s
  | .periphTransmit => periphTransmit s
  | .sed => sedStep s
  | .taskReceive w => taskReceive w s
  | .taskSend v w => taskSend v w s
  | .taskTake x => taskTake x s
  | .taskMask on => taskMask on s
  | .masterReset => masterReset s
  | .slaveReset => slaveReset s

/-- The next step of the interleaving, and the state with the choice made: the soonest input, or the free schedule's choice. -/
def nextInput (s : State) : AgentStep × State :=
  match s.inputs with
  | a :: rest => (a, { s with inputs := rest })
  | [] => (Config.freeStep s.sched, { s with sched := s.sched + 1 })

/-! ### Placing an instruction (for `State.withFetchWord`) -/

/-- A command word whose low byte the host has written to CMDL, and whose high byte it writes to CMDH next (R79, R205). -/
def State.placeCommand (s : State) (w : CommandWord) : State :=
  { s with
    master := { s.master with cmdl := dataField w }
    inputs := .hostWrite 0x01 (opField w ++ lenField w) :: s.inputs }

/-- An event vector that the PERIPH has raised, unmasked, and that the SED handles next (R145, R146). -/
def State.placeEvent (s : State) (v : Byte) : State :=
  { s with
    slave := { s.slave with flags := v, evtPend := true, hold := true, imask := false }
    inputs := .sed :: s.inputs }

end Sys2Proof.Machine
end

