-- ==== Sys2Proof/Machine/Step.lean ====
section
/-! DEFINITION. One step of the machine: the next agent of the interleaving takes its step. -/

namespace Sys2Proof.Machine

/-- One step. -/
def step (s : State) : Host.Outcome State Fault Refusal := agentStep (nextInput s).1 (nextInput s).2

/-- `s` with a table row's word placed where the next step takes its instruction from: a row of up to 8 bits is an event vector, a
longer one a command word (DESIGN CHOICE, assumption 6). -/
def State.withFetchWord (s : State) (nbits w : Nat) : State :=
  if nbits ≤ 8 then s.placeEvent (BitVec.ofNat 8 w) else s.placeCommand (BitVec.ofNat 16 w)

end Sys2Proof.Machine
end

