-- ==== Sys2Proof/Machine/Causes.lean ====
section
/-! DEFINITION. The cause codes of spec/60_exceptions.md R171 and where each outcome is to be seen. None is a trap (R175). -/

namespace Sys2Proof.Machine

/-- The abnormal outcomes of the block. -/
inductive Cause where
  | addrNack
  | dataNack
  | cmdIllegal
  | cmdOverrun
  | txUnderrun
  | rxOverflow
  | giveLost
  deriving DecidableEq, Repr

/-- R171: the spec's numbers. -/
def Cause.code : Cause → Nat
  | .addrNack => 1
  | .dataNack => 2
  | .cmdIllegal => 3
  | .cmdOverrun => 4
  | .txUnderrun => 5
  | .rxOverflow => 6
  | .giveLost => 7

/-- R171: the causes that STATUS records. -/
def Master.recordedCauses (m : Master) : List Cause :=
  (if m.af then [.addrNack] else []) ++ (if m.df then [.dataNack] else []) ++ (if m.ill then [.cmdIllegal] else [])
    ++ (if m.ovr then [.cmdOverrun] else [])

/-- R171, R174: a dequeue from an empty OUTQ. -/
def Slave.underruns (sl : Slave) : List Cause := if sl.outq = [] then [.txUnderrun] else []

/-- R171, R174: an enqueue onto a full INQ. -/
def Slave.overflows (sl : Slave) : List Cause := if sl.inq.length < Config.qCap then [] else [.rxOverflow]

/-- R171, R174: a give to a semaphore already at 1. -/
def losesGive (given sem : Bool) : List Cause := if given && sem then [.giveLost] else []

/-- R171, R183: the causes an event meets, where `BUF_CAP` is `cap`; the block records none of them. -/
def eventCauses (cap : Nat) : Instr → Slave → List Cause
  | .evAddrRd _ _ _ _, sl => sl.underruns
  | .evTx _ _ _ _, sl => sl.underruns ++ losesGive (decide (sl.txcur + 1 = cap)) sl.semTx
  | .evRx _ _ _, sl => sl.overflows ++ losesGive (decide (sl.rxcur + 1 = cap)) sl.semRx
  | .evEnd _ _ _, sl => losesGive true sl.semTx
  | .evAddrWr _ _ _ _, _ => []
  | .start, _ => []
  | .stop, _ => []
  | .send _, _ => []
  | .recv, _ => []
  | .resp _, _ => []
  | .wrtx _ _ _, _ => []
  | .rdtx _ _ _, _ => []
  | .delay _, _ => []

end Sys2Proof.Machine
end

