-- ==== Sys2Proof/Machine/HostProgram.lean ====
section
/-! DEFINITION. The host program notation of spec/30_encoding.md R97, R98, as steps of the HOST. The host's own control flow (`goto`, the
loop of `waitidle`) is the host's; a run of it is some number of reads of STATUS. -/

namespace Sys2Proof.Machine

/-- `wr off, v`. -/
def wr (off v : Byte) : List AgentStep := [.hostWrite off v]

/-- `rd off`. -/
def rd (off : Byte) : List AgentStep := [.hostRead off]

/-- `cmd M`: CMDL, then CMDH (R205). An event is no host command. -/
def cmd (i : Instr) : List AgentStep :=
  match encode i with
  | .command w => wr 0x00 (dataField w) ++ wr 0x01 (opField w ++ lenField w)
  | .event _ => []

/-- `n` rounds of `waitidle`. -/
def waitidle (n : Nat) : List AgentStep := List.replicate n (.hostRead 0x02)

/-- The writes of a list of bytes to consecutive offsets. -/
def wrBytes (off : Nat) : List Byte → List AgentStep
  | [] => []
  | b :: rest => wr (BitVec.ofNat 8 off) b ++ wrBytes (off + 1) rest

/-- R97 `WRITE a, bytes`. -/
def hostWRITE (addr : DeviceAddr) (bytes : List Byte) : List AgentStep :=
  wrBytes 0x10 bytes ++ cmd (.wrtx (BitVec.ofNat 4 bytes.length) addr false)

/-- The reads of `l` consecutive offsets. -/
def rdBytes (off : Nat) : Nat → List AgentStep
  | 0 => []
  | l + 1 => rd (BitVec.ofNat 8 off) ++ rdBytes (off + 1) l

/-- R97 `READ a, l`, with `n` rounds of its `waitidle`. -/
def hostREAD (addr : DeviceAddr) (l n : Nat) : List AgentStep :=
  cmd (.rdtx (BitVec.ofNat 4 l) addr false) ++ waitidle n ++ rdBytes 0x20 l

end Sys2Proof.Machine
end

