-- ==== Sys2Proof/Machine/Wire.lean ====
section
/-! DEFINITION. What is read off the TRACE: bus conditions (spec/40_bus_primitives.md R108), data bits, uop counts and nominal time
(R112, R143). No rule of the block reads any of it (R48). -/

namespace Sys2Proof.Machine

/-- R108 START(r'). -/
def isStartCond (r r' : TraceRec) : Bool := r.scl && r'.scl && r.sda && !r'.sda

/-- R108 STOP(r'). -/
def isStopCond (r r' : TraceRec) : Bool := r.scl && r'.scl && !r.sda && r'.sda

/-- R108 RISE(r'). -/
def isRise (r r' : TraceRec) : Bool := !r.scl && r'.scl

/-- How many pairs of consecutive records meet a condition. -/
def countPairs (cond : TraceRec → TraceRec → Bool) : List TraceRec → Nat
  | [] => 0
  | [_] => 0
  | r :: r' :: rest => (if cond r r' then 1 else 0) + countPairs cond (r' :: rest)

/-- The SDA level at each rising Clock edge, in order: the data bits of R108. -/
def risingData : List TraceRec → List Bool
  | [] => []
  | [_] => []
  | r :: r' :: rest => if isRise r r' then r'.sda :: risingData (r' :: rest) else risingData (r' :: rest)

/-- A uop that acts on Data (R130): `SDA(v)` or `SDA_OE(d)`. -/
def Uop.actsOnData : Uop → Bool
  | .sda _ => true
  | .sdaOe _ => true
  | .scl _ => false
  | .wait _ => false
  | .sample => false

/-- R130: every `SDA(v)` and `SDA_OE(d)` in the records is performed with SCL_OUT = 0. -/
def dataOnlyWhileLow (recs : List TraceRec) : Prop := ∀ r ∈ recs, r.uop.actsOnData = true → r.sclOut = false

/-- R130 for records that begin with START_SEQ, or end with STOP_SEQ, or both: the only uops that move SDA_OUT while SCL_OUT = 1 are
START's `SDA(0)`, the record at place 4, and STOP's `SDA(1)`, the last one; and after START's eight records every uop on Data but the
last is performed with SCL_OUT = 0. -/
def onlyStartAndStopMoveData (recs : List TraceRec) : Prop :=
  (∀ i r r', recs[i]? = some r → recs[i + 1]? = some r' → r'.sclOut = true → r'.sdaOut ≠ r.sdaOut →
    i + 1 = 4 ∨ i + 2 = recs.length) ∧
  ∀ i r, 8 ≤ i → i + 1 < recs.length → recs[i]? = some r → r.uop.actsOnData = true → r.sclOut = false

/-- R59: the bits of a byte in wire order, bit 7 first. -/
def wireBits (b : Byte) : List Bool :=
  [b.getLsbD 7, b.getLsbD 6, b.getLsbD 5, b.getLsbD 4, b.getLsbD 3, b.getLsbD 2, b.getLsbD 1, b.getLsbD 0]

/-- R126: the byte assembled from samples, first sample in the highest place. -/
def assemble (samples : List Bool) : Byte := samples.foldl (fun acc b => (acc <<< 1) ||| (BitVec.ofBool b).zeroExtend 8) 0

/-- R143: the delay units of a stretch of trace. -/
def traceUnits : List TraceRec → Nat
  | [] => 0
  | r :: rest =>
    (match r.uop with
      | .wait n => n
      | .scl _ => 0
      | .sda _ => 0
      | .sdaOe _ => 0
      | .sample => 0) + traceUnits rest

/-- R106, R112: the nominal duration of a stretch of trace. -/
def nominalTime (t : List TraceRec) : Nat := traceUnits t * Config.tUnit

end Sys2Proof.Machine
end

