-- ==== Sys2Proof/Safety.lean ====
section
/-! DEFINITION. The terms claims are made in: runs under a given script of agent steps, the MBB's run beside a PEER, the premises the
spec asks claims to state (spec/70_reset_and_hazards.md R213, R220; spec/43_slave_dispatcher.md R146), and the machine's invariant. -/

namespace Sys2Proof.Machine

/-! ### Runs -/

/-- `n` steps of the machine. -/
def runSteps : Nat → State → Host.Outcome State Fault Refusal
  | 0, s => .next s
  | n + 1, s =>
    match step s with
    | .next t => runSteps n t
    | .fault f => .fault f
    | .refused r => .refused r

/-- `s` with the next steps of the interleaving given. -/
def State.given (s : State) (script : List AgentStep) : State := { s with inputs := script }

/-- The run of a script. -/
def runScript (script : List AgentStep) (s : State) : Host.Outcome State Fault Refusal :=
  runSteps script.length (s.given script)

/-- The interleaving in which the PEER sets its drive as listed, once before each MBB step (R70, R105). -/
def busScript : List Peer → List AgentStep
  | [] => []
  | p :: rest => .peerDrive p.scl p.sda :: .mbb :: busScript rest

/-- The interleaving in which each listed event is raised and then handled: `sta`, `sto`, `nam`, `rd`, `btc`, byte loaded. -/
def eventScript : List (Bool × Bool × Bool × Bool × Bool × Option Byte) → List AgentStep
  | [] => []
  | (sta, sto, nam, rd, btc, rx) :: rest => .periphRaise sta sto nam rd btc rx :: .sed :: eventScript rest

/-- A list of instructions run one after the other. -/
def execAll : List Instr → State → Host.Outcome State Fault Refusal
  | [], s => .next s
  | i :: rest, s =>
    match exec i s with
    | .next t => execAll rest t
    | .fault f => .fault f
    | .refused r => .refused r

/-! ### The end of a run (R220) -/

/-- A step of the HOST: a line of its program, or a round of its `waitidle` (R97, R98). -/
def isHostStep : AgentStep → Bool
  | .hostRead _ => true
  | .hostWrite _ _ => true
  | .mbb => false
  | .peerDrive _ _ => false
  | .periphRaise _ _ _ _ _ _ => false
  | .periphTransmit => false
  | .sed => false
  | .taskReceive _ => false
  | .taskSend _ _ => false
  | .taskTake _ => false
  | .taskMask _ => false
  | .masterReset => false
  | .slaveReset => false

/-- The state after the first `n` steps of a run, if the run gets there. -/
def runState (script : List AgentStep) (s : State) (n : Nat) : Option State :=
  match runScript (script.take n) s with
  | .next t => some t
  | .fault _ => none
  | .refused _ => none

/-- MPC = IDLE, BUSY = 0 and EVT_PEND = 0. -/
def State.quiet (s : State) : Bool := decide (s.master.mpc = []) && !s.master.busy && !s.slave.evtPend

/-- After `n` steps of a run the HOST's last line is past, the state is quiet, and the PERIPH raises no further event (a raise sets
EVT_PEND, so none is pending from there on). -/
def pastEnd (script : List AgentStep) (s : State) (n : Nat) : Bool :=
  decide (n ≤ script.length) && !(script.drop n).any isHostStep && (runState script s n).any State.quiet &&
    (List.range (script.length + 1)).all fun m => decide (m < n) || (runState script s m).all fun t => !t.slave.evtPend

/-- R220: a run of a host program ends after its first `n` steps, and the end state is the state there: `n` is the first place at which
the program is past, MPC = IDLE, BUSY = 0, EVT_PEND = 0 and the PERIPH raises no further event. -/
def RunEndsAt (program script : List AgentStep) (s : State) (n : Nat) (end_ : State) : Prop :=
  script.filter isHostStep = program ∧ pastEnd script s n = true ∧ (∀ m, m < n → pastEnd script s m = false) ∧
    runState script s n = some end_

/-! ### The PEER's drive along a command -/

/-- The level the PEER gives SDA at the `i`-th MBB step. -/
def peerSda (ps : List Peer) (i : Nat) : Bool := (ps.getD i Peer.released).sda

/-- The PEER never pulls SCL low: a strong form of the premise of R213. -/
def clockReleased (ps : List Peer) : Prop := ∀ p ∈ ps, p.scl = true

/-- The PEER does not move SDA between two MBB steps at both of which Clock is high: "sender changes Data only while Clock is low"
(R108). -/
def steadyWhileHigh (ps : List Peer) (recs : List TraceRec) : Prop :=
  ∀ i r r', recs[i]? = some r → recs[i + 1]? = some r' → r.scl = true → r'.scl = true → peerSda ps i = peerSda ps (i + 1)

/-- The number of uops of `SEND_SEQ` as its pseudocode has them (R122): 48 for the data bits and 10 for the acknowledgement clock.
DEDUCED, assumption 2. -/
def sendUops : Nat := 58

/-- Where in `SEND_SEQ` the acknowledgement is sampled. -/
def ackSampleAt : Nat := 54

/-- The acknowledgement of the `j`-th byte of a transaction (0: the address byte): START's 8 uops, then one `SEND_SEQ` a byte. -/
def ackOf (ps : List Peer) (j : Nat) : Bool := peerSda ps (8 + sendUops * j + ackSampleAt)

/-- The byte whose bits the PEER gives to a `RECV_SEQ` that starts at the `at_`-th MBB step: one sample every 5 uops (R125). -/
def peerByte (ps : List Peer) (at_ : Nat) : Byte :=
  assemble [peerSda ps (at_ + 5), peerSda ps (at_ + 10), peerSda ps (at_ + 15), peerSda ps (at_ + 20), peerSda ps (at_ + 25),
    peerSda ps (at_ + 30), peerSda ps (at_ + 35), peerSda ps (at_ + 40)]

/-- The `k`-th data byte of an `RDTX`: after START and the address byte, one `RECV_SEQ` (44 uops) and one `RESP_SEQ` (7) a byte. -/
def peerData (ps : List Peer) (k : Nat) : Byte := peerByte ps (8 + sendUops + 51 * k)

/-- The PEER releases SDA at the data edges of a transaction's bytes 0 to `n` (0: the address byte): the rising Clock edges of R122's
loop. -/
def dataReleased (ps : List Peer) (n : Nat) : Prop :=
  ∀ j i, j ≤ n → i < 8 → peerSda ps (8 + sendUops * j + 6 * i + 4) = true

/-- STATUS after a command that wrote none but its BUSY and DONE bits (R30). -/
def completed (status : Byte) : Byte := putBit bitBUSY false (putBit bitDONE true status)

/-! ### What claims say of a command -/

/-- R92: `t` is `s` with a single command accepted: its operands latched, MPC at its first uop, BUSY set, DONE cleared, and every other
status bit and all else unchanged. -/
def AcceptedAs (s t : State) (op len : Nibble) (data : Byte) (program : List Micro) : Prop :=
  t = { s with master := { s.master with
    lop := op, llen := len, ldata := data, mpc := program, status := t.master.status } } ∧
  t.master.busy = true ∧ t.master.done = false ∧
  ∀ j, 2 ≤ j → t.master.status.getLsbD j = s.master.status.getLsbD j

/-- R92 for a transaction: AF, DF, K and XCNT are cleared besides. -/
def TransactionAcceptedAs (s t : State) (op len : Nibble) (data : Byte) (program : List Micro) : Prop :=
  t = { s with master := { s.master with
    lop := op, llen := len, ldata := data, mpc := program, k := 0, xcnt := 0x00, status := t.master.status } } ∧
  t.master.busy = true ∧ t.master.done = false ∧ t.master.af = false ∧ t.master.df = false ∧
  ∀ j, j = 2 ∨ 5 ≤ j → t.master.status.getLsbD j = s.master.status.getLsbD j

/-- The command `i` presented in `s` is executed, and `n` MBB steps later, whatever the PEER drives before each of them as long as it
drives as `when_` says, the run stands where `result` says: `result` is given the PEER's drives, the master side then, and the `n`
records its steps appended to the TRACE. Outside the master side nothing changes but the PEER's drive and the script. -/
def Completes (i : Instr) (n : Nat) (s : State) (when_ : List Peer → Prop)
    (result : List Peer → Master → List TraceRec → Prop) : Prop :=
  ∃ t, exec i s = .next t ∧
    ∀ ps : List Peer, ps.length = n → when_ ps →
      ∃ u recs, runScript (busScript ps) t = .next u ∧
        u = { s with master := u.master, peer := u.peer, inputs := [] } ∧
        u.master.trace = s.master.trace ++ recs ∧ recs.length = n ∧ result ps u.master recs

/-- What every finished transaction `op` leaves: the MBB idle with DONE, the bus released, the operands latched, the send sequence's and
the count's registers as R122 and R41 say, and what a transaction does not write as it was. -/
def TransactionEnded (s m : Master) (op len : Nibble) (data : Byte) : Prop :=
  m.mpc = [] ∧ m.busy = false ∧ m.done = true ∧ m.sclOut = true ∧ m.sdaOut = true ∧ m.sdaDir = .out ∧
  m.lop = op ∧ m.llen = len ∧ m.ldata = data ∧ m.sh = 0x00 ∧ m.bitn = 8 ∧ m.ackb = m.nack ∧ m.xcnt = BitVec.ofNat 8 m.k ∧
  m.status.getLsbD 7 = s.status.getLsbD 7 ∧ m.ill = s.ill ∧ m.ovr = s.ovr ∧ m.txbuf = s.txbuf ∧ m.cmdl = s.cmdl ∧ m.cmdh = s.cmdh

/-- The byte a `WRTX` sends as its `j`-th: the address byte, then the buffer's entries. -/
def wrtxByte (addr : DeviceAddr) (txbuf : Memory) : Nat → Byte
  | 0 => addr ++ BitVec.ofBool false
  | j + 1 => (txbuf.read j).getD 0x00

/-- The SDA levels at the rising Clock edges of a `WRTX` that sends its bytes 0 to `n`: with Clock low at its start the edge of the
repeated start (R131), then each byte's eight and its acknowledgement clock (R141), and the edge of STOP, Data low (R119). -/
def wrtxEdges (clock : Bool) (addr : DeviceAddr) (txbuf : Memory) (n : Nat) (ps : List Peer) : List Bool :=
  (if clock then [] else [peerSda ps 2]) ++
    (List.range (n + 1)).flatMap (fun j => wireBits (wrtxByte addr txbuf j) ++ [peerSda ps (8 + sendUops * j + 52)]) ++ [false]

/-- Exactly one START and one STOP condition in the records of a transaction, if the PEER never pulls SCL, releases SDA at the step before
START's `SDA(0)` and at STOP's `SDA(1)`, and does not move SDA while Clock is high. -/
def oneStartOneStop (ps : List Peer) (recs : List TraceRec) : Prop :=
  clockReleased ps → peerSda ps 3 = true → peerSda ps (recs.length - 1) = true → steadyWhileHigh ps recs →
    countPairs isStartCond recs = 1 ∧ countPairs isStopCond recs = 1

/-- No premise on the PEER. -/
def anyPeer : List Peer → Prop := fun _ => True

/-- The PEER releases both lines throughout. -/
def peerReleased (ps : List Peer) : Prop := ∀ p ∈ ps, p = Peer.released

/-- R154: `new` is `old` with STA cleared if it is set in the event, STO likewise, and every other bit kept. -/
def latchesCleared (sto sta : Bool) (old new : Byte) : Prop :=
  ∀ j, new.getLsbD j = (old.getLsbD j && !(sta && j == 0) && !(sto && j == 1))

/-- R146: the PERIPH may raise an event: HOLD = 0 and EVT_PEND = 0; and with NAM = 1 only as the first event of a transaction (with a
START condition new with it, or before any other event of the transaction), and with `RD` bit 0 of the address byte that matched
`SLV_ADDR`, the byte it loads if it loads one. DESIGN CHOICE, assumption 12. -/
def MayRaise (sl : Slave) (sta nam rd : Bool) (rx : Option Byte) : Prop :=
  sl.hold = false ∧ sl.evtPend = false ∧
    (nam = true → (sta = true ∨ sl.eventSeen = false) ∧ (rx = none ∨ rx = some (Config.slvAddr ++ BitVec.ofBool rd)))

/-- Two states agree on the master side: the registers, the PEER's drive, the draws taken there, the latest answer to the HOST. -/
def MasterSideAgrees (s s' : State) : Prop :=
  s.params = s'.params ∧ s.master = s'.master ∧ s.peer = s'.peer ∧ s.hostDraws = s'.hostDraws ∧
    s.answers.hostRead = s'.answers.hostRead

/-- Two states agree on the slave side: its registers, the draws taken there, the latest task result and byte transmitted. -/
def SlaveSideAgrees (s s' : State) : Prop :=
  s.params = s'.params ∧ s.slave = s'.slave ∧ s.slaveDraws = s'.slaveDraws ∧ s.answers.task = s'.answers.task ∧
    s.answers.transmitted = s'.answers.transmitted

/-- Two outcomes agree: the same fault, the same refusal, or next states that agree. -/
def OutcomesAgree (agree : State → State → Prop) : Host.Outcome State Fault Refusal → Host.Outcome State Fault Refusal → Prop
  | .next t, .next t' => agree t t'
  | .fault f, .fault f' => f = f'
  | .refused r, .refused r' => r = r'
  | _, _ => False

/-- The agents of the master side and its reset (R20). -/
def isMasterStep : AgentStep → Bool
  | .hostRead _ => true
  | .hostWrite _ _ => true
  | .mbb => true
  | .peerDrive _ _ => true
  | .masterReset => true
  | .periphRaise _ _ _ _ _ _ => false
  | .periphTransmit => false
  | .sed => false
  | .taskReceive _ => false
  | .taskSend _ _ => false
  | .taskTake _ => false
  | .taskMask _ => false
  | .slaveReset => false

/-- Whether an instruction is an MBB command (R84) and not an event class (R90). -/
def isCommand (i : Instr) : Bool :=
  match encode i with
  | .command _ => true
  | .event _ => false

/-! ### What the rest of a program does if no NACK aborts it -/

/-- The parts of the datapath that a program's bounds are about. -/
structure Walk where
  k : Nat
  bitn : Nat
  dir : Dir
  /-- STATUS.NACK shows ACKB. -/
  reported : Bool
  /-- Every buffer index and bit count met so far was in range, and every acknowledgement sampled was reported in its step. -/
  ok : Bool
  deriving DecidableEq, Repr

/-- One piece of control, where `BUF_CAP` is `cap`. -/
def Control.walk (cap : Nat) (w : Walk) : Control → Walk
  | .loadShTx => { w with ok := w.ok && decide (w.k < cap) }
  | .clearBitn => { w with bitn := 0 }
  | .countBit => { w with bitn := w.bitn + 1, ok := w.ok && decide (w.bitn < 8) }
  | .storeRxbuf => { w with ok := w.ok && decide (w.k < cap) }
  | .countByte => { w with k := w.k + 1 }
  | .reportAck => { w with reported := true }
  | .abortIfNack _ => { w with ok := w.ok && w.reported }
  | .loadShData => w
  | .loadShAddr _ => w
  | .shiftSh => w
  | .clearRb => w
  | .shiftRbUnlessLast => w
  | .storeRxdata => w

/-- One uop. -/
def ProgUop.walk (w : Walk) : ProgUop → Walk
  | .sdaOe d => { w with dir := d }
  | .sample .ackb => { w with reported := false }
  | .sample .rb => w
  | .scl _ => w
  | .sda _ => w
  | .wait _ => w

/-- One line. -/
def Micro.walk (cap : Nat) (w : Walk) (u : Micro) : Walk :=
  let w' := u.post.foldl (Control.walk cap) (ProgUop.walk (u.pre.foldl (Control.walk cap) w) u.uop)
  { w' with ok := w'.ok && w'.reported }

/-- A program. -/
def walkProgram (cap : Nat) (w : Walk) (p : List Micro) : Walk := p.foldl (Micro.walk cap) w

/-- The rest of the running program keeps every index and count in range and ends with Data an output. -/
def Master.programFits (cap : Nat) (m : Master) : Prop :=
  let e := walkProgram cap ⟨m.k, m.bitn, m.sdaDir, true, true⟩ m.mpc
  e.ok = true ∧ e.k ≤ cap ∧ e.dir = .out

/-! ### The invariant -/

/-- The invariant of the master side, where `BUF_CAP` is `cap`. -/
structure Master.Inv (cap : Nat) (m : Master) : Prop where
  /-- R28: bit 7 of STATUS is 0. -/
  reserved : m.status.getLsbD 7 = false
  /-- R29: BUSY is 1 exactly while MPC is not IDLE. -/
  busyIff : m.busy = true ↔ m.mpc ≠ []
  /-- R31: STATUS.NACK holds the value of ACKB. -/
  nackIsAckb : m.nack = m.ackb
  /-- R41: XCNT equals K. -/
  xcntIsK : m.xcnt = BitVec.ofNat 8 m.k
  /-- R25, R88: K counts the bytes of a transfer buffer. -/
  kInRange : m.k ≤ cap
  /-- R25: BITN is 0..8. -/
  bitnInRange : m.bitn ≤ 8
  /-- R109: between commands Data is an output. -/
  idleOut : m.mpc = [] → m.sdaDir = .out
  /-- R26: MPC names a place in a command's sequence from which all of the above goes on to hold. -/
  fits : m.programFits cap
  /-- R43: TXBUF is in canonical form and within its entries. -/
  txbufWf : m.txbuf.wf = true
  txbufFits : m.txbuf.fits cap = true
  /-- R44: RXBUF is in canonical form and within its entries. -/
  rxbufWf : m.rxbuf.wf = true
  rxbufFits : m.rxbuf.fits cap = true

/-- The invariant of the slave side, where `BUF_CAP` is `cap`. -/
structure Slave.Inv (cap : Nat) (sl : Slave) : Prop where
  /-- R49: the cursors are 0..BUF_CAP-1. -/
  rxcurInRange : sl.rxcur < cap
  txcurInRange : sl.txcur < cap
  /-- R50: SRXBUF is in canonical form and within its entries. -/
  srxbufWf : sl.srxbuf.wf = true
  srxbufFits : sl.srxbuf.fits cap = true
  /-- R147: bits 7:5 of the event vector are 0. -/
  vectorTop : sl.flags.extractLsb' 5 3 = 0
  /-- R146, R152, R201: HOLD and EVT_PEND rise and fall together. -/
  holdIsPend : sl.hold = sl.evtPend
  /-- R149: an armed port holds a byte. -/
  armedHolds : sl.txArmed = true → sl.portTx ≠ none
  /-- R53: the queues hold at most QCAP bytes. -/
  inqBound : sl.inq.length ≤ Config.qCap
  outqBound : sl.outq.length ≤ Config.qCap

/-- The machine's invariant. -/
structure State.Inv (s : State) : Prop where
  master : s.master.Inv s.bufCap
  slave : s.slave.Inv s.bufCap

end Sys2Proof.Machine
end

