-- ==== Sys2Proof/Certificates/Slice0/Obligations.lean ====
section
/-! DEFINITION. The statements for the provers. Each docstring names the rules of spec/ it rests on. The runs are runs of given
interleavings (the model's convention, assumptions 6 and 7). Free values (`Config.drawHost`, `Config.drawPort`, `Config.drawWoken`,
`Config.freeStep`, the OPEN parameters) have no body: a statement that names one holds for every value of it. `BUF_CAP` is that of the
state, `s.bufCap`, any integer from 1 to 15 (R9). -/

open Sys2Proof Sys2Proof.Machine

/-! ### Encoding -/

/-- Decoding the encoding of a well-formed instruction gives it back, with every operand bit and every ignored bit, at every
`BUF_CAP` of R9 (R82 to R90). -/
def Obligations.DecodeOfEncodeIsTheInstruction : Prop :=
  ∀ (p : Params) (i : Instr), i.wellFormed p.bufCap = true → decode p.bufCap (encode i) = .ok i

/-- An object that decodes is the encoding of what it decodes to, which is well formed: no two words mean one instruction, at every
`BUF_CAP` of R9 (R82 to R90). -/
def Obligations.EncodeOfDecodeIsTheWord : Prop :=
  ∀ (p : Params) (c : Code) (i : Instr), decode p.bufCap c = .ok i → encode i = c ∧ i.wellFormed p.bufCap = true

/-- R93: exactly the words of (a) to (e) are illegal, at every `BUF_CAP` of R9; presented to an idle MBB, such a word sets ILL and changes
nothing else. -/
def Obligations.IllegalWordsAreThoseOfTheFiveClauses : Prop :=
  ∀ (w : CommandWord) (s : State),
    ((∃ e, decodeCommand s.bufCap w = .reject e) ↔
      ((opField w = 0x0 ∨ 0x9 ≤ (opField w).toNat) ∨
       ((opField w = 0x1 ∨ opField w = 0x2 ∨ opField w = 0x4) ∧ (lenField w ≠ 0 ∨ dataField w ≠ 0x00)) ∨
       ((opField w = 0x3 ∨ opField w = 0x8) ∧ lenField w ≠ 0) ∨
       (opField w = 0x5 ∧ (lenField w ≠ 0 ∨ (dataField w).extractLsb' 1 7 ≠ 0)) ∨
       ((opField w = 0x6 ∨ opField w = 0x7) ∧ s.bufCap < (lenField w).toNat))) ∧
    ((∃ e, decodeCommand s.bufCap w = .reject e) → s.master.busy = false →
      ∃ t, presentWord w s = .next t ∧
        t = { s with master := { s.master with status := t.master.status } } ∧ t.master.ill = true ∧
        ∀ j, j ≠ 5 → t.master.status.getLsbD j = s.master.status.getLsbD j)

/-- R90, R91: every vector meets exactly one row's condition, it decodes to that row's class with its latches read from bits 0 and 1,
and bits 7:5 do not change the class or the latches. -/
def Obligations.EveryEventVectorHasOneClass : Prop :=
  ∀ v : Byte,
    ((v &&& 0x0C = 0x0C) → ∃ g b, decodeEvent v = .evAddrRd g b (v.getLsbD 1) (v.getLsbD 0)) ∧
    ((v &&& 0x0C = 0x04) → ∃ g b, decodeEvent v = .evAddrWr g b (v.getLsbD 1) (v.getLsbD 0)) ∧
    ((v &&& 0x0C = 0x08) → ∃ g b, decodeEvent v = .evTx g b (v.getLsbD 1) (v.getLsbD 0)) ∧
    ((v &&& 0x1C = 0x10) → ∃ g, decodeEvent v = .evRx g (v.getLsbD 1) (v.getLsbD 0)) ∧
    ((v &&& 0x1C = 0x00) → ∃ g, decodeEvent v = .evEnd g (v.getLsbD 1) (v.getLsbD 0)) ∧
    ([decide (v &&& 0x0C = 0x0C), decide (v &&& 0x0C = 0x04), decide (v &&& 0x0C = 0x08), decide (v &&& 0x1C = 0x10),
      decide (v &&& 0x1C = 0x00)].count true = 1) ∧
    ∀ (top : BitVec 3) (s : State), exec (decodeEvent (top ++ v.extractLsb' 0 5)) s = exec (decodeEvent v) s

/-- Words written out from the patterns of R84 and R90 decode to the instructions they stand for, and three illegal ones are rejected.
`BUF_CAP` is 6, its default in R9: the value the model's default parameters have (assumption 1), at which a count of 6 is legal and one of
7 is not. -/
def Obligations.WrittenOutWordsDecode : Prop :=
  Params.default.bufCap = 6 ∧
  decodeCommand Params.default.bufCap 0b0001000000000000 = .ok .start ∧
  decodeCommand Params.default.bufCap 0b0010000000000000 = .ok .stop ∧
  decodeCommand Params.default.bufCap 0b0011000010100101 = .ok (.send 0xA5) ∧
  decodeCommand Params.default.bufCap 0b0100000000000000 = .ok .recv ∧
  decodeCommand Params.default.bufCap 0b0101000000000001 = .ok (.resp true) ∧
  decodeCommand Params.default.bufCap 0b0110011011000001 = .ok (.wrtx 6 0x60 true) ∧
  decodeCommand Params.default.bufCap 0b0111011011000000 = .ok (.rdtx 6 0x60 false) ∧
  decodeCommand Params.default.bufCap 0b1000000001100100 = .ok (.delay 100) ∧
  decodeEvent 0b00001101 = .evAddrRd 0 false false true ∧
  decodeEvent 0b00010100 = .evAddrWr 0 true false false ∧
  decodeEvent 0b00001010 = .evTx 0 false true false ∧
  decodeEvent 0b00010010 = .evRx 0 true false ∧
  decodeEvent 0b11100011 = .evEnd 7 true true ∧
  decodeCommand Params.default.bufCap 0x0000 = .reject .reservedOpcode ∧
  decodeCommand Params.default.bufCap 0x31FF = .reject .lengthNotZero ∧
  decodeCommand Params.default.bufCap 0x67C0 = .reject .countOverCapacity

/-! ### A step runs the decoded instruction -/

/-- A `CMDH` write stores its byte and runs the instruction that `{v, CMDL}` decodes to (R39, R92, R205). A pending, unmasked event runs
the class of the flag vector (R145, R147). Which agent moves is the soonest of `State.inputs`, and the step consumes that input (the
model's convention, assumption 6). -/
def Obligations.StepRunsTheDecodedInstruction : Prop :=
  (∀ (s : State) (v : Byte) (rest : List AgentStep) (i : Instr), s.inputs = .hostWrite 0x01 v :: rest →
    decodeCommand s.bufCap (v ++ s.master.cmdl) = .ok i →
    step s = exec i { s with inputs := rest, master := { s.master with cmdh := v } }) ∧
  (∀ (s : State) (rest : List AgentStep), s.inputs = .sed :: rest → s.slave.evtPend = true → s.slave.imask = false →
    step s = exec (decodeEvent s.slave.flags) { s with inputs := rest })

/-- A word placed for the next step is the one that runs: a legal command word in CMDL and the host's CMDH write, an event vector
raised and unmasked (the model's convention, assumption 6). -/
def Obligations.PlacedWordRunsNext : Prop :=
  (∀ (s : State) (w : CommandWord) (i : Instr), decodeCommand s.bufCap w = .ok i →
    ∃ t, step (s.withFetchWord 16 w.toNat) = exec i t ∧
      t = { s with master := { s.master with cmdl := dataField w, cmdh := opField w ++ lenField w } }) ∧
  (∀ (s : State) (v : Byte),
    ∃ t, step (s.withFetchWord 8 v.toNat) = exec (decodeEvent v) t ∧
      t = { s with slave := { s.slave with flags := v, evtPend := true, hold := true, imask := false } })

/-! ### Acceptance and rejection -/

/-- R92: presented while idle, each single command is accepted, and acceptance itself moves no pin and touches no datapath register. -/
def Obligations.SingleCommandsAreAcceptedWhenIdle : Prop :=
  ∀ s : State, s.master.busy = false →
    (∃ t, exec .start s = .next t ∧ AcceptedAs s t 0x1 0 0x00 startSeq) ∧
    (∃ t, exec .stop s = .next t ∧ AcceptedAs s t 0x2 0 0x00 stopSeq) ∧
    (∀ b, ∃ t, exec (.send b) s = .next t ∧ AcceptedAs s t 0x3 0 b (sendSeq [] .loadShData)) ∧
    (∃ t, exec .recv s = .next t ∧ AcceptedAs s t 0x4 0 0x00 (recvSeq [] [.storeRxdata])) ∧
    (∀ n, ∃ t, exec (.resp n) s = .next t ∧ AcceptedAs s t 0x5 0 (if n then 0x01 else 0x00) (respSeq .ldata0)) ∧
    (∀ u, ∃ t, exec (.delay u) s = .next t ∧ AcceptedAs s t 0x8 0 u [{ uop := .wait .ldata }])

/-- R92: presented while idle, each transaction whose count fits is accepted; AF, DF, K and XCNT are cleared. -/
def Obligations.TransactionsAreAcceptedWhenIdle : Prop :=
  ∀ (s : State) (len : Nibble) (addr : DeviceAddr) (x : Bool), s.master.busy = false → len.toNat ≤ s.bufCap →
    (∃ t, exec (.wrtx len addr x) s = .next t ∧
      TransactionAcceptedAs s t 0x6 len (addr ++ BitVec.ofBool x) (wrtxProgram len.toNat)) ∧
    (∃ t, exec (.rdtx len addr x) s = .next t ∧
      TransactionAcceptedAs s t 0x7 len (addr ++ BitVec.ofBool x) (rdtxProgram len.toNat))

/-- R176: an illegal word written while idle sets ILL; MPC, BUSY, DONE, the pins and the latches stay, and CMDH keeps the byte. -/
def Obligations.IllegalWriteSetsIllAlone : Prop :=
  ∀ (s : State) (v : Byte) (e : DecodeError), s.master.busy = false → decodeCommand s.bufCap (v ++ s.master.cmdl) = .reject e →
    ∃ t, hostWrite 0x01 v s = .next t ∧
      t = { s with master := { s.master with cmdh := v, status := t.master.status } } ∧
      ∀ j, t.master.status.getLsbD j = (j == 5 || s.master.status.getLsbD j)

/-- R177, R182: any word written while BUSY, legal or not, sets OVR and not ILL; the running command is unaffected and the word is not
kept anywhere but in CMDH and CMDL. -/
def Obligations.WriteWhileBusySetsOvrAlone : Prop :=
  ∀ (s : State) (v : Byte), s.master.busy = true →
    ∃ t, hostWrite 0x01 v s = .next t ∧
      t = { s with master := { s.master with cmdh := v, status := t.master.status } } ∧
      ∀ j, t.master.status.getLsbD j = (j == 6 || s.master.status.getLsbD j)

/-! ### Uops and lines -/

/-- R101, R103, R104, R106, R107, R48, R122, R31, R125: a uop that is not its command's last changes what its rule says, MPC and the
TRACE, and nothing else: SCL, SDA, SDA_OE and WAIT with no control beside them, SAMPLE with the control of its line in R122 (into ACKB and
NACK) and in R125 (into bit 0 of RB by OR; then RB is shifted unless it was the last bit, and BITN counts; that R125's loop index is read
from BITN: assumption 16). The record it appends shows the pins after it and the line levels. -/
def Obligations.UopsChangeWhatTheirRulesSay : Prop :=
  ∀ (m : Master) (p : Peer) (next : Micro) (rest : List Micro),
    (∀ v, m.mpc = { uop := .scl v } :: next :: rest → ∃ t, m.step p = .ok t ∧
      t = { m with sclOut := v, mpc := next :: rest, trace := m.trace ++
        [⟨.scl v, v, m.sdaOut, m.sdaDir, v && p.scl, sdaLevel m p⟩] }) ∧
    (∀ src, m.mpc = { uop := .sda src } :: next :: rest → ∃ t, m.step p = .ok t ∧
      t = { m with sdaOut := src.level m, mpc := next :: rest, trace := m.trace ++
        [⟨.sda (src.level m), m.sclOut, src.level m, m.sdaDir, sclLevel m p, (m.sdaDir == .inp || src.level m) && p.sda⟩] }) ∧
    (∀ d, m.mpc = { uop := .sdaOe d } :: next :: rest → ∃ t, m.step p = .ok t ∧
      t = { m with sdaDir := d, mpc := next :: rest, trace := m.trace ++
        [⟨.sdaOe d, m.sclOut, m.sdaOut, d, sclLevel m p, (d == .inp || m.sdaOut) && p.sda⟩] }) ∧
    (∀ src, m.mpc = { uop := .wait src } :: next :: rest → ∃ t, m.step p = .ok t ∧
      t = { m with mpc := next :: rest, trace := m.trace ++
        [⟨.wait (src.units m), m.sclOut, m.sdaOut, m.sdaDir, sclLevel m p, sdaLevel m p⟩] }) ∧
    (m.mpc = { uop := .sample .ackb, post := [.reportAck] } :: next :: rest → ∃ t, m.step p = .ok t ∧
      t = { m with ackb := sdaLevel m p, status := t.status, mpc := next :: rest, trace := m.trace ++
        [⟨.sample, m.sclOut, m.sdaOut, m.sdaDir, sclLevel m p, sdaLevel m p⟩] } ∧
      t.nack = sdaLevel m p ∧ ∀ j, j ≠ 2 → t.status.getLsbD j = m.status.getLsbD j) ∧
    (m.mpc = { uop := .sample .rb, post := [.shiftRbUnlessLast, .countBit] } :: next :: rest → ∃ t or_, m.step p = .ok t ∧
      or_ = m.rb ||| (if sdaLevel m p then 0x01 else 0x00) ∧
      t = { m with
        rb := if m.bitn < 7 then or_ <<< 1 else or_
        bitn := m.bitn + 1, mpc := next :: rest, trace := m.trace ++
          [⟨.sample, m.sclOut, m.sdaOut, m.sdaDir, sclLevel m p, sdaLevel m p⟩] })

/-- R42, R102: PINS shows the pins and the wired levels, bits 7:5 zero; a host write to it is ignored. -/
def Obligations.PinsShowPinsAndLevels : Prop :=
  ∀ s : State, ∃ v, hostRead 0x05 s = .next { s with answers := { s.answers with hostRead := some v } } ∧
    v.getLsbD 0 = s.master.sclOut ∧ v.getLsbD 1 = s.master.sdaOut ∧ v.getLsbD 2 = (s.master.sdaDir == .out) ∧
    v.getLsbD 3 = (s.master.sclOut && s.peer.scl) ∧
    v.getLsbD 4 = ((s.master.sdaDir == .inp || s.master.sdaOut) && s.peer.sda) ∧ v.extractLsb' 5 3 = 0 ∧
    ∀ w, hostWrite 0x05 w s = .next s

/-! ### Single commands, run to their end -/

/-- R118: START runs 8 uops and 3 ordinary delays and leaves both lines driven low; it writes no status bit but BUSY and DONE. -/
def Obligations.StartRunsToBothLinesLow : Prop :=
  ∀ s : State, s.master.busy = false →
    Completes .start 8 s anyPeer fun _ m recs =>
      m = { s.master with
        mpc := [], lop := 0x1, llen := 0, ldata := 0x00, status := completed s.master.status,
        sclOut := false, sdaOut := false, sdaDir := .out, trace := m.trace } ∧
      traceUnits recs = 3 * Config.nBit

/-- R118, R131: with the PEER released, and from any pin state a command leaves, START makes exactly one START condition and no STOP
condition; begun with Clock low it is a repeated start, with one rising Clock edge and Data high there. -/
def Obligations.StartMakesOneStartCondition : Prop :=
  ∀ s : State, s.master.busy = false → (s.master.sclOut = false ∨ s.master.sdaOut = true) →
    Completes .start 8 s peerReleased fun _ _ recs =>
      countPairs isStartCond recs = 1 ∧ countPairs isStopCond recs = 0 ∧
      risingData recs = if s.master.sclOut then [] else [true]

/-- R119, R120: from any pin state STOP runs 7 uops and 2 ordinary delays and ends with both lines driven high. -/
def Obligations.StopRunsToBothLinesHigh : Prop :=
  ∀ s : State, s.master.busy = false →
    Completes .stop 7 s anyPeer fun _ m recs =>
      m = { s.master with
        mpc := [], lop := 0x2, llen := 0, ldata := 0x00, status := completed s.master.status,
        sclOut := true, sdaOut := true, sdaDir := .out, trace := m.trace } ∧
      traceUnits recs = 2 * Config.nBit

/-- R119: with the PEER released, STOP makes exactly one STOP condition, no START condition and one rising Clock edge with Data low. -/
def Obligations.StopMakesOneStopCondition : Prop :=
  ∀ s : State, s.master.busy = false →
    Completes .stop 7 s peerReleased fun _ _ recs =>
      countPairs isStopCond recs = 1 ∧ countPairs isStartCond recs = 0 ∧ risingData recs = [false]

/-- R121, R122, R123, R31: SEND ends with NACK = ACKB = the level the PEER gives at the acknowledgement sample, SH = 0, BITN = 8 and
both lines driven low. The number of uops is the model's count of the pseudocode's lines (assumption 2). -/
def Obligations.SendRunsToItsAcknowledgement : Prop :=
  ∀ (b : Byte) (s : State), s.master.busy = false →
    Completes (.send b) sendUops s anyPeer fun ps m recs =>
      m = { s.master with
        mpc := [], lop := 0x3, llen := 0, ldata := b, sh := 0x00, bitn := 8, ackb := peerSda ps ackSampleAt,
        status := completed (putBit bitNACK (peerSda ps ackSampleAt) s.master.status),
        sclOut := false, sdaOut := false, sdaDir := .out, trace := m.trace } ∧
      traceUnits recs = 26 * Config.nBit + Config.nAck

/-- R132, R59: with the PEER releasing SCL, and Data at the eight data edges, the SDA levels at the rising Clock edges of SEND are the
byte's bits, bit 7 first, and then what the PEER gives at the ninth (uop count: assumption 2). Data is an output when the command
begins, as it is between commands (R109). -/
def Obligations.SendPutsTheByteOnTheWire : Prop :=
  ∀ (b : Byte) (s : State), s.master.busy = false → s.master.sdaDir = .out →
    Completes (.send b) sendUops s
      (fun ps => clockReleased ps ∧ ∀ i, i < 8 → peerSda ps (6 * i + 4) = true)
      fun ps _ recs => risingData recs = wireBits b ++ [peerSda ps 52]

/-- R124, R125, R126: RECV assembles the PEER's eight samples, the first into bit 7, and leaves the byte in RXDATA. -/
def Obligations.RecvAssemblesTheSamples : Prop :=
  ∀ s : State, s.master.busy = false →
    Completes .recv 44 s anyPeer fun ps m recs =>
      m = { s.master with
        mpc := [], lop := 0x4, llen := 0, ldata := 0x00, rb := peerByte ps 0, rxdata := peerByte ps 0, bitn := 8,
        status := completed s.master.status, sclOut := false, sdaOut := false, sdaDir := .out, trace := m.trace } ∧
      (∀ j, j < 8 → m.rxdata.getLsbD (7 - j) = peerSda ps (5 * j + 5)) ∧
      traceUnits recs = 16 * Config.nBit

/-- R127, R128: RESP ends with Data driven to its bit and Clock low; with the PEER released, its one rising Clock edge has Data at that
bit. Data is an output when the command begins, as it is between commands (R109). -/
def Obligations.RespClocksItsBit : Prop :=
  ∀ (n : Bool) (s : State), s.master.busy = false → s.master.sdaDir = .out →
    Completes (.resp n) 7 s anyPeer fun ps m recs =>
      m = { s.master with
        mpc := [], lop := 0x5, llen := 0, ldata := (if n then 0x01 else 0x00), status := completed s.master.status,
        sclOut := false, sdaOut := n, sdaDir := .out, trace := m.trace } ∧
      traceUnits recs = 2 * Config.nRsp ∧ (peerReleased ps → risingData recs = [n])

/-- R110: DELAY is one WAIT of its operand and changes no pin and no status bit but BUSY and DONE. -/
def Obligations.DelayWaitsItsOperand : Prop :=
  ∀ (u : Byte) (s : State), s.master.busy = false →
    Completes (.delay u) 1 s anyPeer fun ps m recs =>
      m = { s.master with
        mpc := [], lop := 0x8, llen := 0, ldata := u, status := completed s.master.status, trace := m.trace } ∧
      recs = [⟨.wait u.toNat, s.master.sclOut, s.master.sdaOut, s.master.sdaDir,
        sclLevel s.master (ps.getD 0 Peer.released), sdaLevel s.master (ps.getD 0 Peer.released)⟩]

/-! ### Transactions, run to their end -/

/-- R133, R135, R136, R140, R143: the three outcomes of WRTX, whatever the PEER drives: address not acknowledged; data byte `j` the first not
acknowledged; every byte acknowledged; with the delay units of R143 for each (uop counts: assumption 2). -/
def Obligations.WrtxOutcomes : Prop :=
  ∀ (len : Nibble) (addr : DeviceAddr) (x : Bool) (s : State), s.master.busy = false → len.toNat ≤ s.bufCap →
    Completes (.wrtx len addr x) (8 + sendUops + 7) s (fun ps => ackOf ps 0 = true) (fun _ m recs =>
      TransactionEnded s.master m 0x6 len (addr ++ BitVec.ofBool x) ∧ m.af = true ∧ m.df = false ∧ m.nack = true ∧ m.k = 0 ∧
      m.rxbuf = s.master.rxbuf ∧ m.rxdata = s.master.rxdata ∧ m.rb = s.master.rb ∧
      traceUnits recs = 3 * Config.nBit + (1 + 0) * (26 * Config.nBit + Config.nAck) + 2 * Config.nBit) ∧
    (∀ j, j < len.toNat → (∀ i, i ≤ j → s.master.txbuf.read i ≠ none) →
      Completes (.wrtx len addr x) (8 + sendUops * (j + 2) + 7) s
        (fun ps => (∀ i, i ≤ j → ackOf ps i = false) ∧ ackOf ps (j + 1) = true) (fun _ m recs =>
        TransactionEnded s.master m 0x6 len (addr ++ BitVec.ofBool x) ∧ m.af = false ∧ m.df = true ∧ m.nack = true ∧ m.k = j ∧
        m.rxbuf = s.master.rxbuf ∧ m.rxdata = s.master.rxdata ∧ m.rb = s.master.rb ∧
        traceUnits recs = 3 * Config.nBit + (1 + (j + 1)) * (26 * Config.nBit + Config.nAck) + 2 * Config.nBit)) ∧
    ((∀ i, i < len.toNat → s.master.txbuf.read i ≠ none) →
      Completes (.wrtx len addr x) (8 + sendUops * (len.toNat + 1) + 7) s
        (fun ps => ∀ i, i ≤ len.toNat → ackOf ps i = false) (fun _ m recs =>
        TransactionEnded s.master m 0x6 len (addr ++ BitVec.ofBool x) ∧ m.af = false ∧ m.df = false ∧ m.nack = false ∧ m.k = len.toNat ∧
        m.rxbuf = s.master.rxbuf ∧ m.rxdata = s.master.rxdata ∧ m.rb = s.master.rb ∧
        traceUnits recs = 3 * Config.nBit + (1 + len.toNat) * (26 * Config.nBit + Config.nAck) + 2 * Config.nBit))

/-- R141, R131, R135, R59: with the PEER releasing SCL, and Data at every data edge, a WRTX puts on the rising Clock edges the address
byte with the write bit and the buffer's bytes in index order, each bit 7 first and followed by one acknowledgement clock, up to and
including the first byte not acknowledged (byte 0 is the address byte), and last the one edge of STOP with Data low; begun with Clock low,
one edge of the repeated start comes first (uop counts: assumption 2). -/
def Obligations.WrtxPutsItsBytesOnTheWire : Prop :=
  ∀ (len : Nibble) (addr : DeviceAddr) (x : Bool) (s : State), s.master.busy = false → len.toNat ≤ s.bufCap →
    ((∀ i, i < len.toNat → s.master.txbuf.read i ≠ none) →
      Completes (.wrtx len addr x) (8 + sendUops * (len.toNat + 1) + 7) s
        (fun ps => clockReleased ps ∧ (∀ j, j ≤ len.toNat → ackOf ps j = false) ∧ dataReleased ps len.toNat)
        (fun ps _ recs =>
          risingData recs = wrtxEdges s.master.sclOut addr s.master.txbuf len.toNat ps)) ∧
    (∀ j, j ≤ len.toNat → (∀ i, i < j → s.master.txbuf.read i ≠ none) →
      Completes (.wrtx len addr x) (8 + sendUops * (j + 1) + 7) s
        (fun ps => clockReleased ps ∧ (∀ i, i < j → ackOf ps i = false) ∧ ackOf ps j = true ∧ dataReleased ps j)
        (fun ps _ recs =>
          risingData recs = wrtxEdges s.master.sclOut addr s.master.txbuf j ps))

/-- R43, R134, R178: a `WRTX` whose bytes up to entry `j` are acknowledged runs up to the step in which it would send that entry, and in
that step stops with the fault UNINIT if the entry holds no value (that the machine stops there: assumption 20; uop counts: assumption
2). -/
def Obligations.WrtxOfAnUnwrittenEntryFaults : Prop :=
  ∀ (len : Nibble) (addr : DeviceAddr) (x : Bool) (j : Nat) (s : State), s.master.busy = false →
    len.toNat ≤ s.bufCap → j < len.toNat → (∀ i, i < j → s.master.txbuf.read i ≠ none) → s.master.txbuf.read j = none →
    ∃ t, exec (.wrtx len addr x) s = .next t ∧
      (∀ ps : List Peer, ps.length = 8 + sendUops * (j + 1) → (∀ i, i ≤ j → ackOf ps i = false) →
        ∃ u, runScript (busScript ps) t = .next u ∧ u.master.busy = true) ∧
      ∀ ps : List Peer, ps.length = 8 + sendUops * (j + 1) + 1 → (∀ i, i ≤ j → ackOf ps i = false) →
        runScript (busScript ps) t = .fault (.uninit .txbuf j)

/-- R134, R70, R207: a host write to the entry about to be sent (`TXBUF[K]` after the address byte, `TXBUF[K+1]` after a data byte),
made before the first uop of its send sequence, is what is sent; the other entries are untouched. -/
def Obligations.WriteBeforeTheSendStepIsSent : Prop :=
  ∀ (s : State) (v : Byte) (rest : List Micro) (j : Nat), j < s.bufCap → s.master.ackb = false →
    (s.master.mpc = sendSeq [.abortIfNack .af] .loadShTx ++ rest ∧ j = s.master.k) ∨
      (s.master.mpc = sendSeq [.abortIfNack .df, .countByte] .loadShTx ++ rest ∧ j = s.master.k + 1) →
    ∃ t u, hostWrite (BitVec.ofNat 8 (0x10 + j)) v s = .next t ∧ mbbStep t = .next u ∧
      u.master.sh = v ∧ u.master.k = j ∧ u.master.txbuf = t.master.txbuf ∧ t.master.txbuf.read j = some v ∧
      ∀ i, i ≠ j → t.master.txbuf.read i = s.master.txbuf.read i

/-- R134, R70, R207: the entry's byte is taken by the first uop of its send sequence; a host write to the entry made after that step, at
any place in the send sequence and whatever the PEER drives, is not what is sent: up to the end of the send sequence the run with the
write and the run without it differ in TXBUF alone (uop counts: assumption 2). -/
def Obligations.WriteAfterTheSendStepIsNotSent : Prop :=
  ∀ (s : State) (v v0 : Byte) (rest : List Micro) (j : Nat), j < s.bufCap → s.master.ackb = false →
    (s.master.mpc = sendSeq [.abortIfNack .af] .loadShTx ++ rest ∧ j = s.master.k) ∨
      (s.master.mpc = sendSeq [.abortIfNack .df, .countByte] .loadShTx ++ rest ∧ j = s.master.k + 1) →
    s.master.txbuf.read j = some v0 →
    ∃ u, mbbStep s = .next u ∧ u.master.sh = v0 ∧
      ∀ before after : List Peer, before.length + after.length < sendUops →
        ∃ x w a b, runScript (busScript before) u = .next x ∧
          hostWrite (BitVec.ofNat 8 (0x10 + j)) v x = .next w ∧ w.master.txbuf.read j = some v ∧
          runScript (busScript after) x = .next a ∧ runScript (busScript after) w = .next b ∧
          b = { a with master := { a.master with txbuf := w.master.txbuf } }

/-- R137, R138, R139, R140, R143: the two outcomes of RDTX, whatever the PEER drives: address not acknowledged, and nothing is received;
address acknowledged, and the PEER's bytes are in RXBUF in order, the last one in RXDATA; with the delay units of R143 for each (uop
counts: assumption 2). -/
def Obligations.RdtxOutcomes : Prop :=
  ∀ (len : Nibble) (addr : DeviceAddr) (x : Bool) (s : State), s.master.busy = false → len.toNat ≤ s.bufCap →
    Completes (.rdtx len addr x) (8 + sendUops + 7) s (fun ps => ackOf ps 0 = true) (fun _ m recs =>
      TransactionEnded s.master m 0x7 len (addr ++ BitVec.ofBool x) ∧ m.af = true ∧ m.df = false ∧ m.nack = true ∧ m.k = 0 ∧
      m.rxbuf = s.master.rxbuf ∧ m.rxdata = s.master.rxdata ∧ m.rb = s.master.rb ∧
      traceUnits recs = 3 * Config.nBit + (26 * Config.nBit + Config.nAck) + 2 * Config.nBit) ∧
    Completes (.rdtx len addr x) (8 + sendUops + 51 * len.toNat + 7) s (fun ps => ackOf ps 0 = false) (fun ps m recs =>
      TransactionEnded s.master m 0x7 len (addr ++ BitVec.ofBool x) ∧ m.af = false ∧ m.df = false ∧ m.nack = false ∧ m.k = len.toNat ∧
      (∀ k, k < len.toNat → m.rxbuf.read k = some (peerData ps k)) ∧
      (∀ k, len.toNat ≤ k → m.rxbuf.read k = s.master.rxbuf.read k) ∧
      m.rxdata = (if len.toNat = 0 then s.master.rxdata else peerData ps (len.toNat - 1)) ∧
      m.rb = (if len.toNat = 0 then s.master.rb else peerData ps (len.toNat - 1)) ∧
      traceUnits recs = 3 * Config.nBit + (26 * Config.nBit + Config.nAck) +
        len.toNat * (16 * Config.nBit + 2 * Config.nRsp) + 2 * Config.nBit)

/-- R142, R137, R131, R135, R59: with the PEER releasing SCL, and Data at the data edges of the address byte, an RDTX puts on the rising
Clock edges the address byte with the read bit and its acknowledgement clock; then, if the address is acknowledged, for each byte eight
edges at which the PEER drives Data and one with the master's answer, Data low after all but the last byte and released by the master
after the last; and last the edge of STOP with Data low; begun with Clock low, one edge of the repeated start comes first (uop counts:
assumption 2). -/
def Obligations.RdtxAnswersItsBytesOnTheWire : Prop :=
  ∀ (len : Nibble) (addr : DeviceAddr) (x : Bool) (s : State), s.master.busy = false → len.toNat ≤ s.bufCap →
    Completes (.rdtx len addr x) (8 + sendUops + 7) s
      (fun ps => clockReleased ps ∧ ackOf ps 0 = true ∧ dataReleased ps 0)
      (fun ps _ recs =>
        risingData recs = (if s.master.sclOut then [] else [peerSda ps 2]) ++
          wireBits (addr ++ BitVec.ofBool true) ++ [peerSda ps (8 + 52)] ++ [false]) ∧
    Completes (.rdtx len addr x) (8 + sendUops + 51 * len.toNat + 7) s
      (fun ps => clockReleased ps ∧ ackOf ps 0 = false ∧ dataReleased ps 0)
      (fun ps _ recs =>
        risingData recs = (if s.master.sclOut then [] else [peerSda ps 2]) ++
          wireBits (addr ++ BitVec.ofBool true) ++ [peerSda ps (8 + 52)] ++
          (List.range len.toNat).flatMap (fun k =>
            (List.range 8).map (fun i => peerSda ps (8 + sendUops + 51 * k + 5 * i + 3)) ++
              [decide (k + 1 = len.toNat) && peerSda ps (8 + sendUops + 51 * k + 48)]) ++ [false])

/-- R135, R141, R142, R108: however it ends, a transaction begun from a pin state a command leaves makes exactly one START condition and
exactly one STOP condition, under the premises of `oneStartOneStop` on the PEER: it never pulls SCL, it releases SDA where START and STOP
need it high, and it does not move SDA while Clock is high (uop counts: assumption 2). -/
def Obligations.TransactionsMakeOneStartAndOneStop : Prop :=
  ∀ (len : Nibble) (addr : DeviceAddr) (x : Bool) (s : State), s.master.busy = false → len.toNat ≤ s.bufCap →
    (s.master.sclOut = false ∨ s.master.sdaOut = true) →
    Completes (.wrtx len addr x) (8 + sendUops + 7) s (fun ps => ackOf ps 0 = true) (fun ps _ recs => oneStartOneStop ps recs) ∧
    (∀ j, j < len.toNat → (∀ i, i ≤ j → s.master.txbuf.read i ≠ none) →
      Completes (.wrtx len addr x) (8 + sendUops * (j + 2) + 7) s
        (fun ps => (∀ i, i ≤ j → ackOf ps i = false) ∧ ackOf ps (j + 1) = true) (fun ps _ recs => oneStartOneStop ps recs)) ∧
    ((∀ i, i < len.toNat → s.master.txbuf.read i ≠ none) →
      Completes (.wrtx len addr x) (8 + sendUops * (len.toNat + 1) + 7) s
        (fun ps => ∀ i, i ≤ len.toNat → ackOf ps i = false) (fun ps _ recs => oneStartOneStop ps recs)) ∧
    Completes (.rdtx len addr x) (8 + sendUops + 7) s (fun ps => ackOf ps 0 = true) (fun ps _ recs => oneStartOneStop ps recs) ∧
    Completes (.rdtx len addr x) (8 + sendUops + 51 * len.toNat + 7) s (fun ps => ackOf ps 0 = false)
      (fun ps _ recs => oneStartOneStop ps recs)

/-- R130, R129, R109: Data moves only while Clock is low, but for the START and the STOP condition, whatever the PEER drives. In SEND every
SDA and SDA_OE is performed with SCL_OUT = 0; in RECV and RESP every one but the first uop, and that one too if the sequence begins with
Clock low, as in the order R210 gives the host (begun with Clock high, R125's first uop SDA_OE and R128's first uop SDA come before their
SCL: assumption 19). In START, STOP
and every outcome of a transaction, begun from a pin state a command leaves, the only uops that move SDA_OUT while SCL_OUT = 1 are the
SDA(0) of START and the SDA(1) of STOP (uop counts: assumption 2). -/
def Obligations.DataMovesOnlyWhileClockIsLow : Prop :=
  ∀ s : State, s.master.busy = false →
    (∀ b, Completes (.send b) sendUops s anyPeer fun _ _ recs => dataOnlyWhileLow recs) ∧
    (Completes .recv 44 s anyPeer fun _ _ recs =>
      dataOnlyWhileLow (recs.drop 1) ∧ (s.master.sclOut = false → dataOnlyWhileLow recs)) ∧
    (∀ n, Completes (.resp n) 7 s anyPeer fun _ _ recs =>
      dataOnlyWhileLow (recs.drop 1) ∧ (s.master.sclOut = false → dataOnlyWhileLow recs)) ∧
    (Completes .stop 7 s anyPeer fun _ _ recs => onlyStartAndStopMoveData recs) ∧
    ((s.master.sclOut = false ∨ s.master.sdaOut = true) →
      (Completes .start 8 s anyPeer fun _ _ recs => onlyStartAndStopMoveData recs) ∧
      ∀ (len : Nibble) (addr : DeviceAddr) (x : Bool), len.toNat ≤ s.bufCap →
        Completes (.wrtx len addr x) (8 + sendUops + 7) s (fun ps => ackOf ps 0 = true)
          (fun _ _ recs => onlyStartAndStopMoveData recs) ∧
        (∀ j, j < len.toNat → (∀ i, i ≤ j → s.master.txbuf.read i ≠ none) →
          Completes (.wrtx len addr x) (8 + sendUops * (j + 2) + 7) s
            (fun ps => (∀ i, i ≤ j → ackOf ps i = false) ∧ ackOf ps (j + 1) = true)
            (fun _ _ recs => onlyStartAndStopMoveData recs)) ∧
        ((∀ i, i < len.toNat → s.master.txbuf.read i ≠ none) →
          Completes (.wrtx len addr x) (8 + sendUops * (len.toNat + 1) + 7) s
            (fun ps => ∀ i, i ≤ len.toNat → ackOf ps i = false) (fun _ _ recs => onlyStartAndStopMoveData recs)) ∧
        Completes (.rdtx len addr x) (8 + sendUops + 7) s (fun ps => ackOf ps 0 = true)
          (fun _ _ recs => onlyStartAndStopMoveData recs) ∧
        Completes (.rdtx len addr x) (8 + sendUops + 51 * len.toNat + 7) s (fun ps => ackOf ps 0 = false)
          (fun _ _ recs => onlyStartAndStopMoveData recs))

/-! ### The host's registers -/

/-- R36: a write of `v` to STATUS clears AF, DF, ILL, OVR where `v` has bits 3 to 6, and changes nothing else; a read returns the bits
with bit 7 as 0. -/
def Obligations.StatusIsWriteOneToClear : Prop :=
  ∀ (s : State) (v : Byte),
    (∃ t, hostWrite 0x02 v s = .next t ∧
      t = { s with master := { s.master with status := t.master.status } } ∧
      ∀ j, j < 8 → t.master.status.getLsbD j =
        (s.master.status.getLsbD j && !((j == 3 || j == 4 || j == 5 || j == 6) && v.getLsbD j))) ∧
    (∃ r, hostRead 0x02 s = .next { s with answers := { s.answers with hostRead := some r } } ∧
      ∀ j, r.getLsbD j = (s.master.status.getLsbD j && j != 7))

/-- R38 to R44: what a read of CMDL, CMDH, RXDATA, XCNT, TXBUF[i] and RXBUF[i] answers; an entry that holds no value is UNINIT. -/
def Obligations.HostReadsReturnTheRegisters : Prop :=
  ∀ s : State,
    (∃ t, hostRead 0x00 s = .next t ∧ t = { s with answers := { s.answers with hostRead := some s.master.cmdl } }) ∧
    (∃ t, hostRead 0x01 s = .next t ∧ t = { s with answers := { s.answers with hostRead := some s.master.cmdh } }) ∧
    (∃ t, hostRead 0x03 s = .next t ∧ t = { s with answers := { s.answers with hostRead := some s.master.rxdata } }) ∧
    (∃ t, hostRead 0x04 s = .next t ∧ t = { s with answers := { s.answers with hostRead := some s.master.xcnt } }) ∧
    (∀ i v, i < s.bufCap → s.master.txbuf.read i = some v →
      hostRead (BitVec.ofNat 8 (0x10 + i)) s = .next { s with answers := { s.answers with hostRead := some v } }) ∧
    (∀ i v, i < s.bufCap → s.master.rxbuf.read i = some v →
      hostRead (BitVec.ofNat 8 (0x20 + i)) s = .next { s with answers := { s.answers with hostRead := some v } }) ∧
    (∀ i, i < s.bufCap → s.master.txbuf.read i = none →
      hostRead (BitVec.ofNat 8 (0x10 + i)) s = .fault (.uninit .txbuf i)) ∧
    (∀ i, i < s.bufCap → s.master.rxbuf.read i = none →
      hostRead (BitVec.ofNat 8 (0x20 + i)) s = .fault (.uninit .rxbuf i))

/-- R38, R43: a write to CMDL or TXBUF[i] stores its byte, starts nothing and touches nothing else; a read of it returns what was
stored. -/
def Obligations.HostWritesStoreTheirByte : Prop :=
  ∀ (s : State) (v : Byte),
    (∃ t, hostWrite 0x00 v s = .next t ∧ t = { s with master := { s.master with cmdl := v } } ∧
      hostRead 0x00 t = .next { t with answers := { t.answers with hostRead := some v } }) ∧
    ∀ i, i < s.bufCap →
      ∃ t, hostWrite (BitVec.ofNat 8 (0x10 + i)) v s = .next t ∧
        t = { s with master := { s.master with txbuf := t.master.txbuf } } ∧
        t.master.txbuf.read i = some v ∧ (∀ j, j ≠ i → t.master.txbuf.read j = s.master.txbuf.read j) ∧
        hostRead (BitVec.ofNat 8 (0x10 + i)) t = .next { t with answers := { t.answers with hostRead := some v } }

/-- R45: an offset that R37 does not name ignores a write, and a read of it answers a draw (`Config.drawHost`, counted as assumption 4
says) and leaves the block as it was. -/
def Obligations.ReservedOffsetsHoldNothing : Prop :=
  ∀ (off v : Byte) (s : State),
    6 ≤ off.toNat → (off.toNat < 0x10 ∨ 0x10 + s.bufCap ≤ off.toNat) → (off.toNat < 0x20 ∨ 0x20 + s.bufCap ≤ off.toNat) →
    hostWrite off v s = .next s ∧
    hostRead off s = .next { s with
      answers := { s.answers with hostRead := some (Config.drawHost s.hostDraws) }, hostDraws := s.hostDraws + 1 }

/-- R40, R41, R42, R44: a host write to RXDATA, XCNT, PINS or RXBUF[i] is ignored. -/
def Obligations.ReadOnlyRegistersIgnoreWrites : Prop :=
  ∀ (s : State) (v : Byte), hostWrite 0x03 v s = .next s ∧ hostWrite 0x04 v s = .next s ∧ hostWrite 0x05 v s = .next s ∧
    ∀ i, i < s.bufCap → hostWrite (BitVec.ofNat 8 (0x20 + i)) v s = .next s

/-! ### The slave events -/

/-- R155: EV_ADDR_RD resets both cursors and arms the oldest byte of OUTQ if there is one; with OUTQ empty the port is left as it is.
No semaphore is given; the master side and all else are unchanged. -/
def Obligations.AddressReadArmsTheOldestByte : Prop :=
  ∀ (ign : BitVec 3) (btc sto sta : Bool) (s : State), ∃ f, latchesCleared sto sta s.slave.flags f ∧
    (∀ v rest, s.slave.outq = v :: rest →
      exec (.evAddrRd ign btc sto sta) s = .next { s with slave := { s.slave with
        rxcur := 0, txcur := 0, outq := rest, portTx := some v, txArmed := true, flags := f,
        phase := .addrRd, hold := false, yield := false, evtPend := false } }) ∧
    (s.slave.outq = [] →
      exec (.evAddrRd ign btc sto sta) s = .next { s with slave := { s.slave with
        rxcur := 0, txcur := 0, flags := f, phase := .addrRd, hold := false, yield := false, evtPend := false } })

/-- R156, R148: EV_ADDR_WR resets both cursors and pops the port, dropping the byte; SRXBUF, INQ and the semaphores are untouched. A pop of
an empty port is a draw, which the event drops too (`State.slaveDraws` counts it, assumption 4). -/
def Obligations.AddressWriteDropsTheAddressByte : Prop :=
  ∀ (ign : BitVec 3) (btc sto sta : Bool) (s : State), ∃ f, latchesCleared sto sta s.slave.flags f ∧
    exec (.evAddrWr ign btc sto sta) s = .next { s with
      slave := { s.slave with
        rxcur := 0, txcur := 0, portRx := none, flags := f, phase := .addrWr, hold := false, yield := false, evtPend := false }
      slaveDraws := s.slaveDraws + (if s.slave.portRx = none then 1 else 0) }

/-- R157, R153, R161: EV_TX arms the oldest byte of OUTQ if there is one; TXCUR advances either way, and where it wraps SEM_TX is
given. If that give raises the semaphore, the yield request is the free bit it draws (`Config.drawWoken`, counted as assumption 4 says),
and else it is 0. -/
def Obligations.TransmitEventAdvancesTheCursor : Prop :=
  ∀ (ign : BitVec 3) (btc sto sta : Bool) (s : State), ∃ f raises, latchesCleared sto sta s.slave.flags f ∧
    raises = (decide (s.slave.txcur + 1 = s.bufCap) && !s.slave.semTx) ∧
    exec (.evTx ign btc sto sta) s = .next { s with
      slave := { s.slave with
        outq := s.slave.outq.tail
        portTx := (match s.slave.outq with
          | [] => s.slave.portTx
          | v :: _ => some v)
        txArmed := s.slave.txArmed || !s.slave.outq.isEmpty
        txcur := if s.slave.txcur + 1 = s.bufCap then 0 else s.slave.txcur + 1
        semTx := s.slave.semTx || decide (s.slave.txcur + 1 = s.bufCap)
        flags := f, phase := .inXfer, hold := false, yield := raises && Config.drawWoken s.slaveDraws, evtPend := false }
      slaveDraws := s.slaveDraws + (if raises then 1 else 0) }

/-- R158, R148, R151, R153, R161: EV_RX pops a byte, stores it at the cursor, queues it if INQ has room, and advances RXCUR; where it
wraps SEM_RX is given. A byte that finds INQ full is dropped from the queue only. An empty port gives a draw. If the give raises the
semaphore, the yield request is the free bit it draws, and else 0 (`Config.drawPort`, `Config.drawWoken`, counted as assumption 4
says). -/
def Obligations.ReceiveEventStoresAndQueuesTheByte : Prop :=
  ∀ (ign : BitVec 3) (sto sta : Bool) (s : State), ∃ f b popped raises, ∃ buf : Memory,
    latchesCleared sto sta s.slave.flags f ∧ b = s.slave.portRx.getD (Config.drawPort s.slaveDraws) ∧
    popped = s.slaveDraws + (if s.slave.portRx = none then 1 else 0) ∧
    raises = (decide (s.slave.rxcur + 1 = s.bufCap) && !s.slave.semRx) ∧
    exec (.evRx ign sto sta) s = .next { s with
      slave := { s.slave with
        portRx := none
        srxbuf := buf
        inq := if s.slave.inq.length < Config.qCap then s.slave.inq ++ [b] else s.slave.inq
        rxcur := if s.slave.rxcur + 1 = s.bufCap then 0 else s.slave.rxcur + 1
        semRx := s.slave.semRx || decide (s.slave.rxcur + 1 = s.bufCap)
        flags := f, phase := .inXfer, hold := false, yield := raises && Config.drawWoken popped, evtPend := false }
      slaveDraws := popped + (if raises then 1 else 0) } ∧
    buf.read s.slave.rxcur = some b ∧ ∀ i, i ≠ s.slave.rxcur → buf.read i = s.slave.srxbuf.read i

/-- R159, R153, R161: EV_END gives SEM_TX and changes no cursor, queue, buffer or port. If the give raises the semaphore, the yield request
is the free bit it draws, and else 0 (`Config.drawWoken`, counted as assumption 4 says). -/
def Obligations.EndEventGivesSemTx : Prop :=
  ∀ (ign : BitVec 3) (sto sta : Bool) (s : State), ∃ f, latchesCleared sto sta s.slave.flags f ∧
    exec (.evEnd ign sto sta) s = .next { s with
      slave := { s.slave with
        semTx := true, flags := f, phase := .idle, hold := false
        yield := !s.slave.semTx && Config.drawWoken s.slaveDraws, evtPend := false }
      slaveDraws := s.slaveDraws + (if s.slave.semTx then 0 else 1) }

/-- R145, R179, R55: the SED has a step exactly when an event is pending and unmasked, and that step ends the event. Where it has none,
choosing it changes nothing (the model's stutter, assumption 7). -/
def Obligations.SedStepsExactlyOnAPendingUnmaskedEvent : Prop :=
  ∀ s : State,
    (s.slave.evtPend = true ∧ s.slave.imask = false →
      ∃ t, sedStep s = .next t ∧ t.slave.evtPend = false ∧ t.slave.hold = false ∧ t.slave.imask = false) ∧
    (¬ (s.slave.evtPend = true ∧ s.slave.imask = false) → sedStep s = .next s)

/-- R146: an event may be raised only when HOLD = 0 and EVT_PEND = 0, and with NAM = 1 only on the first event of a transaction, with RD
bit 0 of the address byte that matched (`MayRaise`; how the model tells the first event: assumption 12). It then sets the flags, loads a
received byte if it brings one, and sets EVT_PEND and HOLD; STA and STO are set if the condition was detected since, and else keep what
the latch holds (assumption 10). Where no event may be raised, choosing the PERIPH's step changes nothing (the model's stutter, assumption
7). -/
def Obligations.PeripheralRaisesOneEventAtATime : Prop :=
  ∀ (sta sto nam rd btc : Bool) (rx : Option Byte) (s : State),
    (¬ MayRaise s.slave sta nam rd rx → periphRaise sta sto nam rd btc rx s = .next s) ∧
    (MayRaise s.slave sta nam rd rx → ∃ t, periphRaise sta sto nam rd btc rx s = .next t ∧
      t = { s with slave := { s.slave with
        flags := t.slave.flags, portRx := (if rx = none then s.slave.portRx else rx), evtPend := true, hold := true
        eventSeen := nam || !sto } } ∧
      t.slave.flags.getLsbD 0 = (sta || s.slave.flags.getLsbD 0) ∧ t.slave.flags.getLsbD 1 = (sto || s.slave.flags.getLsbD 1) ∧
      t.slave.flags.getLsbD 2 = nam ∧ t.slave.flags.getLsbD 3 = rd ∧ t.slave.flags.getLsbD 4 = btc)

/-- R149: arming the port sets PORT_TX and TX_ARMED alone; the PERIPH sends PORT_TX if it is armed and disarms it, also where an event
since found OUTQ empty (the model's choice, assumption 25; an armed port without a byte, which the machine's invariant rules out, is not
spoken of: assumption 13); if it is not armed it sends a draw (R163; `Config.drawPort`, counted as assumption 4 says). -/
def Obligations.PeripheralSendsTheArmedByte : Prop :=
  ∀ s : State,
    (∀ (c : Isr) (v : Byte), ∃ d, c.portArm v = d ∧
      d = { c with slave := { c.slave with portTx := some v, txArmed := true } }) ∧
    (∀ v, s.slave.txArmed = true → s.slave.portTx = some v →
      periphTransmit s = .next { s with
        slave := { s.slave with txArmed := false }, answers := { s.answers with transmitted := some v } }) ∧
    (s.slave.txArmed = false → periphTransmit s = .next { s with
      answers := { s.answers with transmitted := some (Config.drawPort s.slaveDraws) }, slaveDraws := s.slaveDraws + 1 })

/-- R165: after an address event, `n` receive events leave RXCUR = n mod BUF_CAP and `n` transmit events leave TXCUR = n mod BUF_CAP;
the direction's semaphore is 1 exactly if it was, or the cursor wrapped. -/
def Obligations.CursorsCountModuloCapacity : Prop :=
  ∀ (s : State) (ign : BitVec 3) (btc sto sta : Bool) (n : Nat),
    (∃ t, execAll (.evAddrWr ign btc sto sta :: List.replicate n (.evRx ign sto sta)) s = .next t ∧
      t.slave.rxcur = n % s.bufCap ∧ t.slave.txcur = 0 ∧
      t.slave.semRx = (s.slave.semRx || decide (s.bufCap ≤ n)) ∧ t.master = s.master) ∧
    (∃ t, execAll (.evAddrRd ign btc sto sta :: List.replicate n (.evTx ign btc sto sta)) s = .next t ∧
      t.slave.txcur = n % s.bufCap ∧ t.slave.rxcur = 0 ∧
      t.slave.semTx = (s.slave.semTx || decide (s.bufCap ≤ n)) ∧ t.master = s.master)

/-- R141, R158, R72 (Scenario A of the spec, for any bytes): a write transaction raised byte by byte, which INQ has room for, puts its
bytes on INQ in order, and the last BUF_CAP of them (all, if there are no more) in SRXBUF, byte `p` at index `p` mod BUF_CAP. -/
def Obligations.ReceivedBytesReachInqInOrder : Prop :=
  ∀ (s : State) (bytes : List Byte), s.slave.imask = false → s.slave.hold = false → s.slave.evtPend = false →
    s.slave.inq.length + bytes.length ≤ Config.qCap →
    ∃ u, runScript (eventScript ((true, false, true, false, false, some (Config.slvAddr ++ BitVec.ofBool false)) ::
        bytes.map fun v => (false, false, false, false, true, some v))) s = .next u ∧
      u.slave.inq = s.slave.inq ++ bytes ∧ u.slave.rxcur = bytes.length % s.bufCap ∧
      u.slave.semRx = (s.slave.semRx || decide (s.bufCap ≤ bytes.length)) ∧
      (∀ p v, bytes[p]? = some v → bytes.length ≤ p + s.bufCap → u.slave.srxbuf.read (p % s.bufCap) = some v) ∧
      u.slave.outq = s.slave.outq ∧ u.slave.hold = false ∧ u.slave.evtPend = false ∧ u.master = s.master

/-- R155, R157, R149, R72, R212 (Scenario B of the spec, for any bytes): in a read transaction with the bytes on OUTQ beforehand, the
`k`-th byte the peripheral transmits is the `k`-th byte of the queue. -/
def Obligations.OutqBytesAreTransmittedInOrder : Prop :=
  ∀ (s : State) (k : Nat) (v : Byte), s.slave.imask = false → s.slave.hold = false → s.slave.evtPend = false →
    s.slave.outq[k]? = some v →
    ∃ u, runScript ([.periphRaise true false true true false (some (Config.slvAddr ++ BitVec.ofBool true)), .sed] ++
        (List.replicate k [AgentStep.periphTransmit, .periphRaise false false false true false none, .sed]).flatten ++
        [.periphTransmit]) s = .next u ∧
      u.answers.transmitted = some v ∧ u.slave.outq = s.slave.outq.drop (k + 1) ∧ u.slave.inq = s.slave.inq ∧
      u.master = s.master

/-! ### The task side -/

/-- R166, R167, R168, R169: the blocking operations complete exactly when the queue or the semaphore lets them; a bounded wait that has
run out fails without an effect (that it has is an input, assumption 17); the mask is set and cleared as asked. A task that stays
blocked has no step, and choosing it changes nothing (the model's stutter, assumption 7). -/
def Obligations.TaskOperationsCompleteOrBlock : Prop :=
  ∀ (s : State) (w : Wait) (v : Byte) (on : Bool),
    (∀ b rest, s.slave.inq = b :: rest → taskReceive w s = .next { s with
      slave := { s.slave with inq := rest }, answers := { s.answers with task := some (.received b) } }) ∧
    (s.slave.outq.length < Config.qCap → taskSend v w s = .next { s with
      slave := { s.slave with outq := s.slave.outq ++ [v] }, answers := { s.answers with task := some .sent } }) ∧
    (s.slave.inq = [] → w ≠ .bounded true → taskReceive w s = .next s) ∧
    (Config.qCap ≤ s.slave.outq.length → w ≠ .bounded true → taskSend v w s = .next s) ∧
    (s.slave.inq = [] → taskReceive (.bounded true) s = .next { s with answers := { s.answers with task := some .failed } }) ∧
    (Config.qCap ≤ s.slave.outq.length →
      taskSend v (.bounded true) s = .next { s with answers := { s.answers with task := some .failed } }) ∧
    (s.slave.semRx = true → taskTake .rx s = .next { s with
      slave := { s.slave with semRx := false }, answers := { s.answers with task := some .taken } }) ∧
    (s.slave.semTx = true → taskTake .tx s = .next { s with
      slave := { s.slave with semTx := false }, answers := { s.answers with task := some .taken } }) ∧
    (s.slave.semRx = false → taskTake .rx s = .next s) ∧
    (s.slave.semTx = false → taskTake .tx s = .next s) ∧
    taskMask on s = .next { s with slave := { s.slave with imask := on } }

/-! ### Reset -/

/-- R57, R197: a master reset puts every master register at its reset value in one step and changes nothing else. -/
def Obligations.MasterResetValues : Prop :=
  ∀ s : State, ∃ t, masterReset s = .next t ∧ t = { s with master := t.master } ∧
    t.master.mpc = [] ∧ t.master.sh = 0x00 ∧ t.master.rb = 0x00 ∧ t.master.bitn = 0 ∧ t.master.ackb = false ∧ t.master.k = 0 ∧
    t.master.lop = 0 ∧ t.master.llen = 0 ∧ t.master.ldata = 0x00 ∧ t.master.cmdl = 0x00 ∧ t.master.cmdh = 0x00 ∧
    t.master.status = 0x00 ∧ t.master.rxdata = 0x00 ∧ t.master.xcnt = 0x00 ∧ t.master.sclOut = true ∧ t.master.sdaOut = true ∧
    t.master.sdaDir = .out ∧ (∀ i, t.master.txbuf.read i = none ∧ t.master.rxbuf.read i = none) ∧ t.master.trace = []

/-- R58, R197, R201: a slave reset puts the slave side at its reset values in one step and changes nothing else; a pending event and
queued bytes are lost. -/
def Obligations.SlaveResetValues : Prop :=
  ∀ s : State, ∃ t, slaveReset s = .next t ∧ t = { s with slave := t.slave } ∧
    t.slave.rxcur = 0 ∧ t.slave.txcur = 0 ∧ (∀ i, t.slave.srxbuf.read i = none) ∧ t.slave.phase = .idle ∧ t.slave.flags = 0 ∧
    t.slave.portRx = none ∧ t.slave.portTx = none ∧ t.slave.txArmed = false ∧ t.slave.hold = false ∧ t.slave.evtPend = false ∧
    t.slave.inq = [] ∧ t.slave.outq = [] ∧ t.slave.semRx = false ∧ t.slave.semTx = false ∧ t.slave.imask = true ∧
    t.slave.yield = false

/-! ### The whole machine -/

/-- The state after reset meets the invariant. -/
def Obligations.ResetMeetsTheInvariant : Prop := State.reset.Inv

/-- Every step of every agent, in every interleaving, keeps the invariant: STATUS bit 7 is 0, BUSY is MPC not IDLE (R29), NACK is ACKB
(R31), XCNT is K (R41), the counters, cursors and queues stay in range (R25, R49, R53), Data is an output between commands (R109), HOLD
and EVT_PEND go together, and the buffers keep their canonical form. -/
def Obligations.EveryStepKeepsTheInvariant : Prop :=
  ∀ s t : State, s.Inv → step s = .next t → t.Inv

/-- R4, R20, R197: no step of a master-side agent changes the slave side, and none of a slave-side agent changes the master side or the
PEER's drive. -/
def Obligations.TheTwoSidesShareNoState : Prop :=
  ∀ (a : AgentStep) (s t : State), agentStep a s = .next t →
    (isMasterStep a = true → t.slave = s.slave) ∧ (isMasterStep a = false → t.master = s.master ∧ t.peer = s.peer)

/-- R4: what a step of one side does does not depend on the other side: from two states that agree on a side (its registers, what it has
answered, and the model's count of its draws, assumption 4) its step meets the same fault in both, or goes on in both to states that
agree on the side. -/
def Obligations.NoSideSeesTheOther : Prop :=
  ∀ (a : AgentStep) (s s' : State),
    (isMasterStep a = true → MasterSideAgrees s s' → OutcomesAgree MasterSideAgrees (agentStep a s) (agentStep a s')) ∧
    (isMasterStep a = false → SlaveSideAgrees s s' → OutcomesAgree SlaveSideAgrees (agentStep a s) (agentStep a s'))

/-- R9: `BUF_CAP` is a parameter and no state of the block: no step changes it (it stands in State as assumption 1 says). -/
def Obligations.NoStepChangesTheParameters : Prop :=
  ∀ s t : State, step s = .next t → t.params = s.params

/-- R71, R27, R76: while a command runs, no step but the MBB's own and a master reset changes the pins, MPC or the datapath, and no
step but a master reset changes the latched operands. -/
def Obligations.ARunningCommandIsItsOwn : Prop :=
  ∀ (a : AgentStep) (s t : State), s.master.busy = true → agentStep a s = .next t → a ≠ .masterReset →
    t.master.lop = s.master.lop ∧ t.master.llen = s.master.llen ∧ t.master.ldata = s.master.ldata ∧
    (a ≠ .mbb →
      t.master.mpc = s.master.mpc ∧ t.master.sclOut = s.master.sclOut ∧ t.master.sdaOut = s.master.sdaOut ∧
      t.master.sdaDir = s.master.sdaDir ∧ t.master.sh = s.master.sh ∧ t.master.rb = s.master.rb ∧
      t.master.bitn = s.master.bitn ∧ t.master.ackb = s.master.ackb ∧ t.master.k = s.master.k ∧
      t.master.busy = true ∧ t.master.done = s.master.done ∧ t.master.rxbuf = s.master.rxbuf ∧ t.master.trace = s.master.trace)

/-- R175, R178: no step is refused, and the only fault is UNINIT, met only where the named entry holds no value. -/
def Obligations.OnlyUnwrittenEntriesStopTheMachine : Prop :=
  ∀ s : State,
    (∀ r, step s ≠ .refused r) ∧
    (∀ buf i, step s = .fault (.uninit buf i) →
      (match buf with
        | .txbuf => s.master.txbuf.read i = none
        | .rxbuf => s.master.rxbuf.read i = none))

/-- R146, R145, R160, R170: from raising to dispatch and on, one event exists at a time: a raised event waits while masked, is handled
once unmasked, and only then can the next be raised. While an event waits, choosing the PERIPH's raise or the masked SED changes nothing
(the model's stutter, assumption 7). -/
def Obligations.EventsAreSerialised : Prop :=
  ∀ (s : State) (sta sto nam rd btc : Bool) (rx : Option Byte), MayRaise s.slave sta nam rd rx →
    ∃ t u, periphRaise sta sto nam rd btc rx s = .next t ∧
      (s.slave.imask = true → sedStep t = .next t) ∧
      (∀ sta' sto' nam' rd' btc' rx', periphRaise sta' sto' nam' rd' btc' rx' t = .next t) ∧
      taskMask false t = .next u ∧
      ∃ w, sedStep u = .next w ∧ w.slave.hold = false ∧ w.slave.evtPend = false ∧ w.slave.imask = false
end

