-- ==== Sys2Proof/Laws/Flags.lean ====
section
/-! SUPPORT. Status bits: each bit after a write of one of them, and after a W1C write. -/

namespace Sys2Proof.Laws

open Sys2Proof Sys2Proof.Machine

/-- A bit after `putBit`: the bit written, or the old one. -/
theorem getLsbD_putBit {i : Nat} (hi : i < 8) (b : Bool) (v : Byte) (j : Nat) :
    (putBit i b v).getLsbD j = if j = i then b else v.getLsbD j := by
  unfold putBit bitMask
  by_cases hj : j = i
  · subst hj
    cases b <;> simp [hi]
  · cases b
    · by_cases h8 : j < 8
      · simp [hj, h8]
      · simp [hj, BitVec.getLsbD_of_ge v j (by omega)]
    · simp [hj, Ne.symm hj]

/-- A status bit after a write of one status bit. -/
theorem status_putStatus {i : Nat} (hi : i < 8) (m : Master) (b : Bool) (j : Nat) :
    (m.putStatus i b).status.getLsbD j = if j = i then b else m.status.getLsbD j :=
  getLsbD_putBit hi b m.status j

/-- R36: a status bit after a host write of `v`: bits 3 to 6 that `v` names are cleared, every other bit is kept. -/
theorem status_writeStatus (m : Master) (v : Byte) (j : Nat) (hj : j < 8) :
    (m.writeStatus v).status.getLsbD j = (m.status.getLsbD j && !(decide (3 ≤ j ∧ j ≤ 6) && v.getLsbD j)) := by
  have : ∀ k : Fin 8, w1cMask.getLsbD k = decide (3 ≤ k.val ∧ k.val ≤ 6) := by decide
  have hk := this ⟨j, hj⟩
  simp only [Master.writeStatus, BitVec.getLsbD_and, BitVec.getLsbD_not, hj, decide_true, Bool.true_and, hk]
  cases v.getLsbD j <;> simp

/-! ### `putStatus` touches STATUS alone -/

section
variable (m : Master) (i : Nat) (b : Bool)

@[simp] theorem putStatus_status : (m.putStatus i b).status = putBit i b m.status := rfl
@[simp] theorem putStatus_mpc : (m.putStatus i b).mpc = m.mpc := rfl
@[simp] theorem putStatus_sh : (m.putStatus i b).sh = m.sh := rfl
@[simp] theorem putStatus_rb : (m.putStatus i b).rb = m.rb := rfl
@[simp] theorem putStatus_bitn : (m.putStatus i b).bitn = m.bitn := rfl
@[simp] theorem putStatus_ackb : (m.putStatus i b).ackb = m.ackb := rfl
@[simp] theorem putStatus_k : (m.putStatus i b).k = m.k := rfl
@[simp] theorem putStatus_lop : (m.putStatus i b).lop = m.lop := rfl
@[simp] theorem putStatus_llen : (m.putStatus i b).llen = m.llen := rfl
@[simp] theorem putStatus_ldata : (m.putStatus i b).ldata = m.ldata := rfl
@[simp] theorem putStatus_cmdl : (m.putStatus i b).cmdl = m.cmdl := rfl
@[simp] theorem putStatus_cmdh : (m.putStatus i b).cmdh = m.cmdh := rfl
@[simp] theorem putStatus_rxdata : (m.putStatus i b).rxdata = m.rxdata := rfl
@[simp] theorem putStatus_xcnt : (m.putStatus i b).xcnt = m.xcnt := rfl
@[simp] theorem putStatus_sclOut : (m.putStatus i b).sclOut = m.sclOut := rfl
@[simp] theorem putStatus_sdaOut : (m.putStatus i b).sdaOut = m.sdaOut := rfl
@[simp] theorem putStatus_sdaDir : (m.putStatus i b).sdaDir = m.sdaDir := rfl
@[simp] theorem putStatus_txbuf : (m.putStatus i b).txbuf = m.txbuf := rfl
@[simp] theorem putStatus_rxbuf : (m.putStatus i b).rxbuf = m.rxbuf := rfl
@[simp] theorem putStatus_trace : (m.putStatus i b).trace = m.trace := rfl

end

/-! ### Named status bits after a write of one of them -/

section
variable (m : Master) (b : Bool)

@[simp] theorem busy_putBUSY : (m.putStatus bitBUSY b).busy = b := (status_putStatus (by decide) m b bitBUSY).trans (if_pos rfl)
@[simp] theorem busy_putDONE : (m.putStatus bitDONE b).busy = m.busy := (status_putStatus (by decide) m b bitBUSY).trans (if_neg (by decide))
@[simp] theorem busy_putNACK : (m.putStatus bitNACK b).busy = m.busy := (status_putStatus (by decide) m b bitBUSY).trans (if_neg (by decide))
@[simp] theorem busy_putAF : (m.putStatus bitAF b).busy = m.busy := (status_putStatus (by decide) m b bitBUSY).trans (if_neg (by decide))
@[simp] theorem busy_putDF : (m.putStatus bitDF b).busy = m.busy := (status_putStatus (by decide) m b bitBUSY).trans (if_neg (by decide))
@[simp] theorem busy_putILL : (m.putStatus bitILL b).busy = m.busy := (status_putStatus (by decide) m b bitBUSY).trans (if_neg (by decide))
@[simp] theorem busy_putOVR : (m.putStatus bitOVR b).busy = m.busy := (status_putStatus (by decide) m b bitBUSY).trans (if_neg (by decide))
@[simp] theorem nack_putBUSY : (m.putStatus bitBUSY b).nack = m.nack := (status_putStatus (by decide) m b bitNACK).trans (if_neg (by decide))
@[simp] theorem nack_putDONE : (m.putStatus bitDONE b).nack = m.nack := (status_putStatus (by decide) m b bitNACK).trans (if_neg (by decide))
@[simp] theorem nack_putNACK : (m.putStatus bitNACK b).nack = b := (status_putStatus (by decide) m b bitNACK).trans (if_pos rfl)
@[simp] theorem nack_putAF : (m.putStatus bitAF b).nack = m.nack := (status_putStatus (by decide) m b bitNACK).trans (if_neg (by decide))
@[simp] theorem nack_putDF : (m.putStatus bitDF b).nack = m.nack := (status_putStatus (by decide) m b bitNACK).trans (if_neg (by decide))
@[simp] theorem nack_putILL : (m.putStatus bitILL b).nack = m.nack := (status_putStatus (by decide) m b bitNACK).trans (if_neg (by decide))
@[simp] theorem nack_putOVR : (m.putStatus bitOVR b).nack = m.nack := (status_putStatus (by decide) m b bitNACK).trans (if_neg (by decide))

end

end Sys2Proof.Laws
end

