-- ==== Sys2Proof/Laws/State.lean ====
section
/-! SUPPORT. The fields of the state after each of its updates. -/

namespace Sys2Proof.Laws

open Sys2Proof Sys2Proof.Machine

section
variable (s : State) (f : Master → Master) (g : Slave → Slave)

@[simp] theorem onMaster_master : (s.onMaster f).master = f s.master := rfl
@[simp] theorem onMaster_slave : (s.onMaster f).slave = s.slave := rfl
@[simp] theorem onMaster_peer : (s.onMaster f).peer = s.peer := rfl
@[simp] theorem onMaster_answers : (s.onMaster f).answers = s.answers := rfl
@[simp] theorem onMaster_inputs : (s.onMaster f).inputs = s.inputs := rfl
@[simp] theorem onMaster_sched : (s.onMaster f).sched = s.sched := rfl
@[simp] theorem onMaster_hostDraws : (s.onMaster f).hostDraws = s.hostDraws := rfl
@[simp] theorem onMaster_slaveDraws : (s.onMaster f).slaveDraws = s.slaveDraws := rfl
@[simp] theorem onMaster_params : (s.onMaster f).params = s.params := rfl
@[simp] theorem onMaster_bufCap : (s.onMaster f).bufCap = s.bufCap := rfl

@[simp] theorem onSlave_master : (s.onSlave g).master = s.master := rfl
@[simp] theorem onSlave_slave : (s.onSlave g).slave = g s.slave := rfl
@[simp] theorem onSlave_peer : (s.onSlave g).peer = s.peer := rfl
@[simp] theorem onSlave_answers : (s.onSlave g).answers = s.answers := rfl
@[simp] theorem onSlave_inputs : (s.onSlave g).inputs = s.inputs := rfl
@[simp] theorem onSlave_sched : (s.onSlave g).sched = s.sched := rfl
@[simp] theorem onSlave_hostDraws : (s.onSlave g).hostDraws = s.hostDraws := rfl
@[simp] theorem onSlave_slaveDraws : (s.onSlave g).slaveDraws = s.slaveDraws := rfl
@[simp] theorem onSlave_params : (s.onSlave g).params = s.params := rfl
@[simp] theorem onSlave_bufCap : (s.onSlave g).bufCap = s.bufCap := rfl

variable (l : List AgentStep)

@[simp] theorem given_master : (s.given l).master = s.master := rfl
@[simp] theorem given_slave : (s.given l).slave = s.slave := rfl
@[simp] theorem given_peer : (s.given l).peer = s.peer := rfl
@[simp] theorem given_answers : (s.given l).answers = s.answers := rfl
@[simp] theorem given_inputs : (s.given l).inputs = l := rfl
@[simp] theorem given_sched : (s.given l).sched = s.sched := rfl
@[simp] theorem given_hostDraws : (s.given l).hostDraws = s.hostDraws := rfl
@[simp] theorem given_slaveDraws : (s.given l).slaveDraws = s.slaveDraws := rfl
@[simp] theorem given_params : (s.given l).params = s.params := rfl
@[simp] theorem given_bufCap : (s.given l).bufCap = s.bufCap := rfl

variable (v : Byte) (r : TaskResult)

@[simp] theorem answerHost_master : (s.answerHost v).master = s.master := rfl
@[simp] theorem answerHost_slave : (s.answerHost v).slave = s.slave := rfl
@[simp] theorem answerHost_peer : (s.answerHost v).peer = s.peer := rfl
@[simp] theorem answerHost_hostRead : (s.answerHost v).answers.hostRead = some v := rfl
@[simp] theorem answerHost_task : (s.answerHost v).answers.task = s.answers.task := rfl
@[simp] theorem answerHost_transmitted : (s.answerHost v).answers.transmitted = s.answers.transmitted := rfl
@[simp] theorem answerHost_inputs : (s.answerHost v).inputs = s.inputs := rfl
@[simp] theorem answerHost_sched : (s.answerHost v).sched = s.sched := rfl
@[simp] theorem answerHost_hostDraws : (s.answerHost v).hostDraws = s.hostDraws := rfl
@[simp] theorem answerHost_slaveDraws : (s.answerHost v).slaveDraws = s.slaveDraws := rfl
@[simp] theorem answerHost_params : (s.answerHost v).params = s.params := rfl
@[simp] theorem answerHost_bufCap : (s.answerHost v).bufCap = s.bufCap := rfl

@[simp] theorem answerTask_master : (s.answerTask r).master = s.master := rfl
@[simp] theorem answerTask_slave : (s.answerTask r).slave = s.slave := rfl
@[simp] theorem answerTask_peer : (s.answerTask r).peer = s.peer := rfl
@[simp] theorem answerTask_hostRead : (s.answerTask r).answers.hostRead = s.answers.hostRead := rfl
@[simp] theorem answerTask_task : (s.answerTask r).answers.task = some r := rfl
@[simp] theorem answerTask_transmitted : (s.answerTask r).answers.transmitted = s.answers.transmitted := rfl
@[simp] theorem answerTask_inputs : (s.answerTask r).inputs = s.inputs := rfl
@[simp] theorem answerTask_sched : (s.answerTask r).sched = s.sched := rfl
@[simp] theorem answerTask_hostDraws : (s.answerTask r).hostDraws = s.hostDraws := rfl
@[simp] theorem answerTask_slaveDraws : (s.answerTask r).slaveDraws = s.slaveDraws := rfl
@[simp] theorem answerTask_params : (s.answerTask r).params = s.params := rfl
@[simp] theorem answerTask_bufCap : (s.answerTask r).bufCap = s.bufCap := rfl

end

/-- A task that cannot complete its operation is answered a failure at most; nothing else changes. -/
theorem blockOrFail_cases (w : Wait) (s : State) :
    (w = .bounded true ∧ blockOrFail w s = s.answerTask .failed) ∨ (w ≠ .bounded true ∧ blockOrFail w s = s) := by
  cases w with
  | indefinite => exact .inr ⟨by simp, rfl⟩
  | bounded e => cases e <;> simp [blockOrFail]

end Sys2Proof.Laws
end

