-- ==== Sys2Proof/Laws/Run.lean ====
section
/-! SUPPORT. Runs: a script is run one agent step at a time, and the MBB's run beside a PEER is a run of the master side alone. -/

namespace Sys2Proof.Laws

open Sys2Proof Sys2Proof.Machine

/-! ### One step -/

/-- A step whose input is given is that agent's step. -/
theorem step_of_inputs {s : State} {a : AgentStep} {rest : List AgentStep} (h : s.inputs = a :: rest) :
    step s = agentStep a (s.given rest) := by simp [step, nextInput, h, State.given]

/-- An outcome with its next state changed. -/
def mapNext (f : State → State) : Host.Outcome State Fault Refusal → Host.Outcome State Fault Refusal
  | .next s => .next (f s)
  | .fault e => .fault e
  | .refused r => .refused r

@[simp] theorem mapNext_next (f : State → State) (s : State) : mapNext f (.next s) = .next (f s) := rfl
@[simp] theorem mapNext_fault (f : State → State) (e : Fault) : mapNext f (.fault e) = .fault e := rfl
@[simp] theorem mapNext_refused (f : State → State) (r : Refusal) : mapNext f (.refused r) = .refused r := rfl

@[simp] theorem given_given (s : State) (l l' : List AgentStep) : (s.given l).given l' = s.given l' := rfl

theorem given_self {s : State} {l : List AgentStep} (h : s.inputs = l) : s.given l = s := by simp [State.given, ← h]

/-- An instruction answers a next state, in which the parameters, the script, the schedule, the PEER and the answers are as they were. -/
theorem exec_next (i : Instr) (s : State) :
    ∃ t, exec i s = .next t ∧ t.params = s.params ∧ t.inputs = s.inputs ∧ t.sched = s.sched ∧ t.peer = s.peer ∧
      t.answers = s.answers := by
  cases i <;> exact ⟨_, rfl, rfl, rfl, rfl, rfl, rfl⟩

/-- An instruction does the same whatever the script. -/
theorem exec_given (i : Instr) (s : State) (l : List AgentStep) : exec i (s.given l) = mapNext (·.given l) (exec i s) := by
  cases i <;> rfl

/-- An agent's step does the same whatever the rest of the script, and leaves it. -/
theorem agentStep_given (a : AgentStep) (s : State) (l : List AgentStep) :
    agentStep a (s.given l) = mapNext (·.given l) (agentStep a s) := by
  cases a with
  | hostRead off =>
    simp only [agentStep, hostRead, given_bufCap]
    cases hostReg s.bufCap off <;> try rfl
    all_goals
      simp only [readEntry, given_master]
      split <;> rfl
  | hostWrite off v =>
    simp only [agentStep, hostWrite, given_bufCap]
    cases hostReg s.bufCap off <;> try rfl
    simp only [presentWord, onMaster_bufCap, given_bufCap, given_master]
    split
    · exact exec_given _ (s.onMaster fun m => { m with cmdh := v }) l
    · rfl
  | mbb =>
    simp only [agentStep, mbbStep, given_master, given_peer]
    split <;> rfl
  | peerDrive scl sda => rfl
  | periphRaise sta sto nam rd btc rx =>
    cases h : s.slave.hold || s.slave.evtPend || !addressContract s.slave.eventSeen sta nam rd rx <;>
      simp only [agentStep, periphRaise, given_slave, h] <;> rfl
  | periphTransmit =>
    simp only [agentStep, periphTransmit, given_slave]
    split <;> rfl
  | sed =>
    cases h : s.slave.evtPend && !s.slave.imask with
    | false => simp only [agentStep, sedStep, given_slave, h]; rfl
    | true => simp only [agentStep, sedStep, given_slave, h]; exact exec_given _ s l
  | taskReceive w =>
    simp only [agentStep, taskReceive, given_slave]
    split
    · rfl
    · cases w with
      | indefinite => rfl
      | bounded e => cases e <;> rfl
  | taskSend v w =>
    simp only [agentStep, taskSend, given_slave]
    split
    · rfl
    · cases w with
      | indefinite => rfl
      | bounded e => cases e <;> rfl
  | taskTake x =>
    cases x with
    | rx => by_cases h : s.slave.semRx = true <;> simp only [agentStep, taskTake, given_slave, h] <;> rfl
    | tx => by_cases h : s.slave.semTx = true <;> simp only [agentStep, taskTake, given_slave, h] <;> rfl
  | taskMask on => rfl
  | masterReset => rfl
  | slaveReset => rfl

/-! ### Scripts -/

@[simp] theorem runScript_given (l l' : List AgentStep) (s : State) : runScript l (s.given l') = runScript l s := rfl

@[simp] theorem runScript_nil (s : State) : runScript [] s = .next (s.given []) := rfl

/-- A script is run one agent step at a time. -/
theorem runScript_cons (a : AgentStep) (rest : List AgentStep) (s : State) :
    runScript (a :: rest) s =
      match agentStep a s with
      | .next t => runScript rest t
      | .fault f => .fault f
      | .refused r => .refused r := by
  have hs : step (s.given (a :: rest)) = agentStep a (s.given rest) := step_of_inputs rfl
  simp only [runScript, List.length_cons, runSteps, hs, agentStep_given]
  cases agentStep a s <;> rfl

/-- Scripts compose. -/
theorem runScript_append (l l' : List AgentStep) (s : State) :
    runScript (l ++ l') s =
      match runScript l s with
      | .next t => runScript l' t
      | .fault f => .fault f
      | .refused r => .refused r := by
  induction l generalizing s with
  | nil => simp
  | cons a rest ih =>
    rw [List.cons_append, runScript_cons, runScript_cons]
    cases agentStep a s with
    | next t => exact ih t
    | fault f => rfl
    | refused r => rfl

/-! ### The MBB beside a PEER -/

/-- The master side after one MBB step per drive of the PEER. -/
def masterRun : Master → List Peer → Except Fault Master
  | m, [] => .ok m
  | m, p :: rest =>
    match m.step p with
    | .ok m' => masterRun m' rest
    | .error f => .error f

/-- The PEER's last drive. -/
def lastPeer (p : Peer) : List Peer → Peer
  | [] => p
  | q :: rest => lastPeer q rest

theorem masterRun_append (m : Master) (l l' : List Peer) :
    masterRun m (l ++ l') =
      match masterRun m l with
      | .ok m' => masterRun m' l'
      | .error f => .error f := by
  induction l generalizing m with
  | nil => rfl
  | cons p rest ih =>
    simp only [List.cons_append, masterRun]
    cases m.step p with
    | ok m' => exact ih m'
    | error f => rfl

/-- A run of the MBB beside a PEER is a run of the master side; nothing else changes but the PEER's drive and the script. -/
theorem runScript_bus (ps : List Peer) (s : State) :
    runScript (busScript ps) s =
      match masterRun s.master ps with
      | .ok m => .next { s with master := m, peer := lastPeer s.peer ps, inputs := [] }
      | .error f => .fault f := by
  induction ps generalizing s with
  | nil => rfl
  | cons p rest ih =>
    rw [busScript, runScript_cons]
    simp only [agentStep, peerStep]
    rw [runScript_cons]
    simp only [agentStep, mbbStep, masterRun]
    cases s.master.step p with
    | ok m =>
      simp only [ih, lastPeer]
    | error f => rfl

/-- The package's own run is the host's. -/
theorem runSteps_eq_host_run (n : Nat) (s : State) : runSteps n s = Host.Core.run Sys2Proof.core n s := by
  induction n generalizing s with
  | zero => rfl
  | succ n ih =>
    simp only [runSteps, Host.Core.run]
    generalize hs : Sys2Proof.core.step s = o
    have hs' : step s = o := hs
    rw [hs']
    cases o with
    | next t => exact ih t
    | fault f => rfl
    | refused r => rfl

end Sys2Proof.Laws
end

