-- ==== Sys2Proof/Laws/Sequencer.lean ====
section
/-! SUPPORT. The MBB's step and run: the TRACE only grows and nothing reads it, and what a line of a program does. -/

namespace Sys2Proof.Laws

open Sys2Proof Sys2Proof.Machine

/-! ### The TRACE -/

/-- The master side with records put before its TRACE. -/
def traceAfter (l : List TraceRec) (m : Master) : Master := { m with trace := l ++ m.trace }

/-- A result with its master side changed. -/
def mapOk (f : Master → Master) : Except Fault Master → Except Fault Master
  | .ok m => .ok (f m)
  | .error e => .error e

@[simp] theorem mapOk_ok (f : Master → Master) (m : Master) : mapOk f (.ok m) = .ok (f m) := rfl
@[simp] theorem mapOk_error (f : Master → Master) (e : Fault) : mapOk f (.error e) = .error e := rfl

@[simp] theorem traceAfter_mpc (l : List TraceRec) (m : Master) : (traceAfter l m).mpc = m.mpc := rfl

theorem runControl_traceAfter (l : List TraceRec) (m : Master) (c : Control) :
    (traceAfter l m).runControl c = mapOk (traceAfter l) (m.runControl c) := by
  cases c with
  | loadShTx =>
    show (match m.txbuf.read m.k with
      | some v => Except.ok { traceAfter l m with sh := v }
      | none => .error (.uninit .txbuf m.k)) = mapOk (traceAfter l) (match m.txbuf.read m.k with
      | some v => Except.ok { m with sh := v }
      | none => .error (.uninit .txbuf m.k))
    cases m.txbuf.read m.k <;> rfl
  | shiftRbUnlessLast =>
    show Except.ok (if m.bitn < 7 then _ else _) = mapOk _ (Except.ok (if m.bitn < 7 then _ else _))
    split <;> rfl
  | abortIfNack f =>
    show Except.ok (if m.ackb then _ else _) = mapOk _ (Except.ok (if m.ackb then _ else _))
    split <;> rfl
  | loadShData => rfl
  | loadShAddr low => rfl
  | clearBitn => rfl
  | countBit => rfl
  | shiftSh => rfl
  | reportAck => rfl
  | clearRb => rfl
  | storeRxdata => rfl
  | storeRxbuf => rfl
  | countByte => rfl

/-- One piece of control that does not branch, then the rest. -/
theorem runControls_cons {c : Control} (h : ∀ f, c ≠ .abortIfNack f) (cs : List Control) (m : Master) :
    Master.runControls (c :: cs) m =
      match m.runControl c with
      | .ok m' => Master.runControls cs m'
      | .error e => .error e := by
  cases c with
  | abortIfNack f => exact absurd rfl (h f)
  | _ => rfl

theorem runControls_traceAfter (l : List TraceRec) (cs : List Control) (m : Master) :
    Master.runControls cs (traceAfter l m) = mapOk (traceAfter l) (Master.runControls cs m) := by
  induction cs generalizing m with
  | nil => rfl
  | cons c cs ih =>
    by_cases hc : ∃ f, c = .abortIfNack f
    · obtain ⟨f, rfl⟩ := hc
      show (if m.ackb then _ else _) = mapOk _ (if m.ackb then _ else _)
      split
      · exact runControl_traceAfter l m _
      · exact ih m
    · have hc' : ∀ f, c ≠ .abortIfNack f := fun f h => hc ⟨f, h⟩
      rw [runControls_cons hc', runControls_cons hc', runControl_traceAfter]
      cases m.runControl c with
      | ok m' => exact ih m'
      | error e => rfl

theorem doUop_traceAfter (l : List TraceRec) (m : Master) (p : Peer) (u : ProgUop) :
    (traceAfter l m).doUop p u = ((m.doUop p u).1, traceAfter l (m.doUop p u).2) := by
  cases u with
  | sda src => cases src <;> rfl
  | wait src => cases src <;> rfl
  | sample dst => cases dst <;> rfl
  | scl v => rfl
  | sdaOe d => rfl

theorem record_traceAfter (l : List TraceRec) (m : Master) (p : Peer) (u : Uop) :
    (traceAfter l m).record p u = traceAfter l (m.record p u) := by
  simp only [Master.record, traceAfter, List.append_assoc]
  rfl

theorem performUop_traceAfter (l : List TraceRec) (m : Master) (p : Peer) (u : Micro) (rest : List Micro) :
    (traceAfter l m).performUop p u rest = mapOk (traceAfter l) (m.performUop p u rest) := by
  simp only [Master.performUop, doUop_traceAfter]
  have h : (Master.record { traceAfter l (m.doUop p u.uop).2 with mpc := rest } p (m.doUop p u.uop).1) =
      traceAfter l (Master.record { (m.doUop p u.uop).2 with mpc := rest } p (m.doUop p u.uop).1) :=
    record_traceAfter l { (m.doUop p u.uop).2 with mpc := rest } p _
  rw [h, runControls_traceAfter]
  cases Master.runControls u.post _ with
  | ok m' =>
    simp only [mapOk_ok, traceAfter_mpc]
    cases m'.mpc <;> rfl
  | error e => rfl

/-- The MBB's step does not read the TRACE and appends to it. -/
theorem step_traceAfter (l : List TraceRec) (m : Master) (p : Peer) :
    (traceAfter l m).step p = mapOk (traceAfter l) (m.step p) := by
  simp only [Master.step, traceAfter_mpc]
  cases m.mpc with
  | nil => rfl
  | cons u rest =>
    simp only [runControls_traceAfter]
    cases Master.runControls u.pre m with
    | ok m' =>
      simp only [mapOk_ok, traceAfter_mpc]
      cases m'.mpc with
      | nil => rfl
      | cons u' rest' => exact performUop_traceAfter l m' p u' rest'
    | error e => rfl

/-- Nor does a run of it. -/
theorem masterRun_traceAfter (l : List TraceRec) (m : Master) (ps : List Peer) :
    masterRun (traceAfter l m) ps = mapOk (traceAfter l) (masterRun m ps) := by
  induction ps generalizing m with
  | nil => rfl
  | cons p rest ih =>
    simp only [masterRun, step_traceAfter]
    cases m.step p with
    | ok m' => exact ih m'
    | error e => rfl

/-- A run from any TRACE is the run from the empty one, with its records appended. -/
theorem masterRun_trace (m : Master) (ps : List Peer) :
    masterRun m ps = mapOk (traceAfter m.trace) (masterRun { m with trace := [] } ps) := by
  rw [← masterRun_traceAfter]
  simp [traceAfter]

/-! ### Lines -/

/-- A line without control that is not its program's last. -/
theorem step_line {m : Master} {u : ProgUop} {n : Micro} {rest : List Micro} (h : m.mpc = line u :: n :: rest) (p : Peer) :
    m.step p = .ok (Master.record { (m.doUop p u).2 with mpc := n :: rest } p (m.doUop p u).1) := by
  simp only [Master.step, h, line, Master.runControls, Master.performUop]
  rfl

/-- A line without control that is its program's last: the uop, then FINISH. -/
theorem step_last_line {m : Master} {u : ProgUop} (h : m.mpc = [line u]) (p : Peer) :
    m.step p = .ok (Master.record { (m.doUop p u).2 with mpc := [] } p (m.doUop p u).1).finish := by
  simp only [Master.step, h, line, Master.runControls, Master.performUop]
  rfl

/-! ### Presenting a command -/

/-- R92: what presenting a single command does. -/
theorem present_cases (op : Nibble) (data : Byte) (program : List Micro) (m : Master) :
    (m.busy = true ∧ m.present op data program = m.raiseOvr) ∨
    (m.busy = false ∧ m.present op data program = m.accept op 0 data program) := by
  cases h : m.busy <;> simp [Master.present, h]

/-- R92: what presenting a transaction does. -/
theorem presentTransaction_cases (cap : Nat) (op len : Nibble) (data : Byte) (program : List Micro) (m : Master) :
    (m.busy = true ∧ m.presentTransaction cap op len data program = m.raiseOvr) ∨
    (m.busy = false ∧ countFits cap len = true ∧
      m.presentTransaction cap op len data program = (m.accept op len data program).clearTransaction) ∨
    (m.busy = false ∧ countFits cap len = false ∧ m.presentTransaction cap op len data program = m.raiseIll) := by
  cases h : m.busy <;> cases hc : countFits cap len <;> simp [Master.presentTransaction, h, hc]

end Sys2Proof.Laws
end

