-- ==== Sys2Proof/Laws/Completes.lean ====
section
/-! SUPPORT. What is left to show of a command's completion: the run of the master side from the empty TRACE. -/

namespace Sys2Proof.Laws

open Sys2Proof Sys2Proof.Machine

/-- A command completes as claimed if its acceptance leaves `m0` and the run of the master side from there does. -/
theorem completes_of_masterRun {i : Instr} {n : Nat} {s : State} {m0 : Master} {when_ : List Peer → Prop}
    {result : List Peer → Master → List TraceRec → Prop}
    (hexec : exec i s = .next { s with master := m0 }) (htrace : m0.trace = s.master.trace)
    (hrun : ∀ ps : List Peer, ps.length = n → when_ ps →
      ∃ m, masterRun { m0 with trace := [] } ps = .ok m ∧ m.trace.length = n ∧
        result ps (traceAfter s.master.trace m) m.trace) :
    Completes i n s when_ result := by
  refine ⟨_, hexec, fun ps hps hw => ?_⟩
  obtain ⟨m, hm, hlen, hres⟩ := hrun ps hps hw
  refine ⟨{ s with master := traceAfter s.master.trace m, peer := lastPeer s.peer ps, inputs := [] }, m.trace, ?_, rfl, rfl, hlen, hres⟩
  rw [runScript_bus, masterRun_trace, hm, htrace]
  rfl

/-- What acceptance of a single command leaves. -/
theorem exec_present {s : State} {op : Nibble} {data : Byte} {program : List Micro} (h : s.master.busy = false) :
    (Host.Outcome.next (s.onMaster (Master.present op data program)) : Host.Outcome State Fault Refusal) =
      .next { s with master := s.master.accept op 0 data program } := by
  simp [State.onMaster, Master.present, h]

/-- What acceptance of a transaction leaves. -/
theorem exec_presentTransaction {s : State} {op len : Nibble} {data : Byte} {program : List Micro}
    (h : s.master.busy = false) (hl : len.toNat ≤ s.bufCap) :
    (Host.Outcome.next (s.onMaster (Master.presentTransaction s.bufCap op len data program)) : Host.Outcome State Fault Refusal) =
      .next { s with master := (s.master.accept op len data program).clearTransaction } := by
  simp [State.onMaster, Master.presentTransaction, h, countFits, hl]

/-! ### The order of status bits does not matter -/

theorem putBit_comm {i j : Nat} (hi : i < 8) (hj : j < 8) (h : i ≠ j) (b c : Bool) (v : Byte) :
    putBit i b (putBit j c v) = putBit j c (putBit i b v) := by
  apply BitVec.eq_of_getLsbD_eq
  intro k hk
  simp only [getLsbD_putBit hi, getLsbD_putBit hj]
  split <;> split <;> simp_all

theorem putBit_putBit {i : Nat} (hi : i < 8) (b c : Bool) (v : Byte) : putBit i b (putBit i c v) = putBit i b v := by
  apply BitVec.eq_of_getLsbD_eq
  intro k hk
  simp only [getLsbD_putBit hi]
  split <;> simp_all

/-- STATUS from acceptance to FINISH, when nothing else is written. -/
theorem status_accept_finish (v : Byte) :
    putBit bitBUSY false (putBit bitDONE true (putBit bitBUSY true (putBit bitDONE false v))) = completed v := by
  unfold completed
  rw [putBit_comm (i := bitDONE) (j := bitBUSY) (by decide) (by decide) (by decide), putBit_putBit (by decide),
    putBit_putBit (by decide)]

end Sys2Proof.Laws
end

