-- ==== Sys2Proof/Laws/Memory.lean ====
section
/-! SUPPORT. Buffers: reading after writing, and every write keeps the canonical form. -/

namespace Sys2Proof.Laws

open Sys2Proof Sys2Proof.Machine

@[simp] theorem memory_read_nil (a : Nat) : Memory.read [] a = none := rfl

@[simp] theorem memory_wf_nil : Memory.wf [] = true := rfl

@[simp] theorem memory_fits_nil (cap : Nat) : Memory.fits cap [] = true := rfl

/-- The entry written reads as written. -/
@[simp] theorem memory_read_write_same (m : Memory) (a : Nat) (v : Byte) : (m.write a v).read a = some v := by
  induction m with
  | nil => simp [Memory.write, Memory.read]
  | cons c rest ih =>
    simp only [Memory.write]
    split
    · simp [Memory.read]
    · split
      · simp [Memory.read]
      · rename_i h
        simp [Memory.read, Ne.symm h, ih]

/-- Every other entry reads as before. -/
theorem memory_read_write_ne (m : Memory) {a b : Nat} (v : Byte) (h : b ≠ a) : (m.write a v).read b = m.read b := by
  induction m with
  | nil => simp [Memory.write, Memory.read, Ne.symm h]
  | cons c rest ih =>
    simp only [Memory.write]
    split
    · simp [Memory.read, Ne.symm h]
    · split
      · rename_i hc
        simp [Memory.read, ← hc, Ne.symm h]
      · simp [Memory.read, ih]

/-- What any entry reads as after a write. -/
theorem memory_read_write (m : Memory) (a b : Nat) (v : Byte) :
    (m.write a v).read b = if b = a then some v else m.read b := by
  split
  · subst b
    exact memory_read_write_same m a v
  · exact memory_read_write_ne m v ‹_›

theorem memory_risesFrom_mono {lo lo' : Nat} (h : lo ≤ lo') {m : Memory} (hm : m.risesFrom lo' = true) :
    m.risesFrom lo = true := by
  cases m with
  | nil => rfl
  | cons c rest =>
    simp only [Memory.risesFrom, Bool.and_eq_true, decide_eq_true_eq] at hm ⊢
    exact ⟨by omega, hm.2⟩

/-- A write at or above the lower bound keeps the indexes rising. -/
theorem memory_risesFrom_write {m : Memory} {lo a : Nat} (v : Byte) (ha : lo ≤ a) (hm : m.risesFrom lo = true) :
    (m.write a v).risesFrom lo = true := by
  induction m generalizing lo with
  | nil => simp [Memory.write, Memory.risesFrom, ha]
  | cons c rest ih =>
    simp only [Memory.risesFrom, Bool.and_eq_true, decide_eq_true_eq] at hm
    simp only [Memory.write]
    split
    · simp only [Memory.risesFrom, Bool.and_eq_true, decide_eq_true_eq]
      exact ⟨ha, by omega, hm.2⟩
    · split
      · rename_i hc
        subst hc
        simp only [Memory.risesFrom, Bool.and_eq_true, decide_eq_true_eq]
        exact hm
      · simp only [Memory.risesFrom, Bool.and_eq_true, decide_eq_true_eq]
        exact ⟨hm.1, ih (by omega) hm.2⟩

/-- Every write keeps the canonical form. -/
theorem memory_write_wf {m : Memory} (a : Nat) (v : Byte) (hm : m.wf = true) : (m.write a v).wf = true :=
  memory_risesFrom_write v (Nat.zero_le a) hm

/-- A write within the buffer keeps the memory within it. -/
theorem memory_write_fits {cap : Nat} {m : Memory} {a : Nat} (v : Byte) (ha : a < cap) (hm : m.fits cap = true) :
    (m.write a v).fits cap = true := by
  induction m with
  | nil => simp [Memory.write, Memory.fits, ha]
  | cons c rest ih =>
    simp only [Memory.fits, List.all_cons, Bool.and_eq_true, decide_eq_true_eq] at hm ih
    simp only [Memory.write]
    split
    · simp only [Memory.fits, List.all_cons, Bool.and_eq_true, decide_eq_true_eq]
      exact ⟨ha, hm⟩
    · split
      · simp only [Memory.fits, List.all_cons, Bool.and_eq_true, decide_eq_true_eq]
        exact ⟨ha, hm.2⟩
      · simp only [Memory.fits, List.all_cons, Bool.and_eq_true, decide_eq_true_eq]
        exact ⟨hm.1, ih hm.2⟩

end Sys2Proof.Laws
end

