-- ==== Sys2Proof/Laws/PerInstr.lean ====
section
/-! SUPPORT. Per instruction: its encoding lies in its own row of spec/opcode_table.json. -/

namespace Sys2Proof.Laws.TableRow

open Sys2Proof

/-- A row of spec/opcode_table.json: the object's kind by its width, the fixed bits' mask, and their value. -/
structure Row where
  bits : Nat
  mask : Nat
  value : Nat
  deriving DecidableEq, Repr

/-- The row of each instruction, as the table has it. -/
def row : Instr → Row
  | .start => ⟨16, 0xFFFF, 0x1000⟩
  | .stop => ⟨16, 0xFFFF, 0x2000⟩
  | .send _ => ⟨16, 0xFF00, 0x3000⟩
  | .recv => ⟨16, 0xFFFF, 0x4000⟩
  | .resp _ => ⟨16, 0xFFFE, 0x5000⟩
  | .wrtx _ _ _ => ⟨16, 0xF000, 0x6000⟩
  | .rdtx _ _ _ => ⟨16, 0xF000, 0x7000⟩
  | .delay _ => ⟨16, 0xFF00, 0x8000⟩
  | .evAddrRd _ _ _ _ => ⟨8, 0x0C, 0x0C⟩
  | .evAddrWr _ _ _ _ => ⟨8, 0x0C, 0x04⟩
  | .evTx _ _ _ _ => ⟨8, 0x0C, 0x08⟩
  | .evRx _ _ _ => ⟨8, 0x1C, 0x10⟩
  | .evEnd _ _ _ => ⟨8, 0x1C, 0x00⟩

/-- Whether an encoded object is of a row. -/
def meets : Code → Row → Bool
  | .command w, r => decide (r.bits = 16) && (w &&& BitVec.ofNat 16 r.mask == BitVec.ofNat 16 r.value)
  | .event v, r => decide (r.bits = 8) && (v &&& BitVec.ofNat 8 r.mask == BitVec.ofNat 8 r.value)

/-- The encoding of `i` has the fixed bits of its row. -/
def Statement (i : Instr) : Prop := meets (encode i) (row i) = true

theorem start : Statement .start := rfl

theorem stop : Statement .stop := rfl

theorem send (b : Byte) : Statement (.send b) := by
  simp only [Statement, meets, encode, row, packCommand, Bool.and_eq_true, beq_iff_eq]
  refine ⟨rfl, BitVec.eq_of_getLsbD_eq fun k hk => ?_⟩
  rw [BitVec.getLsbD_and, BitVec.getLsbD_append]
  interval_cases k <;> simp

theorem recv : Statement .recv := rfl

theorem resp (n : Bool) : Statement (.resp n) := by cases n <;> rfl

theorem wrtx (len : Nibble) (addr : DeviceAddr) (x : Bool) : Statement (.wrtx len addr x) := by
  simp only [Statement, meets, encode, row, packCommand, Bool.and_eq_true, beq_iff_eq]
  refine ⟨rfl, BitVec.eq_of_getLsbD_eq fun k hk => ?_⟩
  rw [BitVec.getLsbD_and, BitVec.getLsbD_append, BitVec.getLsbD_append]
  interval_cases k <;> simp

theorem rdtx (len : Nibble) (addr : DeviceAddr) (x : Bool) : Statement (.rdtx len addr x) := by
  simp only [Statement, meets, encode, row, packCommand, Bool.and_eq_true, beq_iff_eq]
  refine ⟨rfl, BitVec.eq_of_getLsbD_eq fun k hk => ?_⟩
  rw [BitVec.getLsbD_and, BitVec.getLsbD_append, BitVec.getLsbD_append]
  interval_cases k <;> simp

theorem delay (u : Byte) : Statement (.delay u) := by
  simp only [Statement, meets, encode, row, packCommand, Bool.and_eq_true, beq_iff_eq]
  refine ⟨rfl, BitVec.eq_of_getLsbD_eq fun k hk => ?_⟩
  rw [BitVec.getLsbD_and, BitVec.getLsbD_append]
  interval_cases k <;> simp

theorem evAddrRd (ign : BitVec 3) (btc sto sta : Bool) : Statement (.evAddrRd ign btc sto sta) := by
  revert ign btc sto sta
  simp only [Statement]
  decide

theorem evAddrWr (ign : BitVec 3) (btc sto sta : Bool) : Statement (.evAddrWr ign btc sto sta) := by
  revert ign btc sto sta
  simp only [Statement]
  decide

theorem evTx (ign : BitVec 3) (btc sto sta : Bool) : Statement (.evTx ign btc sto sta) := by
  revert ign btc sto sta
  simp only [Statement]
  decide

theorem evRx (ign : BitVec 3) (sto sta : Bool) : Statement (.evRx ign sto sta) := by
  revert ign sto sta
  simp only [Statement]
  decide

theorem evEnd (ign : BitVec 3) (sto sta : Bool) : Statement (.evEnd ign sto sta) := by
  revert ign sto sta
  simp only [Statement]
  decide

end Sys2Proof.Laws.TableRow
end

