-- ==== Sys2Proof/Laws/Slave.lean ====
section
/-! SUPPORT. The slave side: what clearing the latches, each bridge primitive and each event class can do. -/

namespace Sys2Proof.Laws

open Sys2Proof Sys2Proof.Machine

/-! ### The latches -/

/-- Clearing the latches touches FLAGS alone. -/
theorem clearLatches_eq (sto sta : Bool) (sl : Slave) :
    sl.clearLatches sto sta = { sl with flags := (sl.clearLatches sto sta).flags } := rfl

/-- R154: which bits clearing the latches clears. -/
theorem clearLatches_flags (sto sta : Bool) (sl : Slave) : latchesCleared sto sta sl.flags (sl.clearLatches sto sta).flags := by
  intro j
  have e : ∀ n : Nat, (j == n) = decide (j = n) := fun n => rfl
  cases sta <;> cases sto <;> simp [Slave.clearLatches, getLsbD_putBit, bitSTA, bitSTO, e]
  · by_cases h1 : j = 1 <;> simp [h1]
  · by_cases h0 : j = 0 <;> simp [h0]
  · by_cases h1 : j = 1 <;> by_cases h0 : j = 0 <;> simp [h0, h1]

/-! ### The bridge primitives -/

/-- R148: a pop empties the port; it answers the port's byte, or a draw if there was none. -/
theorem portPop_cases (c : Isr) :
    (∃ v, c.slave.portRx = some v ∧ c.portPop = (v, { c with slave := { c.slave with portRx := none } })) ∨
    (c.slave.portRx = none ∧ c.portPop = (Config.drawPort c.draws, { c with draws := c.draws + 1 })) := by
  cases h : c.slave.portRx with
  | none => exact .inr ⟨rfl, by simp [Isr.portPop, h]⟩
  | some v => exact .inl ⟨v, rfl, by simp [Isr.portPop, h]⟩

/-- R150, R152: the oldest byte of OUTQ is armed, or nothing happens. -/
theorem armFromOutq_cases (c : Isr) :
    (∃ v rest, c.slave.outq = v :: rest ∧
      c.armFromOutq = { c with slave := { c.slave with outq := rest, portTx := some v, txArmed := true } }) ∨
    (c.slave.outq = [] ∧ c.armFromOutq = c) := by
  cases h : c.slave.outq with
  | nil => exact .inr ⟨rfl, by simp [Isr.armFromOutq, tryDequeue, h]⟩
  | cons v rest => exact .inl ⟨v, rest, rfl, by simp [Isr.armFromOutq, Isr.portArm, tryDequeue, h]⟩

/-- R151: the byte joins INQ, or INQ is full and it is dropped. -/
theorem enqueueInq_cases (c : Isr) (v : Byte) :
    (c.slave.inq.length < Config.qCap ∧ c.enqueueInq v = { c with slave := { c.slave with inq := c.slave.inq ++ [v] } }) ∨
    (Config.qCap ≤ c.slave.inq.length ∧ c.enqueueInq v = c) := by
  by_cases h : c.slave.inq.length < Config.qCap
  · exact .inl ⟨h, by simp [Isr.enqueueInq, tryEnqueue, h]⟩
  · exact .inr ⟨by omega, by simp [Isr.enqueueInq, tryEnqueue, h]⟩

/-- R153: a give to a semaphore at 0 raises it and draws the answer; one to a semaphore at 1 is lost. -/
theorem give_rx_cases (c : Isr) :
    (c.slave.semRx = true ∧ c.give .rx = c) ∨
    (c.slave.semRx = false ∧ c.give .rx =
      { slave := { c.slave with semRx := true }, draws := c.draws + 1, woken := c.woken || Config.drawWoken c.draws }) := by
  cases h : c.slave.semRx <;> simp [Isr.give, h]

theorem give_tx_cases (c : Isr) :
    (c.slave.semTx = true ∧ c.give .tx = c) ∨
    (c.slave.semTx = false ∧ c.give .tx =
      { slave := { c.slave with semTx := true }, draws := c.draws + 1, woken := c.woken || Config.drawWoken c.draws }) := by
  cases h : c.slave.semTx <;> simp [Isr.give, h]

/-- R158: the receive cursor advances modulo `BUF_CAP`, and gives SEM_RX where it wraps. -/
theorem advanceRx_cases (cap : Nat) (c : Isr) :
    (c.slave.rxcur + 1 = cap ∧ c.advanceRx cap = Isr.give { c with slave := { c.slave with rxcur := 0 } } .rx) ∨
    (c.slave.rxcur + 1 ≠ cap ∧ c.advanceRx cap = { c with slave := { c.slave with rxcur := c.slave.rxcur + 1 } }) := by
  by_cases h : c.slave.rxcur + 1 = cap
  · exact .inl ⟨h, by simp [Isr.advanceRx, h]⟩
  · exact .inr ⟨h, by simp [Isr.advanceRx, h]⟩

/-- R157: the transmit cursor advances modulo `BUF_CAP`, and gives SEM_TX where it wraps. -/
theorem advanceTx_cases (cap : Nat) (c : Isr) :
    (c.slave.txcur + 1 = cap ∧ c.advanceTx cap = Isr.give { c with slave := { c.slave with txcur := 0 } } .tx) ∨
    (c.slave.txcur + 1 ≠ cap ∧ c.advanceTx cap = { c with slave := { c.slave with txcur := c.slave.txcur + 1 } }) := by
  by_cases h : c.slave.txcur + 1 = cap
  · exact .inl ⟨h, by simp [Isr.advanceTx, h]⟩
  · exact .inr ⟨h, by simp [Isr.advanceTx, h]⟩

/-! ### Raising an event -/

/-- R146: what the contract on NAM asks. -/
theorem addressContract_iff (seen sta nam rd : Bool) (rx : Option Byte) :
    addressContract seen sta nam rd rx = true ↔
      (nam = true → (sta = true ∨ seen = false) ∧ (rx = none ∨ rx = some (Config.slvAddr ++ BitVec.ofBool rd))) := by
  cases nam <;> cases rx <;> simp [addressContract, addressByte]

/-- R146: an event is raised where it may be, and else nothing happens. -/
theorem periphRaise_cases (sta sto nam rd btc : Bool) (rx : Option Byte) (s : State) :
    (MayRaise s.slave sta nam rd rx ∧ periphRaise sta sto nam rd btc rx s = .next (s.onSlave fun sl =>
      { sl with
        flags := raisedFlags sl.flags sta sto nam rd btc
        portRx := rx.or sl.portRx
        evtPend := true
        hold := true
        eventSeen := nam || !sto })) ∨
    (¬ MayRaise s.slave sta nam rd rx ∧ periphRaise sta sto nam rd btc rx s = .next s) := by
  unfold MayRaise
  rw [← addressContract_iff]
  cases hh : s.slave.hold <;> cases he : s.slave.evtPend <;>
    cases hc : addressContract s.slave.eventSeen sta nam rd rx <;> simp [periphRaise, hh, he, hc]

/-! ### The frame of an event -/

section
variable (sto sta : Bool) (body : Isr → Isr) (phase : Phase) (s : State)

@[simp] theorem handleEvent_master : (s.handleEvent sto sta body phase).master = s.master := rfl
@[simp] theorem handleEvent_peer : (s.handleEvent sto sta body phase).peer = s.peer := rfl
@[simp] theorem handleEvent_answers : (s.handleEvent sto sta body phase).answers = s.answers := rfl
@[simp] theorem handleEvent_inputs : (s.handleEvent sto sta body phase).inputs = s.inputs := rfl
@[simp] theorem handleEvent_params : (s.handleEvent sto sta body phase).params = s.params := rfl
@[simp] theorem handleEvent_hostDraws : (s.handleEvent sto sta body phase).hostDraws = s.hostDraws := rfl
@[simp] theorem handleEvent_sched : (s.handleEvent sto sta body phase).sched = s.sched := rfl
@[simp] theorem handleEvent_phase : (s.handleEvent sto sta body phase).slave.phase = phase := rfl
@[simp] theorem handleEvent_hold : (s.handleEvent sto sta body phase).slave.hold = false := rfl
@[simp] theorem handleEvent_evtPend : (s.handleEvent sto sta body phase).slave.evtPend = false := rfl

end

/-- The class of a vector is an event, whatever the vector. -/
theorem decodeEvent_isEvent (v : Byte) : isCommand (decodeEvent v) = false := by
  unfold decodeEvent
  repeat' split
  all_goals rfl

end Sys2Proof.Laws
end

