-- ==== Sys2Proof/Tests/Slice0.lean ====
section
/-! SUPPORT. Tests, their expected values from spec/95_test_vectors.md or worked out by hand from the rules; and for every statement with
hypotheses a witness that meets them. -/

namespace Sys2Proof.Tests

open Sys2Proof Sys2Proof.Machine

/-! ### Helpers -/

/-- A property of the next state. -/
def look (o : Host.Outcome State Fault Refusal) (f : State → Bool) : Bool :=
  match o with
  | .next t => f t
  | .fault _ => false
  | .refused _ => false

/-- A master side that is idle, with a command's outcome in STATUS. -/
def withStatus (v : Byte) : State := { State.reset with master := { Master.reset with status := v } }

/-- A master side that is running a one-uop DELAY 100. -/
def running : State := { State.reset with master := Master.reset.accept 0x8 0 0x64 delayProgram }

/-- The six bytes of Program P1 in TXBUF, 7 to 12 in RXBUF. -/
def loaded : State := { State.reset with
  master := { Master.reset with
    txbuf := [(0, 1), (1, 2), (2, 3), (3, 4), (4, 5), (5, 6)]
    rxbuf := [(0, 7), (1, 8), (2, 9), (3, 10), (4, 11), (5, 12)] } }

/-- A slave side with an event vector pending and unmasked. -/
def pending (v : Byte) (sl : Slave) : State :=
  { State.reset with slave := { sl with flags := v, evtPend := true, hold := true, imask := false } }

/-- A slave side with the mask down. -/
def unmasked : State := { State.reset with slave := { Slave.reset with imask := false } }

/-- The MBB at a given place. -/
def at_ (p : List Micro) (m : Master) : State := { State.reset with master := { m with mpc := p, status := 0x01 } }

/-- A PEER that gives SDA a level by the step. -/
def peers (n : Nat) (sda : Nat → Bool) : List Peer := (List.range n).map fun i => ⟨true, sda i⟩

theorem peers_length (n : Nat) (sda : Nat → Bool) : (peers n sda).length = n := by simp [peers]

theorem peers_sda {n i : Nat} (sda : Nat → Bool) (h : i < n) : peerSda (peers n sda) i = sda i := by
  simp [peerSda, peers, h]

theorem peers_clock (n : Nat) (sda : Nat → Bool) : clockReleased (peers n sda) := by
  intro p hp
  simp only [peers, List.mem_map] at hp
  obtain ⟨i, _, rfl⟩ := hp
  rfl

theorem peers_released (n : Nat) : peerReleased (List.replicate n Peer.released) := fun _ hp => List.eq_of_mem_replicate hp

/-! ### WellFormed: the one check of each form refuses an ill-formed term -/

theorem test_illFormed_wrtx_7 : (Instr.wrtx 7 0x60 false).wellFormed 6 = false := by decide
theorem test_illFormed_rdtx_15 : (Instr.rdtx 15 0x60 true).wellFormed 6 = false := by decide
theorem test_wellFormed_wrtx_6 : (Instr.wrtx 6 0x60 false).wellFormed 6 = true := by decide

/-- R9: BUF_CAP is an argument, 1 to 15, and 6 by default. -/
theorem test_parameters : Params.default.bufCap = 6 ∧ (Params.mk 0).bufCap = 1 ∧ (Params.mk 14).bufCap = 15 ∧
    (Instr.wrtx 7 0x60 false).wellFormed 7 = true ∧ (Instr.wrtx 2 0x60 false).wellFormed 1 = false := by decide

/-! ### Decoding: words written out from spec/30_encoding.md R84 and R90 and vector table 2.1 -/

theorem test_decode_start : decodeTableWord 16 0b0001000000000000 = some .start := by decide
theorem test_decode_stop : decodeTableWord 16 0b0010000000000000 = some .stop := by decide
theorem test_decode_send : decodeTableWord 16 0b0011000010100101 = some (.send 0xA5) := by decide
theorem test_decode_recv : decodeTableWord 16 0b0100000000000000 = some .recv := by decide
theorem test_decode_resp : decodeTableWord 16 0b0101000000000001 = some (.resp true) := by decide
theorem test_decode_wrtx : decodeTableWord 16 0b0110011011000001 = some (.wrtx 6 0x60 true) := by decide
theorem test_decode_rdtx : decodeTableWord 16 0b0111011011000000 = some (.rdtx 6 0x60 false) := by decide
theorem test_decode_delay : decodeTableWord 16 0b1000000011111111 = some (.delay 255) := by decide
theorem test_decode_evAddrRd : decodeTableWord 8 0b00001101 = some (.evAddrRd 0 false false true) := by decide
theorem test_decode_evAddrWr : decodeTableWord 8 0b00010100 = some (.evAddrWr 0 true false false) := by decide
theorem test_decode_evTx : decodeTableWord 8 0b00001010 = some (.evTx 0 false true false) := by decide
theorem test_decode_evRx : decodeTableWord 8 0b00010010 = some (.evRx 0 true false) := by decide
theorem test_decode_evEnd : decodeTableWord 8 0b11100011 = some (.evEnd 7 true true) := by decide

/-- Vector table 2.1: every row that is ILL, by the clause of R93 it breaks. -/
theorem test_decode_illegal :
    decodeCommand 6 0x1001 = .reject .operandNotZero ∧ decodeCommand 6 0x1100 = .reject .operandNotZero ∧
    decodeCommand 6 0x20FF = .reject .operandNotZero ∧ decodeCommand 6 0x31FF = .reject .lengthNotZero ∧
    decodeCommand 6 0x4080 = .reject .operandNotZero ∧ decodeCommand 6 0x5002 = .reject .ackOperandTooWide ∧
    decodeCommand 6 0x5100 = .reject .ackOperandTooWide ∧ decodeCommand 6 0x67C0 = .reject .countOverCapacity ∧
    decodeCommand 6 0x6FC0 = .reject .countOverCapacity ∧ decodeCommand 6 0x8100 = .reject .lengthNotZero ∧
    decodeCommand 6 0x0000 = .reject .reservedOpcode ∧ decodeCommand 6 0x9000 = .reject .reservedOpcode ∧
    decodeCommand 6 0xF0FF = .reject .reservedOpcode := by decide

/-- Vector table 2.1, event vectors: 0x0A, 0x18 are EV_TX, 0x01 is EV_END, 0xFF is EV_ADDR_RD. -/
theorem test_decode_events :
    decodeEvent 0x0A = .evTx 0 false true false ∧ decodeEvent 0x18 = .evTx 0 true false false ∧
    decodeEvent 0x01 = .evEnd 0 false true ∧ decodeEvent 0xFF = .evAddrRd 7 true true true := by decide

/-! ### A placed word is the next instruction to run -/

theorem test_step_placed_start : look (step (State.reset.withFetchWord 16 0x1000)) (fun t =>
    t.master.mpc == startProgram && t.master.status == 0x01 && t.master.lop == 1) = true := by decide

theorem test_step_placed_evAddrRd : look (step (State.reset.withFetchWord 8 0x0D)) (fun t =>
    t.slave.phase == .addrRd && t.slave.flags == 0x0C && !t.slave.evtPend && !t.slave.hold) = true := by decide

/-! ### Acceptance and rejection (vector tables 2.1 and 2.6) -/

/-- B1: START's program is 8 uops; STATUS 0x01 after acceptance. -/
theorem test_start_accepted : look (exec .start State.reset) (fun t =>
    t.master.status == 0x01 && t.master.mpc.length == 8) = true := by decide

/-- B3: STOP's is 7. -/
theorem test_stop_accepted : look (exec .stop State.reset) (fun t =>
    t.master.status == 0x01 && t.master.mpc.length == 7) = true := by decide

/-- R27: SEND latches its byte. -/
theorem test_send_accepted : look (exec (.send 0xA5) State.reset) (fun t =>
    t.master.status == 0x01 && t.master.ldata == 0xA5 && t.master.lop == 3 && t.master.mpc.length == sendUops) = true := by decide

/-- B9: RECV's program is 44 uops. -/
theorem test_recv_accepted : look (exec .recv State.reset) (fun t =>
    t.master.status == 0x01 && t.master.mpc.length == 44) = true := by decide

/-- B12: RESP's is 7. -/
theorem test_resp_accepted : look (exec (.resp true) State.reset) (fun t =>
    t.master.status == 0x01 && t.master.ldata == 0x01 && t.master.mpc.length == 7) = true := by decide

/-- X6: a WRTX accepted with STATUS 0x16 leaves 0x05. -/
theorem test_wrtx_accepted : look (exec (.wrtx 1 0x60 false) (withStatus 0x16)) (fun t =>
    t.master.status == 0x05 && t.master.llen == 1 && t.master.ldata == 0xC0) = true := by decide

/-- R93 (e): the meaning itself turns a count above BUF_CAP away. -/
theorem test_wrtx_7_is_ill : look (exec (.wrtx 7 0x60 false) State.reset) (fun t =>
    t.master.status == 0x20 && t.master.mpc == []) = true := by decide

/-- Vector table 2.1: RDTX 0xC0, 6. -/
theorem test_rdtx_accepted : look (exec (.rdtx 6 0x60 false) State.reset) (fun t =>
    t.master.status == 0x01 && t.master.llen == 6 && t.master.lop == 7) = true := by decide

/-- Vector table 2.2: DELAY 255. -/
theorem test_delay_accepted : look (exec (.delay 255) State.reset) (fun t =>
    t.master.status == 0x01 && t.master.mpc == [{ uop := .wait .ldata }]) = true := by decide

/-- X1: a START written while a DELAY runs. -/
theorem test_start_while_busy : look (hostWrite 0x01 0x10 running) (fun t =>
    t.master.status == 0x41 && t.master.mpc == delayProgram) = true := by decide

/-- X7: an illegal word while BUSY sets OVR only. -/
theorem test_illegal_while_busy : look (hostWrite 0x01 0x90 running) (fun t => t.master.status == 0x41) = true := by decide

/-- X3: word 0x1100 from idle. -/
theorem test_illegal_from_idle : look (hostWrite 0x01 0x11 (withStatus 0x02)) (fun t =>
    t.master.status == 0x22 && t.master.cmdh == 0x11) = true := by decide

/-- X5. -/
theorem test_status_w1c : look (hostWrite 0x02 0xFF (withStatus 0x76)) (fun t => t.master.status == 0x06) = true := by decide

/-! ### Single steps of the MBB -/

/-- Vector table 2.2: DELAY 10 is one step; STATUS 0x02, pins unchanged. -/
theorem test_delay_step : look (mbbStep running) (fun t =>
    t.master.status == 0x02 && t.master.mpc == [] && t.master.sclOut && t.master.sdaOut) = true := by decide

/-- W1: `SH` after the first bit of 0xA5 is shifted is 0x4A. -/
theorem test_send_shift : look (mbbStep (at_ (sendBit.drop 5 ++ sendAck) { Master.reset with sh := 0xA5 })) (fun t =>
    t.master.sh == 0x4A && t.master.bitn == 1) = true := by decide

/-- B9: the fourth sample of 0x3C leaves RB 0x06 after the shift. -/
theorem test_recv_sample : look (mbbStep (at_ (recvBit.drop 4 ++ recvEnd [.storeRxdata])
    { Master.reset with rb := 0x02, bitn := 3, sdaDir := .inp })) (fun t => t.master.rb == 0x06 && t.master.bitn == 4) = true := by decide

/-- B9: no shift after the last sample. -/
theorem test_recv_last_sample : look (mbbStep { at_ (recvBit.drop 4 ++ recvEnd [.storeRxdata])
    { Master.reset with rb := 0x3C, bitn := 7, sdaDir := .inp } with peer := ⟨true, false⟩ }) (fun t =>
      t.master.rb == 0x3C && t.master.bitn == 8) = true := by decide

/-- R137: after byte 0 of 2 the master answers ACK, after byte 1 NACK. -/
theorem test_rdtx_answers :
    ({ Master.reset with llen := 2, k := 0 } : Master).nackIfLast = false ∧
    ({ Master.reset with llen := 2, k := 1 } : Master).nackIfLast = true := by decide

/-- T8, R133: a NACKed address sets AF and enters STOP_SEQ with the next uop performed. -/
theorem test_abort_on_nack : look (mbbStep (at_ (sendSeq [.abortIfNack .af] .loadShTx) { Master.reset with ackb := true })) (fun t =>
    t.master.af && t.master.mpc == stopSeq.tail && t.master.sclOut == false && t.master.sh == 0) = true := by decide

/-- R134: an entry that holds no value stops the step. -/
theorem test_wrtx_uninit : mbbStep (at_ (sendSeq [.abortIfNack .af] .loadShTx) Master.reset) = .fault (.uninit .txbuf 0) := rfl

/-- Vector table 2.2: `PINS` after reset, with the PEER released and with PEER_SDA = 0, and after RESP 1. -/
theorem test_pins :
    pinsByte Master.reset ⟨true, true⟩ = 0x1F ∧ pinsByte Master.reset ⟨true, false⟩ = 0x0F ∧
    pinsByte { Master.reset with sclOut := false } ⟨true, true⟩ = 0x16 ∧
    pinsByte { Master.reset with sdaDir := .inp } ⟨true, false⟩ = 0x0B := by decide

/-! ### Host reads (vector table 2.7, R-1) -/

theorem test_read_unwritten : hostRead 0x10 State.reset = .fault (.uninit .txbuf 0) ∧
    hostRead 0x25 State.reset = .fault (.uninit .rxbuf 5) := ⟨rfl, rfl⟩

theorem test_read_written : look (hostRead 0x15 loaded) (fun t => t.answers.hostRead == some 6) = true := by decide

/-- R37, R45: with BUF_CAP = 15 the buffers reach to offsets 0x1E and 0x2E. -/
theorem test_offsets_at_15 : hostReg 15 0x1E = .txbuf 14 ∧ hostReg 15 0x1F = .reserved ∧ hostReg 15 0x2E = .rxbuf 14 ∧
    hostReg 15 0x2F = .reserved := by decide

theorem test_reserved_offsets : hostReg 6 0x06 = .reserved ∧ hostReg 6 0x16 = .reserved ∧ hostReg 6 0x1F = .reserved ∧
    hostReg 6 0x26 = .reserved ∧ hostReg 6 0xFF = .reserved := by decide

/-! ### The slave events (vector table 2.5) -/

/-- S1. -/
theorem test_S1 : look (sedStep (pending 0x0D { Slave.reset with outq := [10, 20], txcur := 3 })) (fun t =>
    t.slave.portTx == some 10 && t.slave.txArmed && t.slave.outq == [20] && t.slave.txcur == 0 && !t.slave.yield) = true := by decide

/-- S2. -/
theorem test_S2 : look (sedStep (pending 0x0D Slave.reset)) (fun t => !t.slave.txArmed && t.slave.phase == .addrRd) = true := by decide

/-- S4. -/
theorem test_S4 : look (sedStep (pending 0x05 { Slave.reset with portRx := some 0xC0, rxcur := 3, txcur := 2 })) (fun t =>
    t.slave.rxcur == 0 && t.slave.txcur == 0 && t.slave.portRx == none && t.slave.inq == [] && t.slave.srxbuf == [] &&
      t.slave.phase == .addrWr && t.slave.flags == 0x04) = true := by decide

/-- S6. -/
theorem test_S6 : look (sedStep (pending 0x08 { Slave.reset with outq := [20, 30] })) (fun t =>
    t.slave.portTx == some 20 && t.slave.outq == [30] && t.slave.txcur == 1 && t.slave.phase == .inXfer) = true := by decide

/-- S8. -/
theorem test_S8 : look (sedStep (pending 0x08 { Slave.reset with txcur := 5, outq := [9], semTx := true })) (fun t =>
    t.slave.portTx == some 9 && t.slave.txcur == 0 && t.slave.semTx && !t.slave.yield) = true := by decide

/-- S10. -/
theorem test_S10 : look (sedStep (pending 0x10 { Slave.reset with portRx := some 0x11 })) (fun t =>
    t.slave.srxbuf == [(0, 0x11)] && t.slave.rxcur == 1 && t.slave.portRx == none && t.slave.phase == .inXfer) = true := by decide

/-- S13. -/
theorem test_S13 : look (sedStep (pending 0x10 { Slave.reset with rxcur := 5, portRx := some 6, semRx := true })) (fun t =>
    t.slave.srxbuf == [(5, 6)] && t.slave.rxcur == 0 && t.slave.semRx && !t.slave.yield) = true := by decide

/-- S16. -/
theorem test_S16 : look (sedStep (pending 0x00 { Slave.reset with rxcur := 4 })) (fun t =>
    t.slave.semTx && t.slave.rxcur == 4 && t.slave.phase == .idle) = true := by decide

/-- S17. -/
theorem test_S17 : look (sedStep (pending 0x02 { Slave.reset with semTx := true })) (fun t =>
    t.slave.semTx && !t.slave.yield && t.slave.flags == 0x00) = true := by decide

/-! ### The PERIPH and the tasks -/

/-- S20: with IMASK = 1 no SED step is enabled and no second event may be raised. -/
theorem test_S20 : look (periphRaise false false false false true (some 0x11) State.reset) (fun t =>
    t.slave.flags == 0x10 && t.slave.evtPend && t.slave.hold && t.slave.portRx == some 0x11 &&
      look (sedStep t) (· == t) && look (periphRaise true true true true true none t) (· == t)) = true := by decide

/-- R146: NAM = 1 is not raised on a later event of the transaction that brings no START, but is on one that does. -/
theorem test_nam_mid_transaction :
    look (periphRaise false false true false false none { State.reset with slave := { Slave.reset with eventSeen := true } })
      (fun t => !t.slave.evtPend) = true ∧
    look (periphRaise true false true false false none { State.reset with slave := { Slave.reset with eventSeen := true } })
      (fun t => t.slave.evtPend && t.slave.flags == 0x05 && t.slave.eventSeen) = true := by decide

/-- R146: an event with STOP ends the transaction on the bus, and one of a data byte does not. -/
theorem test_event_seen :
    look (periphRaise false true false false false none { State.reset with slave := { Slave.reset with eventSeen := true } })
      (fun t => !t.slave.eventSeen) = true ∧
    look (periphRaise false false false false true (some 1) State.reset) (fun t => t.slave.eventSeen) = true := by decide

/-- S22. -/
theorem test_S22 : look (taskTake .rx State.reset) (· == State.reset) = true ∧
    look (taskTake .rx { State.reset with slave := { Slave.reset with semRx := true } }) (fun t =>
      !t.slave.semRx && t.answers.task == some .taken) = true := by decide

/-- S23. -/
theorem test_S23 : look (taskReceive .indefinite { State.reset with slave := { Slave.reset with inq := [4, 5] } }) (fun t =>
    t.slave.inq == [5] && t.answers.task == some (.received 4)) = true := by decide

/-- R-3: a slave reset. -/
theorem test_slaveReset : look (slaveReset { State.reset with slave := { Slave.reset with inq := [1, 2], evtPend := true, imask := false } })
    (fun t => t.slave.inq == [] && !t.slave.evtPend && t.slave.imask) = true := by decide

/-! ### The end of a run -/

/-- A run of the host program `cmd DELAY 1` and one round of `waitidle`, while the slave meets a STOP. -/
def oneDelay : List AgentStep :=
  cmd (.delay 1) ++ [.mbb] ++ waitidle 1 ++ [.periphRaise false true false false false none, .mbb, .sed, .mbb]

/-- R220: after the program's last line (4 steps) an event is still to come; it has been handled after 7. -/
theorem test_run_end : oneDelay.filter isHostStep = cmd (.delay 1) ++ waitidle 1 ∧
    pastEnd oneDelay unmasked 7 = true ∧ (∀ m, m < 7 → pastEnd oneDelay unmasked m = false) := by
  refine ⟨by decide, by decide, by decide⟩

/-! ### The TRACE read as R130 reads it -/

/-- R130: which uops act on Data, and the places of START's SDA(0) and STOP's SDA(1). -/
theorem test_acts_on_data : (Uop.sda true).actsOnData = true ∧ (Uop.sdaOe .inp).actsOnData = true ∧ (Uop.scl true).actsOnData = false ∧
    Uop.sample.actsOnData = false ∧ startProgram[4]? = some (line (.sda .low)) ∧ stopProgram[6]? = some (line (.sda .high)) := by decide

/-! ### The shape of the state -/

theorem test_reset_memory_wf : State.reset.master.txbuf.wf = true ∧ State.reset.master.rxbuf.wf = true ∧
    State.reset.slave.srxbuf.wf = true := by decide

/-- A write out of order keeps the canonical form. -/
theorem test_memory_canonical : Memory.write (Memory.write (Memory.write [] 5 1) 0 2) 5 3 = [(0, 2), (5, 3)] := by decide

/-! ### Witnesses: for each statement with hypotheses, a state and operands that meet them -/

theorem witness_wellFormed : (Instr.rdtx 6 0x7F true).wellFormed 6 = true ∧ (Instr.evAddrRd 7 true true true).wellFormed 6 = true := by decide

theorem witness_decodes : decode 6 (.command 0x66C1) = .ok (.wrtx 6 0x60 true) ∧ decode 6 (.event 0xFF) = .ok (.evAddrRd 7 true true true) := by
  decide

theorem witness_illegal_word : decodeCommand 6 0x9000 = .reject .reservedOpcode ∧ State.reset.master.busy = false := by decide

theorem witness_event_rows : ((0x0C : Byte) &&& 0x0C = 0x0C) ∧ ((0x14 : Byte) &&& 0x0C = 0x04) ∧ ((0x0A : Byte) &&& 0x0C = 0x08) ∧
    ((0x12 : Byte) &&& 0x1C = 0x10) ∧ ((0xE3 : Byte) &&& 0x1C = 0x00) := by decide

theorem witness_step_command :
    ({ State.reset with inputs := [.hostWrite 0x01 0x10] } : State).inputs = .hostWrite 0x01 0x10 :: [] ∧
    decodeCommand State.reset.bufCap ((0x10 : Byte) ++ State.reset.master.cmdl) = .ok .start := by decide

theorem witness_step_event : ({ pending 0x0D Slave.reset with inputs := [.sed] } : State).inputs = .sed :: [] ∧
    (pending 0x0D Slave.reset).slave.evtPend = true ∧ (pending 0x0D Slave.reset).slave.imask = false := by decide

theorem witness_placed : decodeCommand 6 0x66C0 = .ok (.wrtx 6 0x60 false) := by decide

/-- For every command statement that asks only for an idle MBB, and the premises on the pins of START, SEND, a transaction and
DataMovesOnlyWhileClockIsLow. -/
theorem witness_idle : State.reset.master.busy = false ∧ State.reset.master.sdaDir = .out ∧ State.reset.master.sdaOut = true := by decide

/-- The other case of these premises on the pins: Clock low. -/
theorem witness_idle_clock_low :
    ({ Master.reset with sclOut := false, sdaOut := false } : Master).busy = false ∧
    ({ Master.reset with sclOut := false, sdaOut := false } : Master).sclOut = false := by decide

theorem witness_count : (0 : Nibble).toNat ≤ State.reset.bufCap ∧ (6 : Nibble).toNat ≤ State.reset.bufCap := by decide

theorem witness_busy : running.master.busy = true := by decide

theorem witness_illegal_write : State.reset.master.busy = false ∧
    decodeCommand State.reset.bufCap ((0x11 : Byte) ++ State.reset.master.cmdl) = .reject .operandNotZero := by decide

/-- UopsChangeWhatTheirRulesSay: a place for each of its six clauses. -/
theorem witness_uops :
    (at_ [{ uop := .scl true }, line (.scl false)] Master.reset).master.mpc = { uop := .scl true } :: line (.scl false) :: [] ∧
    (at_ [{ uop := .sda .sh7 }, line (.scl false)] Master.reset).master.mpc = { uop := .sda .sh7 } :: line (.scl false) :: [] ∧
    (at_ [{ uop := .sdaOe .inp }, line (.scl false)] Master.reset).master.mpc = { uop := .sdaOe .inp } :: line (.scl false) :: [] ∧
    (at_ [{ uop := .wait .nBit }, line (.scl false)] Master.reset).master.mpc = { uop := .wait .nBit } :: line (.scl false) :: [] ∧
    (at_ [{ uop := .sample .ackb, post := [.reportAck] }, line (.scl false)] Master.reset).master.mpc =
      { uop := .sample .ackb, post := [.reportAck] } :: line (.scl false) :: [] ∧
    (at_ [{ uop := .sample .rb, post := [.shiftRbUnlessLast, .countBit] }, line (.scl false)] Master.reset).master.mpc =
      { uop := .sample .rb, post := [.shiftRbUnlessLast, .countBit] } :: line (.scl false) :: [] := by decide

/-- For the statements about START, STOP and RESP under a released PEER. -/
theorem witness_released : (List.replicate 8 Peer.released).length = 8 ∧ peerReleased (List.replicate 8 Peer.released) ∧
    (List.replicate 7 Peer.released).length = 7 ∧ peerReleased (List.replicate 7 Peer.released) :=
  ⟨rfl, peers_released 8, rfl, peers_released 7⟩

/-- For those that ask nothing of the PEER: a script of the length asked for. -/
theorem witness_any : (peers sendUops fun _ => false).length = sendUops ∧ anyPeer (peers sendUops fun _ => false) :=
  ⟨peers_length _ _, trivial⟩

/-- SendPutsTheByteOnTheWire: a PEER that acknowledges. -/
theorem witness_send_wire : (peers sendUops fun i => decide (i < 48)).length = sendUops ∧
    clockReleased (peers sendUops fun i => decide (i < 48)) ∧
    ∀ i, i < 8 → peerSda (peers sendUops fun i => decide (i < 48)) (6 * i + 4) = true := by
  refine ⟨peers_length _ _, peers_clock _ _, fun i hi => ?_⟩
  rw [peers_sda _ (by simp only [sendUops]; omega)]
  simp only [decide_eq_true_eq]
  omega

theorem witness_loaded : loaded.master.busy = false ∧ (∀ i, i < (6 : Nibble).toNat → loaded.master.txbuf.read i ≠ none) := by
  refine ⟨by decide, ?_⟩
  decide

/-- WrtxOutcomes, RdtxOutcomes, and the other statements with their cases: an address that is not acknowledged. -/
theorem witness_address_nack : ackOf (peers (8 + sendUops + 7) fun _ => true) 0 = true ∧
    (peers (8 + sendUops + 7) fun _ => true).length = 8 + sendUops + 7 :=
  ⟨peers_sda _ (by decide), peers_length _ _⟩

/-- WrtxOutcomes: byte 5 of 6 is the first not acknowledged (T4), and byte 0. -/
theorem witness_data_nack : ∀ j, j = 0 ∨ j = 5 →
    (∀ i, i ≤ j → ackOf (peers (8 + sendUops * (j + 2) + 7) fun n => decide (8 + sendUops * (j + 1) ≤ n)) i = false) ∧
    ackOf (peers (8 + sendUops * (j + 2) + 7) fun n => decide (8 + sendUops * (j + 1) ≤ n)) (j + 1) = true := by
  intro j _
  refine ⟨fun i hi => ?_, ?_⟩
  · rw [ackOf, peers_sda _ (by simp only [sendUops, ackSampleAt]; omega)]
    refine decide_eq_false ?_
    simp only [sendUops, ackSampleAt]
    omega
  · rw [ackOf, peers_sda _ (by simp only [sendUops, ackSampleAt]; omega)]
    refine decide_eq_true ?_
    simp only [sendUops, ackSampleAt]
    omega

/-- WrtxOutcomes: every byte of 6 acknowledged (T1). -/
theorem witness_all_acknowledged : ∀ i, i ≤ (6 : Nibble).toNat →
    ackOf (peers (8 + sendUops * ((6 : Nibble).toNat + 1) + 7) fun _ => false) i = false := by
  intro i hi
  have h6 : (6 : Nibble).toNat = 6 := rfl
  rw [ackOf, peers_sda _ (by simp only [sendUops, ackSampleAt]; omega)]

/-- WrtxPutsItsBytesOnTheWire: a PEER that drives SDA low in the acknowledgement slots only. -/
theorem witness_wrtx_wire :
    let ps := peers (8 + sendUops * 7 + 7) fun n => decide ((n - 8) % 58 < 48)
    clockReleased ps ∧ (∀ j, j ≤ (6 : Nibble).toNat → ackOf ps j = false) ∧ dataReleased ps (6 : Nibble).toNat := by
  have h6 : (6 : Nibble).toNat = 6 := rfl
  refine ⟨peers_clock _ _, fun j hj => ?_, fun j i hj hi => ?_⟩
  · rw [ackOf, peers_sda _ (by simp only [sendUops, ackSampleAt]; omega)]
    refine decide_eq_false ?_
    simp only [sendUops, ackSampleAt]
    omega
  · rw [peers_sda _ (by simp only [sendUops]; omega)]
    refine decide_eq_true ?_
    simp only [sendUops]
    have e : 8 + 58 * j + 6 * i + 4 - 8 = 6 * i + 4 + 58 * j := by omega
    rw [e, Nat.add_mul_mod_self_left, Nat.mod_eq_of_lt (by omega)]
    omega

/-- WrtxPutsItsBytesOnTheWire: a PEER that acknowledges bytes 0 to j - 1 and not byte j: the address byte, and the last of six. -/
theorem witness_wrtx_wire_aborted : ∀ j, j = 0 ∨ j = 6 →
    let ps := peers (8 + sendUops * (j + 1) + 7) fun n => decide ((n - 8) % 58 < 48 ∨ 8 + sendUops * j ≤ n)
    clockReleased ps ∧ (∀ i, i < j → ackOf ps i = false) ∧ ackOf ps j = true ∧ dataReleased ps j := by
  intro j _
  refine ⟨peers_clock _ _, fun i hi => ?_, ?_, fun k i hk hi => ?_⟩
  · rw [ackOf, peers_sda _ (by simp only [sendUops, ackSampleAt]; omega)]
    refine decide_eq_false ?_
    simp only [sendUops, ackSampleAt]
    omega
  · rw [ackOf, peers_sda _ (by simp only [sendUops, ackSampleAt]; omega)]
    refine decide_eq_true ?_
    simp only [sendUops, ackSampleAt]
    omega
  · rw [peers_sda _ (by simp only [sendUops]; omega)]
    refine decide_eq_true (.inl ?_)
    have e : 8 + sendUops * k + 6 * i + 4 - 8 = 6 * i + 4 + 58 * k := by simp only [sendUops]; omega
    rw [e, Nat.add_mul_mod_self_left, Nat.mod_eq_of_lt (by omega)]
    omega

/-- WrtxOfAnUnwrittenEntryFaults: the last of six entries unwritten, and the first. -/
theorem witness_unwritten :
    (∀ i, i < 5 → Memory.read [(0, 1), (1, 2), (2, 3), (3, 4), (4, 5)] i ≠ none) ∧
    Memory.read [(0, 1), (1, 2), (2, 3), (3, 4), (4, 5)] 5 = none ∧ State.reset.master.txbuf.read 0 = none ∧
    (∀ i, i ≤ 5 → ackOf (peers (8 + sendUops * 6) fun _ => false) i = false) ∧
    ∀ i, i ≤ 5 → ackOf (peers (8 + sendUops * 6 + 1) fun _ => false) i = false := by
  refine ⟨by decide, by decide, by decide, fun i hi => ?_, fun i hi => ?_⟩
  all_goals rw [ackOf, peers_sda _ (by simp only [sendUops, ackSampleAt]; omega)]

/-- WriteBeforeTheSendStepIsSent: before the first data byte and before the last of six. -/
theorem witness_write_before :
    (at_ (sendSeq [.abortIfNack .af] .loadShTx) Master.reset).master.mpc = sendSeq [.abortIfNack .af] .loadShTx ++ [] ∧
    (at_ (sendSeq [.abortIfNack .df, .countByte] .loadShTx) { Master.reset with k := 4 }).master.mpc =
      sendSeq [.abortIfNack .df, .countByte] .loadShTx ++ [] ∧ 5 < State.reset.bufCap ∧ Master.reset.ackb = false := by decide

/-- WriteAfterTheSendStepIsNotSent: the same places, with the entry written before, and the longest run after the write. -/
theorem witness_write_after :
    (at_ (sendSeq [.abortIfNack .af] .loadShTx) loaded.master).master.mpc = sendSeq [.abortIfNack .af] .loadShTx ++ [] ∧
    (at_ (sendSeq [.abortIfNack .af] .loadShTx) loaded.master).master.txbuf.read 0 = some 1 ∧
    (at_ (sendSeq [.abortIfNack .df, .countByte] .loadShTx) { loaded.master with k := 4 }).master.txbuf.read 5 = some 6 ∧
    loaded.master.ackb = false ∧ ([] : List Peer).length + (List.replicate 57 Peer.released).length < sendUops := by decide

/-- RdtxOutcomes: an acknowledged address, a PEER that presents zeros. -/
theorem witness_address_ack : ackOf (peers (8 + sendUops + 51 * 6 + 7) fun _ => false) 0 = false :=
  peers_sda _ (by decide)

/-- RdtxAnswersItsBytesOnTheWire: a PEER that pulls SDA low in the acknowledgement slot of the address only. -/
theorem witness_rdtx_wire :
    let ps := peers (8 + sendUops + 51 * (6 : Nibble).toNat + 7) fun n => decide (n ≠ 62)
    clockReleased ps ∧ ackOf ps 0 = false ∧ dataReleased ps 0 := by
  have h6 : (6 : Nibble).toNat = 6 := rfl
  refine ⟨peers_clock _ _, peers_sda _ (by decide), fun j i hj hi => ?_⟩
  rw [peers_sda _ (by simp only [sendUops]; omega)]
  refine decide_eq_true ?_
  simp only [sendUops]
  omega

/-- RdtxAnswersItsBytesOnTheWire: an address that is not acknowledged. -/
theorem witness_rdtx_wire_aborted :
    let ps := peers (8 + sendUops + 7) fun _ => true
    clockReleased ps ∧ ackOf ps 0 = true ∧ dataReleased ps 0 := by
  refine ⟨peers_clock _ _, peers_sda _ (by decide), fun j i hj hi => ?_⟩
  rw [peers_sda _ (by simp only [sendUops]; omega)]

/-- TransactionsMakeOneStartAndOneStop: a PEER that acknowledges the address byte of a WRTX of no byte, and else releases SDA. -/
def ackingPeers : List Peer := peers (8 + sendUops + 7) fun n => decide (n < 57 ∨ 64 ≤ n)

/-- The records of that run. -/
def ackedRecords : List TraceRec :=
  match exec (.wrtx 0 0x60 false) State.reset with
  | .next t => (match runScript (busScript ackingPeers) t with
    | .next u => u.master.trace
    | .fault _ => []
    | .refused _ => [])
  | .fault _ => []
  | .refused _ => []

theorem witness_one_start : ackOf ackingPeers 0 = false ∧ clockReleased ackingPeers ∧ peerSda ackingPeers 3 = true ∧
    ackedRecords.length = 73 ∧ peerSda ackingPeers (73 - 1) = true ∧ steadyWhileHigh ackingPeers ackedRecords := by
  refine ⟨peers_sda _ (by decide), peers_clock _ _, peers_sda _ (by decide), by decide +kernel, peers_sda _ (by decide), ?_⟩
  have h : ∀ i, i < 73 → ∀ r ∈ ackedRecords[i]?, ∀ r' ∈ ackedRecords[i + 1]?, r.scl = true → r'.scl = true →
      peerSda ackingPeers i = peerSda ackingPeers (i + 1) := by decide +kernel
  intro i r r' hr hr'
  refine h i ?_ r hr r' hr'
  by_contra hi
  have hl : ackedRecords.length = 73 := by decide +kernel
  rw [List.getElem?_eq_none (by omega)] at hr
  cases hr

/-- HostReadsReturnTheRegisters, HostWritesStoreTheirByte: entries 0 and 5, written and not. -/
theorem witness_entries : loaded.master.txbuf.read 0 = some 1 ∧ loaded.master.txbuf.read 5 = some 6 ∧
    loaded.master.rxbuf.read 0 = some 7 ∧ loaded.master.rxbuf.read 5 = some 12 ∧ State.reset.master.txbuf.read 5 = none ∧
    State.reset.master.rxbuf.read 0 = none ∧ 5 < State.reset.bufCap := by decide

/-- ReservedOffsetsHoldNothing: an offset of each stretch, at its ends. -/
theorem witness_reserved : ∀ off ∈ ([0x06, 0x0F, 0x16, 0x1F, 0x26, 0xFF] : List Byte),
    6 ≤ off.toNat ∧ (off.toNat < 0x10 ∨ 0x10 + State.reset.bufCap ≤ off.toNat) ∧
      (off.toNat < 0x20 ∨ 0x20 + State.reset.bufCap ≤ off.toNat) := by decide

/-- The slave statements with a clause for each state of a queue or a port. -/
theorem witness_queues : (pending 0x0D { Slave.reset with outq := [10] }).slave.outq = 10 :: [] ∧
    State.reset.slave.outq = [] ∧ (pending 0x05 { Slave.reset with portRx := some 0xC0 }).slave.portRx ≠ none ∧
    State.reset.slave.semTx = false ∧ (pending 0x02 { Slave.reset with semTx := true }).slave.semTx = true := by decide

/-- SedStepsExactlyOnAPendingUnmaskedEvent, both ways; PeripheralRaisesOneEventAtATime, both ways. -/
theorem witness_sed : ((pending 0x10 Slave.reset).slave.evtPend = true ∧ (pending 0x10 Slave.reset).slave.imask = false) ∧
    ¬ (State.reset.slave.evtPend = true ∧ State.reset.slave.imask = false) ∧ State.reset.slave.hold = false ∧
    State.reset.slave.evtPend = false ∧ (pending 0x10 Slave.reset).slave.hold = true := by decide

/-- PeripheralRaisesOneEventAtATime, EventsAreSerialised: an address event may be raised from reset and, with a START, in the midst of
a transaction; without one it may not. -/
theorem witness_mayRaise : MayRaise State.reset.slave true true true (some (Config.slvAddr ++ BitVec.ofBool true)) ∧
    MayRaise State.reset.slave false false false none ∧
    MayRaise { Slave.reset with eventSeen := true } true true false none ∧
    ¬ MayRaise { Slave.reset with eventSeen := true } false true false none :=
  ⟨⟨rfl, rfl, fun _ => ⟨.inl rfl, .inr rfl⟩⟩, ⟨rfl, rfl, fun h => absurd h (by decide)⟩,
    ⟨rfl, rfl, fun _ => ⟨.inl rfl, .inl rfl⟩⟩, fun h => by simpa using (h.2.2 rfl).1⟩

theorem witness_armed : ({ Slave.reset with txArmed := true, portTx := some 7 } : Slave).txArmed = true ∧
    ({ Slave.reset with txArmed := true, portTx := some 7 } : Slave).portTx = some 7 ∧ Slave.reset.txArmed = false := by decide

/-- ReceivedBytesReachInqInOrder: an unmasked, free slave and a byte, the last BUF_CAP bytes among which it is; the queues hold at least
one. -/
theorem witness_receive : unmasked.slave.imask = false ∧ unmasked.slave.hold = false ∧ unmasked.slave.evtPend = false ∧
    [(0x2A : Byte)][0]? = some 0x2A ∧ [(0x2A : Byte)].length ≤ 0 + unmasked.bufCap ∧
    unmasked.slave.inq.length + [(0x2A : Byte)].length ≤ Config.qCap := by
  refine ⟨rfl, rfl, rfl, rfl, by decide, ?_⟩
  show 1 ≤ Config.qCapLessOne + 1
  omega

/-- OutqBytesAreTransmittedInOrder: the second of two bytes. -/
theorem witness_transmit : ([10, 20] : List Byte)[1]? = some 20 ∧ unmasked.slave.imask = false ∧ unmasked.slave.hold = false ∧
    unmasked.slave.evtPend = false := by decide

/-- TaskOperationsCompleteOrBlock: a queue with a byte, one without, one with room, one that is full. -/
theorem witness_tasks : ([4, 5] : List Byte) = 4 :: [5] ∧ State.reset.slave.inq = [] ∧
    State.reset.slave.outq.length < Config.qCap ∧ Config.qCap ≤ (List.replicate Config.qCap (0 : Byte)).length ∧
    Wait.bounded false ≠ Wait.bounded true ∧ Wait.indefinite ≠ Wait.bounded true := by
  refine ⟨rfl, rfl, Nat.succ_pos _, by simp, by decide, by decide⟩

/-- EveryStepKeepsTheInvariant: a command running beside a pending event meets the invariant, and steps. -/
theorem witness_invariant :
    let s : State := { running with slave := (pending 0x0D { Slave.reset with outq := [10] }).slave, inputs := [.sed] }
    s.Inv ∧ ∃ t, step s = .next t := by
  refine ⟨⟨?_, ?_⟩, _, rfl⟩
  · exact {
      reserved := by decide
      busyIff := by decide
      nackIsAckb := by decide
      xcntIsK := rfl
      kInRange := by decide
      bitnInRange := by decide
      idleOut := fun _ => rfl
      fits := ⟨rfl, by decide, rfl⟩
      txbufWf := rfl
      txbufFits := rfl
      rxbufWf := rfl
      rxbufFits := rfl }
  · exact {
      rxcurInRange := by decide
      txcurInRange := by decide
      srxbufWf := rfl
      srxbufFits := rfl
      vectorTop := rfl
      holdIsPend := rfl
      armedHolds := by decide
      inqBound := Nat.zero_le _
      outqBound := Nat.succ_pos _ }

/-- TheTwoSidesShareNoState: a step of each side. -/
theorem witness_sides : isMasterStep .mbb = true ∧ isMasterStep .sed = false ∧
    (∃ t, agentStep .mbb running = .next t) ∧ (∃ t, agentStep .sed (pending 0x0D Slave.reset) = .next t) :=
  ⟨rfl, rfl, ⟨_, rfl⟩, ⟨_, rfl⟩⟩

/-- NoSideSeesTheOther: two states that agree on one side only, for each side; the step goes on in both, or faults in both. -/
theorem witness_other_side :
    (MasterSideAgrees running { running with slave := unmasked.slave, slaveDraws := 7 } ∧ running.slave ≠ unmasked.slave ∧
      (∃ t, agentStep .mbb running = .next t) ∧ agentStep (.hostRead 0x10) running = .fault (.uninit .txbuf 0)) ∧
    (SlaveSideAgrees (pending 0x0D Slave.reset) { pending 0x0D Slave.reset with master := running.master, hostDraws := 7 } ∧
      (pending 0x0D Slave.reset).master ≠ running.master ∧ ∃ t, agentStep .sed (pending 0x0D Slave.reset) = .next t) :=
  ⟨⟨⟨rfl, rfl, rfl, rfl, rfl⟩, by decide, ⟨_, rfl⟩, rfl⟩, ⟨rfl, rfl, rfl, rfl, rfl⟩, by decide, ⟨_, rfl⟩⟩

/-- NoStepChangesTheParameters: a step. -/
theorem witness_step : ∃ t, step { running with inputs := [.mbb] } = .next t := ⟨_, rfl⟩

/-- ARunningCommandIsItsOwn: a step beside the running command. -/
theorem witness_running : running.master.busy = true ∧ (AgentStep.hostWrite 0x01 0x10) ≠ .masterReset ∧
    (AgentStep.hostWrite 0x01 0x10) ≠ .mbb ∧ ∃ t, agentStep (.hostWrite 0x01 0x10) running = .next t :=
  ⟨by decide, by decide, by decide, ⟨_, rfl⟩⟩

/-- OnlyUnwrittenEntriesStopTheMachine: a step that faults. -/
theorem witness_faults : step { State.reset with inputs := [.hostRead 0x10] } = .fault (.uninit .txbuf 0) ∧
    step { State.reset with inputs := [.hostRead 0x20] } = .fault (.uninit .rxbuf 0) := ⟨rfl, rfl⟩

/-- EventsAreSerialised: a masked slave, free to take an event (`witness_mayRaise`). -/
theorem witness_masked : State.reset.slave.hold = false ∧ State.reset.slave.evtPend = false ∧ State.reset.slave.imask = true := by decide

end Sys2Proof.Tests
end

section
/-! The register file of the MBB as the host sees it, and the two resets: what PINS, CMDL, TXBUF and a reset do (spec/10_state.md R38,
R42, R43, R57, R58). The rules for single offsets come first; the statements of the family are settled from them. -/

namespace Sys2Proof.Proofs

open Sys2Proof Sys2Proof.Machine Sys2Proof.Laws

/-! ### Offsets (R37) -/

/-- R9: `BUF_CAP` is at most 15, so a buffer's offsets stay within its own sixteen. -/
theorem bufCap_le (s : State) : s.bufCap ≤ 15 := by
  have := s.params.bufCapLessOne.isLt
  simp only [State.bufCap, Params.bufCap]
  omega

/-- The offset of entry `i` of TXBUF names it, at every capacity of R9. -/
theorem hostReg_txbuf {cap i : Nat} (hi : i < cap) (hcap : cap ≤ 15) :
    hostReg cap (BitVec.ofNat 8 (0x10 + i)) = .txbuf i := by
  have htoNat : (BitVec.ofNat 8 (0x10 + i)).toNat = 0x10 + i := Nat.mod_eq_of_lt (by omega)
  -- the six registers below 0x10 are other offsets
  have hne (k : Byte) (hk : k.toNat < 0x10) : BitVec.ofNat 8 (0x10 + i) ≠ k := by
    intro h
    rw [← h, htoNat] at hk
    omega
  have hin : 0x10 ≤ 0x10 + i ∧ 0x10 + i < 0x10 + cap := by omega
  simp only [hostReg, hne 0x00 (by decide), hne 0x01 (by decide), hne 0x02 (by decide), hne 0x03 (by decide), hne 0x04 (by decide),
    hne 0x05 (by decide), htoNat, txbufBase, if_false, if_pos hin, Nat.add_sub_cancel_left]

/-! ### Reads and writes of single registers -/

/-- R38. -/
theorem hostWrite_cmdl (v : Byte) (s : State) : hostWrite 0x00 v s = .next (s.onMaster fun m => { m with cmdl := v }) := rfl

/-- R38. -/
theorem hostRead_cmdl (s : State) : hostRead 0x00 s = .next (s.answerHost s.master.cmdl) := rfl

/-- R42. -/
theorem hostRead_pins (s : State) : hostRead 0x05 s = .next (s.answerHost (pinsByte s.master s.peer)) := rfl

/-- R42. -/
theorem hostWrite_pins (v : Byte) (s : State) : hostWrite 0x05 v s = .next s := rfl

/-- R43. -/
theorem hostWrite_txbuf {s : State} {i : Nat} (hi : i < s.bufCap) (v : Byte) :
    hostWrite (BitVec.ofNat 8 (0x10 + i)) v s = .next (s.onMaster fun m => { m with txbuf := m.txbuf.write i v }) := by
  simp only [hostWrite, hostReg_txbuf hi (bufCap_le s)]

/-- R43: an entry that holds a byte is read as it. -/
theorem hostRead_txbuf {s : State} {i : Nat} {v : Byte} (hi : i < s.bufCap) (hv : s.master.txbuf.read i = some v) :
    hostRead (BitVec.ofNat 8 (0x10 + i)) s = .next (s.answerHost v) := by
  simp only [hostRead, hostReg_txbuf hi (bufCap_le s), readEntry, hv]

/-! ### The bits of PINS (R42) -/

/-- R102: a Data pin that is an input is released and reads high, as one driven high does. -/
theorem sdaLevel_eq (m : Master) (p : Peer) : sdaLevel m p = ((m.sdaDir == .inp || m.sdaOut) && p.sda) := by
  unfold sdaLevel
  cases m.sdaDir <;> rfl

section
variable (m : Master) (p : Peer)

/-- PINS as single bits put one after the other, bit 0 last. -/
theorem pinsByte_eq_concat : pinsByte m p =
    (((((0 : BitVec 3).concat (sdaLevel m p)).concat (sclLevel m p)).concat (m.sdaDir == .out)).concat m.sdaOut).concat m.sclOut := by
  cases h : m.sdaDir <;> simp only [pinsByte, h] <;> rfl

/-- The five bits that PINS has. -/
theorem pinsByte_bits :
    (pinsByte m p).getLsbD 0 = m.sclOut ∧ (pinsByte m p).getLsbD 1 = m.sdaOut ∧ (pinsByte m p).getLsbD 2 = (m.sdaDir == .out) ∧
      (pinsByte m p).getLsbD 3 = sclLevel m p ∧ (pinsByte m p).getLsbD 4 = sdaLevel m p := by
  simp only [pinsByte_eq_concat, BitVec.getLsbD_concat_zero, BitVec.getLsbD_concat_succ, and_self]

theorem pinsByte_top : (pinsByte m p).extractLsb' 5 3 = 0 := by
  apply BitVec.eq_of_getLsbD_eq
  intro j _
  rw [BitVec.getLsbD_extractLsb', Nat.add_comm 5 j]
  simp only [pinsByte_eq_concat, BitVec.getLsbD_concat_succ, BitVec.ofNat_eq_ofNat, BitVec.getLsbD_zero, Bool.and_false]

end

/-! ### The resets (R197) -/

/-- R57. -/
theorem masterReset_next (s : State) : masterReset s = .next { s with master := Master.reset } := rfl

/-- R58. -/
theorem slaveReset_next (s : State) : slaveReset s = .next { s with slave := Slave.reset } := rfl

/-! ### The statements -/

/-- Settles O13: the byte read is `pinsByte`, bit by bit. -/
theorem pinsShowPinsAndLevels : Obligations.PinsShowPinsAndLevels := by
  intro s
  obtain ⟨hscl, hsda, hdir, hsclLevel, hsdaLevel⟩ := pinsByte_bits s.master s.peer
  rw [sdaLevel_eq] at hsdaLevel
  exact ⟨_, hostRead_pins s, hscl, hsda, hdir, hsclLevel, hsdaLevel, pinsByte_top .., (hostWrite_pins · s)⟩

/-- Settles O31: CMDL is one field; for TXBUF[i], reading a memory after writing it, at the entry written and at the others. -/
theorem hostWritesStoreTheirByte : Obligations.HostWritesStoreTheirByte := by
  intro s v
  constructor
  · exact ⟨_, hostWrite_cmdl v s, rfl, hostRead_cmdl _⟩
  · intro i hi
    have hsame := memory_read_write_same s.master.txbuf i v
    exact ⟨_, hostWrite_txbuf hi v, rfl, hsame, fun j hj => memory_read_write_ne s.master.txbuf v hj, hostRead_txbuf hi hsame⟩

/-- Settles O46: the state is `s` with `Master.reset` for its master side, and each field is read off that record. -/
theorem masterResetValues : Obligations.MasterResetValues := by
  intro s
  refine ⟨_, masterReset_next s, rfl, ?_⟩
  simp only [Master.reset, memory_read_nil, and_self, implies_true]

/-- Settles O47: the state is `s` with `Slave.reset` for its slave side, and each field is read off that record. -/
theorem slaveResetValues : Obligations.SlaveResetValues := by
  intro s
  refine ⟨_, slaveReset_next s, rfl, ?_⟩
  simp only [Slave.reset, memory_read_nil, and_self, implies_true]

end Sys2Proof.Proofs
end

section
/-! The rejection of command words: which words a decoder of each class rejects, which the command decoder does, and what presenting a
rejected word to an idle MBB changes (spec/30_encoding.md R83, R84, R92, R93). -/

namespace Sys2Proof.Proofs

open Sys2Proof Sys2Proof.Machine Sys2Proof.Laws

/-! ### The operand classes (R83) -/

/-- R83: a decoder that accepts under a condition rejects exactly when the condition fails. -/
theorem ite_ok_reject_rejects_iff {c : Prop} [Decidable c] (i : Instr) (e : DecodeError) :
    (∃ e', (if c then Decoded.ok i else .reject e) = .reject e') ↔ ¬ c := by
  by_cases hc : c
  · simp [hc]
  · simp [hc]

section
variable (len : Nibble) (data : Byte)

/-- R93 (b). -/
theorem decodeClassZ_rejects_iff (i : Instr) : (∃ e, decodeClassZ i len data = .reject e) ↔ len ≠ 0 ∨ data ≠ 0 :=
  (ite_ok_reject_rejects_iff ..).trans not_and_or

/-- R93 (c). -/
theorem decodeClassB_rejects_iff (mk : Byte → Instr) : (∃ e, decodeClassB mk len data = .reject e) ↔ len ≠ 0 :=
  ite_ok_reject_rejects_iff ..

/-- R93 (d). -/
theorem decodeClassA_rejects_iff (mk : Bool → Instr) :
    (∃ e, decodeClassA mk len data = .reject e) ↔ len ≠ 0 ∨ data.extractLsb' 1 7 ≠ 0 :=
  (ite_ok_reject_rejects_iff ..).trans not_and_or

/-- R93 (e). -/
theorem decodeClassT_rejects_iff (cap : Nat) (mk : Nibble → DeviceAddr → Bool → Instr) :
    (∃ e, decodeClassT cap mk len data = .reject e) ↔ cap < len.toNat := by
  refine (ite_ok_reject_rejects_iff ..).trans ?_
  simp only [countFits, decide_eq_true_eq, not_le]

end

/-! ### The command decoder (R84, R93) -/

/-- R93, clauses (a) to (e), of a word's fields. -/
def IllegalFields (cap : Nat) (op len : Nibble) (data : Byte) : Prop :=
  (op = 0x0 ∨ 0x9 ≤ op.toNat) ∨
  ((op = 0x1 ∨ op = 0x2 ∨ op = 0x4) ∧ (len ≠ 0 ∨ data ≠ 0x00)) ∨
  ((op = 0x3 ∨ op = 0x8) ∧ len ≠ 0) ∨
  (op = 0x5 ∧ (len ≠ 0 ∨ data.extractLsb' 1 7 ≠ 0)) ∨
  ((op = 0x6 ∨ op = 0x7) ∧ cap < len.toNat)

/-- R93: along the rows of R84, at most one of the five clauses speaks of an opcode, and it is what the row's class rejects. -/
theorem decodeCommand_rejects_iff (cap : Nat) (w : CommandWord) :
    (∃ e, decodeCommand cap w = .reject e) ↔ IllegalFields cap (opField w) (lenField w) (dataField w) := by
  unfold decodeCommand
  have hop {k : Nibble} (h : (opField w).toNat = k.toNat) : opField w = k := BitVec.eq_of_toNat_eq h
  split
  next h => simp [IllegalFields, hop (k := 0x1) h, decodeClassZ_rejects_iff]
  next h => simp [IllegalFields, hop (k := 0x2) h, decodeClassZ_rejects_iff]
  next h => simp [IllegalFields, hop (k := 0x3) h, decodeClassB_rejects_iff]
  next h => simp [IllegalFields, hop (k := 0x4) h, decodeClassZ_rejects_iff]
  next h => simp [IllegalFields, hop (k := 0x5) h, decodeClassA_rejects_iff]
  next h => simp [IllegalFields, hop (k := 0x6) h, decodeClassT_rejects_iff]
  next h => simp [IllegalFields, hop (k := 0x7) h, decodeClassT_rejects_iff]
  next h => simp [IllegalFields, hop (k := 0x8) h, decodeClassB_rejects_iff]
  next =>
    have hreserved : opField w = 0x0 ∨ 0x9 ≤ (opField w).toNat := by
      simp only [imp_false] at *  -- `omega` reads the excluded rows as negations
      by_cases h0 : (opField w).toNat = 0
      · exact .inl (hop h0)
      · right
        omega
    exact iff_of_true ⟨_, rfl⟩ (.inl hreserved)

/-! ### Presenting a rejected word (R92) -/

/-- R92. -/
theorem presentWord_of_reject {w : CommandWord} {s : State} {e : DecodeError} (h : decodeCommand s.bufCap w = .reject e) :
    presentWord w s = .next (s.onMaster Master.rejectIllegal) := by
  simp only [presentWord, h]

/-- R92: an idle MBB answers ILL to an illegal word, not OVR. -/
theorem rejectIllegal_of_idle {m : Master} (h : m.busy = false) : m.rejectIllegal = m.raiseIll := by
  simp only [Master.rejectIllegal, h, Bool.false_eq_true, if_false]

/-- R34, R176: a status bit after ILL is raised. -/
theorem status_raiseIll (m : Master) (j : Nat) : m.raiseIll.status.getLsbD j = if j = bitILL then true else m.status.getLsbD j :=
  status_putStatus (by decide) m true j

/-! ### The statement -/

/-- Settles O3: the decoder rejects by the five clauses, and what follows is `raiseIll`, which writes bit 5 of STATUS alone. -/
theorem illegalWordsAreThoseOfTheFiveClauses : Obligations.IllegalWordsAreThoseOfTheFiveClauses := by
  intro w s
  refine ⟨decodeCommand_rejects_iff s.bufCap w, ?_⟩
  rintro ⟨e, he⟩ hidle
  have hnext : presentWord w s = .next { s with master := s.master.raiseIll } := by
    rw [presentWord_of_reject he, State.onMaster, rejectIllegal_of_idle hidle]
  exact ⟨_, hnext, rfl, (status_raiseIll s.master bitILL).trans (if_pos rfl),
    fun j hj => (status_raiseIll s.master j).trans (if_neg hj)⟩

end Sys2Proof.Proofs
end

section
/-! A command word that is not accepted: what a busy MBB makes of every word, what an idle one makes of an illegal word, and the CMDH
write that presents either (spec/60_exceptions.md R176, R177, R182). -/

namespace Sys2Proof.Proofs

open Sys2Proof Sys2Proof.Machine Sys2Proof.Laws

/-! ### What a command word decodes to (R84) -/

/-- R83: a decoder that accepts under a condition answers its own instruction. -/
theorem eq_of_ite_ok {c : Prop} [Decidable c] {i j : Instr} {e : DecodeError}
    (h : (if c then Decoded.ok j else .reject e) = .ok i) : i = j := by
  split at h
  · exact (Decoded.ok.inj h).symm
  · cases h

/-- R84: each row's instruction is a host command, not an event. -/
theorem decodeCommand_isCommand {cap : Nat} {w : CommandWord} {i : Instr} (h : decodeCommand cap w = .ok i) :
    isCommand i = true := by
  unfold decodeCommand at h
  split at h
  case h_9 => cases h  -- the reserved opcodes are rejected
  all_goals
    rw [eq_of_ite_ok h]
    rfl

/-! ### A busy MBB (R92, R182) -/

section
variable {m : Master} (h : m.busy = true)
include h

theorem present_of_busy (op : Nibble) (data : Byte) (program : List Micro) : m.present op data program = m.raiseOvr :=
  if_pos h

theorem presentTransaction_of_busy (cap : Nat) (op len : Nibble) (data : Byte) (program : List Micro) :
    m.presentTransaction cap op len data program = m.raiseOvr :=
  if_pos h

theorem rejectIllegal_of_busy : m.rejectIllegal = m.raiseOvr :=
  if_pos h

end

/-- R92: a busy MBB answers OVR to every command. -/
theorem exec_of_busy {s : State} (h : s.master.busy = true) {i : Instr} (hi : isCommand i = true) :
    exec i s = .next (s.onMaster Master.raiseOvr) := by
  cases i with
  | start => simp only [exec, execStart, State.onMaster, present_of_busy h]
  | stop => simp only [exec, execStop, State.onMaster, present_of_busy h]
  | send b => simp only [exec, execSend, State.onMaster, present_of_busy h]
  | recv => simp only [exec, execRecv, State.onMaster, present_of_busy h]
  | resp n => simp only [exec, execResp, State.onMaster, present_of_busy h]
  | delay u => simp only [exec, execDelay, State.onMaster, present_of_busy h]
  | wrtx len addr x => simp only [exec, execWrtx, State.onMaster, presentTransaction_of_busy h]
  | rdtx len addr x => simp only [exec, execRdtx, State.onMaster, presentTransaction_of_busy h]
  | evAddrRd | evAddrWr | evTx | evRx | evEnd => cases hi

/-- R182: a busy MBB answers OVR to every word, legal or not. -/
theorem presentWord_of_busy {w : CommandWord} {s : State} (h : s.master.busy = true) :
    presentWord w s = .next (s.onMaster Master.raiseOvr) := by
  cases hw : decodeCommand s.bufCap w with
  | ok i =>
    simp only [presentWord, hw]
    exact exec_of_busy h (decodeCommand_isCommand hw)
  | reject e => rw [presentWord_of_reject hw, State.onMaster, State.onMaster, rejectIllegal_of_busy h]

/-- R176: an idle MBB answers ILL to an illegal word. -/
theorem presentWord_of_idle_of_reject {w : CommandWord} {s : State} {e : DecodeError} (h : s.master.busy = false)
    (hw : decodeCommand s.bufCap w = .reject e) : presentWord w s = .next (s.onMaster Master.raiseIll) := by
  rw [presentWord_of_reject hw, State.onMaster, State.onMaster, rejectIllegal_of_idle h]

/-! ### The CMDH write (R39) -/

/-- R39: the byte is stored and the word it completes is presented. -/
theorem hostWrite_cmdh (v : Byte) (s : State) :
    hostWrite 0x01 v s = presentWord (commandWord s.master.cmdl v) (s.onMaster fun m => { m with cmdh := v }) := rfl

/-! ### STATUS after one bit is raised (R28) -/

/-- Every other bit is kept. -/
theorem status_putStatus_true {i : Nat} (hi : i < 8) (m : Master) (j : Nat) :
    (m.putStatus i true).status.getLsbD j = (j == i || m.status.getLsbD j) :=
  (status_putStatus hi m true j).trans (Bool.if_true_left ..)

/-! ### The statements -/

/-- Settles O10: storing the byte leaves the MBB idle, and it answers the illegal word with `raiseIll`. -/
theorem illegalWriteSetsIllAlone : Obligations.IllegalWriteSetsIllAlone := by
  intro s v e hidle hillegal
  have hnext := (hostWrite_cmdh v s).trans (presentWord_of_idle_of_reject hidle hillegal)
  exact ⟨_, hnext, rfl, status_putStatus_true (by decide) _⟩

/-- Settles O11: storing the byte leaves the MBB busy, and it answers any word with `raiseOvr`. -/
theorem writeWhileBusySetsOvrAlone : Obligations.WriteWhileBusySetsOvrAlone := by
  intro s v hbusy
  have hnext := (hostWrite_cmdh v s).trans (presentWord_of_busy hbusy)
  exact ⟨_, hnext, rfl, status_putStatus_true (by decide) _⟩

end Sys2Proof.Proofs
end

section
/-! The two codes: reading the fields of a packed word gives the fields back, packing the fields of a word gives the word back, and with
them the round trips of the decoders and the encoder (spec/30_encoding.md R82 to R91). -/

namespace Sys2Proof.Proofs

open Sys2Proof Sys2Proof.Machine Sys2Proof.Laws

/-! ### Fields of a command word (R82, R85) -/

section
variable (op len : Nibble) (data : Byte)

@[simp] theorem opField_packCommand : opField (packCommand op len data) = op := by
  simp only [opField, packCommand]
  rw [BitVec.extractLsb'_append_eq_of_le (by decide)]
  exact BitVec.extractLsb'_append_eq_left

@[simp] theorem lenField_packCommand : lenField (packCommand op len data) = len := by
  simp only [lenField, packCommand]
  rw [BitVec.extractLsb'_append_eq_of_le (by decide)]
  exact BitVec.extractLsb'_append_eq_right

@[simp] theorem dataField_packCommand : dataField (packCommand op len data) = data :=
  BitVec.extractLsb'_append_eq_right

end

/-- R82: a word is its three fields. -/
theorem packCommand_fields (w : CommandWord) : packCommand (opField w) (lenField w) (dataField w) = w := by
  simp only [packCommand, opField, lenField, dataField]
  rw [BitVec.extractLsb'_append_extractLsb'_eq_extractLsb' (start₁ := 8) (start₂ := 12) (len₁ := 4) rfl]
  exact BitVec.extractLsb'_append_extractLsb'

@[simp] theorem addrField_addressByte (addr : DeviceAddr) (x : Bool) : addrField (addressByte addr x) = addr :=
  BitVec.extractLsb'_append_eq_left

@[simp] theorem addressByte_bit0 (addr : DeviceAddr) (x : Bool) : (addressByte addr x)[0] = x :=
  BitVec.getLsbD_concat_zero

/-- R85: a byte is its address form. -/
theorem addressByte_fields (b : Byte) : addressByte (addrField b) (b.getLsbD 0) = b := by
  have hlow : BitVec.ofBool (b.getLsbD 0) = b.extractLsb' 0 1 := by
    rw [← BitVec.setWidth_one]
    rfl
  rw [addressByte, addrField, hlow]
  exact BitVec.extractLsb'_append_extractLsb'

/-! ### Bits of an event vector (R89) -/

section
variable (ign : BitVec 3) (btc rd nam sto sta : Bool)

/-- A vector as single bits put one after the other, bit 0 last. -/
theorem packEvent_eq_concat :
    packEvent ign btc rd nam sto sta = ((((ign.concat btc).concat rd).concat nam).concat sto).concat sta := rfl

theorem packEvent_bits :
    (packEvent ign btc rd nam sto sta).getLsbD 0 = sta ∧ (packEvent ign btc rd nam sto sta).getLsbD 1 = sto ∧
      (packEvent ign btc rd nam sto sta).getLsbD 2 = nam ∧ (packEvent ign btc rd nam sto sta).getLsbD 3 = rd ∧
      (packEvent ign btc rd nam sto sta).getLsbD 4 = btc := by
  simp only [packEvent_eq_concat, BitVec.getLsbD_concat_zero, BitVec.getLsbD_concat_succ, and_self]

theorem packEvent_top : (packEvent ign btc rd nam sto sta).extractLsb' 5 3 = ign := by
  apply BitVec.eq_of_getLsbD_eq
  intro j hj
  rw [BitVec.getLsbD_extractLsb', Nat.add_comm 5 j]
  simp only [packEvent_eq_concat, BitVec.getLsbD_concat_succ, hj, decide_true, Bool.true_and]

/-- R90: the class is chosen by NAM, then RD, then BTC. -/
theorem decodeEvent_packEvent : decodeEvent (packEvent ign btc rd nam sto sta) =
    if nam then (if rd then .evAddrRd ign btc sto sta else .evAddrWr ign btc sto sta)
    else if rd then .evTx ign btc sto sta
    else if btc then .evRx ign sto sta
    else .evEnd ign sto sta := by
  obtain ⟨hsta, hsto, hnam, hrd, hbtc⟩ := packEvent_bits ign btc rd nam sto sta
  simp only [decodeEvent, hsta, hsto, hnam, hrd, hbtc, packEvent_top]

end

/-- R89: a vector is its bits. -/
theorem packEvent_of_bits (v : Byte) :
    packEvent (v.extractLsb' 5 3) (v.getLsbD 4) (v.getLsbD 3) (v.getLsbD 2) (v.getLsbD 1) (v.getLsbD 0) = v := by
  apply BitVec.eq_of_getLsbD_eq
  intro j hj
  rw [packEvent_eq_concat]
  match j, hj with
  | 0, _ | 1, _ | 2, _ | 3, _ | 4, _ => simp only [BitVec.getLsbD_concat_zero, BitVec.getLsbD_concat_succ]
  | j + 5, hj =>
    simp only [BitVec.getLsbD_concat_succ, BitVec.getLsbD_extractLsb', Nat.add_comm 5 j, show j < 3 by omega, decide_true,
      Bool.true_and]

/-! ### The encoder undone (R84, R90) -/

/-- Settles O1: each row's word has the row's opcode or event bits, and its other fields are the operands. -/
theorem decodeOfEncodeIsTheInstruction : Obligations.DecodeOfEncodeIsTheInstruction := by
  intro p i hwf
  cases i with
  | start | stop | recv => rfl
  | send b | delay b => simp [decode, encode, decodeCommand, decodeClassB]
  | resp n => simp [decode, encode, decodeCommand, decodeClassA]
  | wrtx len addr x | rdtx len addr x =>
    have hfits : countFits p.bufCap len = true := hwf
    simp [decode, encode, decodeCommand, decodeClassT, hfits]
  | evAddrRd | evAddrWr | evTx | evRx | evEnd => simp [decode, encode, decodeEvent_packEvent]

/-! ### The decoders undone (R83, R84, R90) -/

section
variable {len : Nibble} {data : Byte} {i : Instr}

/-- R83, class Z: an accepted word has no operand. -/
theorem decodeClassZ_ok {j : Instr} (h : decodeClassZ j len data = .ok i) : len = 0 ∧ data = 0 ∧ i = j := by
  unfold decodeClassZ at h
  split at h
  next hc => exact ⟨hc.1, hc.2, (Decoded.ok.inj h).symm⟩
  next => cases h

/-- R83, class B. -/
theorem decodeClassB_ok {mk : Byte → Instr} (h : decodeClassB mk len data = .ok i) : len = 0 ∧ i = mk data := by
  unfold decodeClassB at h
  split at h
  next hc => exact ⟨hc, (Decoded.ok.inj h).symm⟩
  next => cases h

/-- R83, class A: the operand byte is its bit 0. -/
theorem decodeClassA_ok {mk : Bool → Instr} (h : decodeClassA mk len data = .ok i) :
    len = 0 ∧ ∃ n, data = addressByte 0 n ∧ i = mk n := by
  unfold decodeClassA at h
  split at h
  next hc =>
    refine ⟨hc.1, data.getLsbD 0, ?_, (Decoded.ok.inj h).symm⟩
    rw [← hc.2, addressByte_fields]
  next => cases h

/-- R83, class T: the count fits, and the operand byte is an address form. -/
theorem decodeClassT_ok {cap : Nat} {mk : Nibble → DeviceAddr → Bool → Instr} (h : decodeClassT cap mk len data = .ok i) :
    countFits cap len = true ∧ ∃ addr x, data = addressByte addr x ∧ i = mk len addr x := by
  unfold decodeClassT at h
  split at h
  next hc => exact ⟨hc, addrField data, data.getLsbD 0, (addressByte_fields data).symm, (Decoded.ok.inj h).symm⟩
  next => cases h

end

/-- R82: a word is packed from what its fields are. -/
theorem encode_eq_command {w : CommandWord} {i : Instr} {op len : Nibble} {data : Byte}
    (hi : encode i = .command (packCommand op len data)) (hop : (opField w).toNat = op.toNat) (hlen : lenField w = len)
    (hdata : dataField w = data) : encode i = .command w := by
  rw [hi, ← BitVec.eq_of_toNat_eq hop, ← hlen, ← hdata, packCommand_fields]

/-- R84: an accepted command word is the encoding of its instruction, which is well formed. -/
theorem encode_of_decodeCommand {cap : Nat} {w : CommandWord} {i : Instr} (h : decodeCommand cap w = .ok i) :
    encode i = .command w ∧ i.wellFormed cap = true := by
  unfold decodeCommand at h
  split at h
  case h_1 hop | h_2 hop | h_4 hop =>
    obtain ⟨hlen, hdata, rfl⟩ := decodeClassZ_ok h
    exact ⟨encode_eq_command rfl hop hlen hdata, rfl⟩
  case h_3 hop | h_8 hop =>
    obtain ⟨hlen, rfl⟩ := decodeClassB_ok h
    exact ⟨encode_eq_command rfl hop hlen rfl, rfl⟩
  case h_5 hop =>
    obtain ⟨hlen, n, hdata, rfl⟩ := decodeClassA_ok h
    exact ⟨encode_eq_command rfl hop hlen hdata, rfl⟩
  case h_6 hop | h_7 hop =>
    obtain ⟨hfits, addr, x, hdata, rfl⟩ := decodeClassT_ok h
    exact ⟨encode_eq_command rfl hop rfl hdata, hfits⟩
  case h_9 => cases h

/-- R90: along the branches on NAM, RD and BTC, the class packs the bits it was chosen by. -/
theorem encode_decodeEvent (v : Byte) : encode (decodeEvent v) = .event v := by
  conv_rhs => rw [← packEvent_of_bits v]
  unfold decodeEvent
  cases v.getLsbD 2 <;> cases v.getLsbD 3 <;> cases v.getLsbD 4 <;> rfl

/-- Every event instruction is well formed. -/
theorem decodeEvent_wellFormed (cap : Nat) (v : Byte) : (decodeEvent v).wellFormed cap = true := by
  unfold decodeEvent
  repeat' split
  all_goals rfl

/-- Settles O2: a command word by the rows of R84, an event vector by those of R90. -/
theorem encodeOfDecodeIsTheWord : Obligations.EncodeOfDecodeIsTheWord := by
  intro p c i h
  cases c with
  | command w => exact encode_of_decodeCommand h
  | event v =>
    obtain rfl : decodeEvent v = i := Decoded.ok.inj h
    exact ⟨encode_decodeEvent v, decodeEvent_wellFormed p.bufCap v⟩

/-! ### The classes of the event vectors (R90, R91) -/

/-- The bits that the conditions of R90 ask of a vector: NAM and RD, or those and BTC. -/
theorem conditions_of_packEvent (ign : BitVec 3) (btc rd nam sto sta : Bool) :
    packEvent ign btc rd nam sto sta &&& 0x0C = packEvent 0 false rd nam false false ∧
      packEvent ign btc rd nam sto sta &&& 0x1C = packEvent 0 btc rd nam false false := by
  revert ign btc rd nam sto sta
  decide

/-- R91: bits 7:5 are kept in the instruction and nothing `exec` does reads them. -/
theorem exec_packEvent_ign (ign ign' : BitVec 3) (btc rd nam sto sta : Bool) (s : State) :
    exec (decodeEvent (packEvent ign btc rd nam sto sta)) s = exec (decodeEvent (packEvent ign' btc rd nam sto sta)) s := by
  simp only [decodeEvent_packEvent]
  cases nam <;> cases rd <;> cases btc <;> rfl

/-- Replacing bits 7:5 of a vector. -/
theorem append_low_packEvent (top ign : BitVec 3) (btc rd nam sto sta : Bool) :
    top ++ (packEvent ign btc rd nam sto sta).extractLsb' 0 5 = packEvent top btc rd nam sto sta := by
  revert ign btc rd nam sto sta top
  decide

/-- Settles O4: NAM, RD and BTC of the vector decide both which condition holds and which class it decodes to. -/
theorem everyEventVectorHasOneClass : Obligations.EveryEventVectorHasOneClass := by
  intro v
  rw [← packEvent_of_bits v]
  generalize v.extractLsb' 5 3 = ign, v.getLsbD 4 = btc, v.getLsbD 3 = rd, v.getLsbD 2 = nam, v.getLsbD 1 = sto,
    v.getLsbD 0 = sta
  obtain ⟨hsta, hsto, -⟩ := packEvent_bits ign btc rd nam sto sta
  obtain ⟨h0C, h1C⟩ := conditions_of_packEvent ign btc rd nam sto sta
  simp only [append_low_packEvent, exec_packEvent_ign _ ign, implies_true, and_true]
  simp only [h0C, h1C, hsta, hsto, decodeEvent_packEvent]
  cases nam <;> cases rd <;> cases btc <;> simp +decide

/-- Settles O5: each word is decoded by evaluation. -/
theorem writtenOutWordsDecode : Obligations.WrittenOutWordsDecode := by
  unfold Obligations.WrittenOutWordsDecode
  decide

end Sys2Proof.Proofs
end

section
/-! The invariant of the master side: what each piece of control, each uop and each line keeps, along the walk by which `programFits`
foresees the rest of the program; and what a host access keeps (spec/10_state.md R25 to R46, spec/41_master_byte.md R116). -/

namespace Sys2Proof.Proofs

open Sys2Proof Sys2Proof.Machine Sys2Proof.Laws

/-! ### A walk only counts up, and never recovers from a fault -/

/-- A walk that has gone on from `w` to `w'`: whatever was wrong is still wrong, and K has not fallen. -/
def GoesTo (w w' : Walk) : Prop := (w'.ok = true → w.ok = true) ∧ w.k ≤ w'.k

theorem goesTo_trans {w w' w'' : Walk} (h : GoesTo w w') (h' : GoesTo w' w'') : GoesTo w w'' :=
  ⟨h.1 ∘ h'.1, h.2.trans h'.2⟩

theorem goesTo_foldl {α : Type} {f : Walk → α → Walk} (hf : ∀ w a, GoesTo w (f w a)) (l : List α) (w : Walk) :
    GoesTo w (l.foldl f w) := by
  induction l generalizing w with
  | nil => exact ⟨id, le_rfl⟩
  | cons a l ih => exact goesTo_trans (hf w a) (ih (f w a))

theorem goesTo_control (cap : Nat) (w : Walk) (c : Control) : GoesTo w (c.walk cap w) := by
  cases c <;> simp +contextual [GoesTo, Control.walk]

theorem goesTo_uop (w : Walk) (u : ProgUop) : GoesTo w (u.walk w) := by
  cases u with
  | sample dst => cases dst <;> exact ⟨id, le_rfl⟩
  | scl | sda | sdaOe | wait => exact ⟨id, le_rfl⟩

/-- A walk without a fault whose acknowledgement is reported. -/
theorem walk_faultless {w : Walk} (hok : w.ok = true) (hrep : w.reported = true) :
    w = ⟨w.k, w.bitn, w.dir, true, true⟩ := by
  cases w
  cases hok
  cases hrep
  rfl

/-- What the walk of a line does after the control before its uop. -/
def walkFromUop (cap : Nat) (w : Walk) (u : Micro) : Walk :=
  let w' := u.post.foldl (Control.walk cap) (u.uop.walk w)
  { w' with ok := w'.ok && w'.reported }

theorem micro_walk_eq (cap : Nat) (w : Walk) (u : Micro) :
    u.walk cap w = walkFromUop cap (u.pre.foldl (Control.walk cap) w) u := rfl

theorem goesTo_walkFromUop (cap : Nat) (w : Walk) (u : Micro) : GoesTo w (walkFromUop cap w u) := by
  have hpost := goesTo_foldl (goesTo_control cap) u.post (u.uop.walk w)
  refine goesTo_trans (goesTo_trans (goesTo_uop w u.uop) hpost) ⟨fun h => ?_, le_rfl⟩
  exact (Bool.and_eq_true _ _ ▸ h).1

theorem goesTo_micro (cap : Nat) (w : Walk) (u : Micro) : GoesTo w (u.walk cap w) :=
  goesTo_trans (goesTo_foldl (goesTo_control cap) u.pre w) (goesTo_walkFromUop cap _ u)

/-- From `w`, the program keeps every index and count in range and ends with Data an output. -/
def WalkFits (cap : Nat) (w : Walk) (p : List Micro) : Prop :=
  (walkProgram cap w p).ok = true ∧ (walkProgram cap w p).k ≤ cap ∧ (walkProgram cap w p).dir = .out

theorem walkFits_cons {cap : Nat} {w : Walk} {u : Micro} {p : List Micro} :
    WalkFits cap w (u :: p) ↔ WalkFits cap (u.walk cap w) p := Iff.rfl

/-- A program that fits fits at its start. -/
theorem WalkFits.start {cap : Nat} {w : Walk} {p : List Micro} (h : WalkFits cap w p) : w.ok = true ∧ w.k ≤ cap := by
  have hgo : GoesTo w (walkProgram cap w p) := goesTo_foldl (goesTo_micro cap) p w
  exact ⟨hgo.1 h.1, hgo.2.trans h.2.1⟩

/-- STOP_SEQ, to which an abort goes, fits wherever the walk has met no fault. -/
theorem walkFits_stopSeq {cap : Nat} {w : Walk} (hok : w.ok = true) (hrep : w.reported = true) (hk : w.k ≤ cap) :
    WalkFits cap w stopSeq := by
  obtain ⟨k, bitn, dir, reported, ok⟩ := w
  subst hok hrep
  exact ⟨rfl, hk, rfl⟩

/-! ### A running master side beside its walk -/

/-- A busy master side is where the walk says, and all else that the invariant says of it holds; NACK may lag behind ACKB within the line
that samples it. -/
structure Tracks (cap : Nat) (w : Walk) (m : Master) : Prop where
  kIs : w.k = m.k
  bitnIs : w.bitn = m.bitn
  dirIs : w.dir = m.sdaDir
  reserved : m.status.getLsbD 7 = false
  busy : m.busy = true
  nackIsAckb : w.reported = true → m.nack = m.ackb
  xcntIsK : m.xcnt = BitVec.ofNat 8 m.k
  bitnInRange : m.bitn ≤ 8
  txbufWf : m.txbuf.wf = true
  txbufFits : m.txbuf.fits cap = true
  rxbufWf : m.rxbuf.wf = true
  rxbufFits : m.rxbuf.fits cap = true

/-- Writing a status bit other than BUSY, NACK and bit 7 goes unnoticed. -/
theorem Tracks.putStatus {cap : Nat} {w : Walk} {m : Master} (h : Tracks cap w m) {i : Nat} (hi : i < 7) (h0 : i ≠ bitBUSY)
    (h2 : i ≠ bitNACK) (b : Bool) : Tracks cap w (m.putStatus i b) := by
  have hkeep (j : Nat) (hj : j ≠ i) : (m.putStatus i b).status.getLsbD j = m.status.getLsbD j :=
    (status_putStatus (by omega) m b j).trans (if_neg hj)
  exact { h with
    reserved := (hkeep 7 (by omega)).trans h.reserved
    busy := (hkeep bitBUSY h0.symm).trans h.busy
    nackIsAckb := fun hr => (hkeep bitNACK h2.symm).trans (h.nackIsAckb hr) }

/-- One piece of control that does not branch. -/
theorem Tracks.runControl {cap : Nat} {w : Walk} {m m' : Master} {c : Control} (h : Tracks cap w m)
    (hc : ∀ f, c ≠ .abortIfNack f) (hok : (c.walk cap w).ok = true) (hrun : m.runControl c = .ok m') :
    Tracks cap (c.walk cap w) m' ∧ m'.mpc = m.mpc := by
  cases c with
  | loadShTx =>
    simp only [Master.runControl] at hrun
    split at hrun
    · cases hrun
      exact ⟨{ h with }, rfl⟩
    · cases hrun
  | countBit =>
    cases hrun
    simp only [Control.walk, Bool.and_eq_true, decide_eq_true_eq, h.bitnIs] at hok
    exact ⟨{ h with bitnIs := congrArg (· + 1) h.bitnIs, bitnInRange := hok.2 }, rfl⟩
  | reportAck =>
    cases hrun
    have hkeep (j : Nat) (hj : j ≠ bitNACK) : (m.putStatus bitNACK m.ackb).status.getLsbD j = m.status.getLsbD j :=
      (status_putStatus (by decide) m m.ackb j).trans (if_neg hj)
    exact ⟨{ h with
      reserved := (hkeep 7 (by decide)).trans h.reserved
      busy := (hkeep bitBUSY (by decide)).trans h.busy
      nackIsAckb := fun _ => nack_putNACK m m.ackb }, rfl⟩
  | shiftRbUnlessLast =>
    cases hrun
    split
    · exact ⟨{ h with }, rfl⟩
    · exact ⟨h, rfl⟩
  | storeRxbuf =>
    cases hrun
    simp only [Control.walk, Bool.and_eq_true, decide_eq_true_eq, h.kIs] at hok
    exact ⟨{ h with
      rxbufWf := memory_write_wf m.k m.rb h.rxbufWf
      rxbufFits := memory_write_fits m.rb hok.2 h.rxbufFits }, rfl⟩
  | countByte =>
    cases hrun
    exact ⟨{ h with kIs := congrArg (· + 1) h.kIs, xcntIsK := rfl }, rfl⟩
  | clearBitn =>
    cases hrun
    exact ⟨{ h with bitnIs := rfl, bitnInRange := Nat.zero_le 8 }, rfl⟩
  | loadShData | loadShAddr | shiftSh | clearRb | storeRxdata =>
    cases hrun
    exact ⟨{ h with }, rfl⟩
  | abortIfNack f => exact absurd rfl (hc f)

/-- A taken abort: MPC at STOP_SEQ, and a failure bit set. -/
theorem Tracks.abort {cap : Nat} {w : Walk} {m : Master} (h : Tracks cap w m) (f : FailBit) :
    Tracks cap w { m.putStatus f.index true with mpc := stopSeq } := by
  cases f with
  | af => exact { h.putStatus (i := bitAF) (by decide) (by decide) (by decide) true with }
  | df => exact { h.putStatus (i := bitDF) (by decide) (by decide) (by decide) true with }

/-- The control of one place either runs to its end, as the walk foresees, or leaves by an abort, from a point the walk has passed. -/
theorem Tracks.runControls {cap : Nat} {w : Walk} {m m' : Master} {cs : List Control} (h : Tracks cap w m)
    (hok : (cs.foldl (Control.walk cap) w).ok = true) (hrun : Master.runControls cs m = .ok m') :
    (Tracks cap (cs.foldl (Control.walk cap) w) m' ∧ m'.mpc = m.mpc) ∨
    ∃ w', Tracks cap w' m' ∧ m'.mpc = stopSeq ∧ w'.ok = true ∧ w'.reported = true ∧
      w'.k ≤ (cs.foldl (Control.walk cap) w).k := by
  induction cs generalizing w m with
  | nil =>
    cases hrun
    exact .inl ⟨h, rfl⟩
  | cons c cs ih =>
    have hgo := goesTo_foldl (goesTo_control cap) cs (c.walk cap w)
    have hcok : (c.walk cap w).ok = true := hgo.1 hok
    by_cases hc : ∃ f, c = .abortIfNack f
    · obtain ⟨f, rfl⟩ := hc
      simp only [Control.walk, Bool.and_eq_true] at hcok
      simp only [Master.runControls] at hrun
      split at hrun
      next hack =>
        simp only [Master.runControl, hack, if_true] at hrun
        cases hrun
        exact .inr ⟨w, h.abort f, rfl, hcok.1, hcok.2, hgo.2⟩
      next =>
        have hw : (Control.abortIfNack f).walk cap w = w := by
          simp only [Control.walk, hcok.1, hcok.2, Bool.and_self]
          exact (walk_faultless hcok.1 hcok.2).symm
        rw [List.foldl_cons, hw] at hok ⊢
        exact ih h hok hrun
    · have hc' : ∀ f, c ≠ .abortIfNack f := fun f hf => hc ⟨f, hf⟩
      rw [runControls_cons hc'] at hrun
      split at hrun
      next m1 hm1 =>
        obtain ⟨h1, hmpc1⟩ := h.runControl hc' hcok hm1
        exact (ih h1 hok hrun).imp_left (fun ⟨h', hmpc⟩ => ⟨h', hmpc.trans hmpc1⟩)
      next => cases hrun

/-- The uop alone, its record, and MPC moved on. -/
theorem Tracks.doUop {cap : Nat} {w : Walk} {m : Master} (h : Tracks cap w m) (p : Peer) (u : ProgUop) (rest : List Micro) (r : Uop) :
    Tracks cap (u.walk w) (Master.record { (m.doUop p u).2 with mpc := rest } p r) := by
  cases u with
  | sdaOe d => exact { h with dirIs := rfl }
  | sample dst =>
    cases dst with
    | ackb => exact { h with nackIsAckb := fun hr => nomatch hr }
    | rb => exact { h with }
  | scl | sda | wait => exact { h with }

/-! ### The invariant of the master side -/

/-- R30: a status bit after FINISH. -/
theorem status_finish (m : Master) (j : Nat) :
    m.finish.status.getLsbD j = if j = bitBUSY then false else if j = bitDONE then true else m.status.getLsbD j := by
  simp only [Master.finish, putStatus_status, getLsbD_putBit (i := bitBUSY) (by decide), getLsbD_putBit (i := bitDONE) (by decide)]

theorem masterInv_tracks {cap : Nat} {m : Master} (h : m.Inv cap) (hmpc : m.mpc ≠ []) :
    Tracks cap ⟨m.k, m.bitn, m.sdaDir, true, true⟩ m :=
  { h with kIs := rfl, bitnIs := rfl, dirIs := rfl, busy := h.busyIff.2 hmpc, nackIsAckb := fun _ => h.nackIsAckb }

/-- FINISH, if MPC has reached its program's end. -/
def finishIfDone (m : Master) : Master :=
  match m.mpc with
  | [] => m.finish
  | _ :: _ => m

/-- A line done, with the rest of the program still fitting, FINISH included. -/
theorem Tracks.inv {cap : Nat} {w : Walk} {m : Master} (h : Tracks cap w m) (hrep : w.reported = true)
    (hfits : WalkFits cap w m.mpc) : (finishIfDone m).Inv cap := by
  obtain ⟨hok, hk⟩ := hfits.start
  have hw : w = ⟨m.k, m.bitn, m.sdaDir, true, true⟩ := by
    rw [← h.kIs, ← h.bitnIs, ← h.dirIs]
    exact walk_faultless hok hrep
  have hnack := h.nackIsAckb hrep
  rw [h.kIs] at hk
  cases hm : m.mpc with
  | nil =>
    rw [hm] at hfits
    have hdir : m.sdaDir = .out := h.dirIs ▸ hfits.2.2
    have hfin : finishIfDone m = m.finish := by simp only [finishIfDone, hm]
    rw [hfin]
    exact {
      reserved := (status_finish m 7).trans h.reserved
      busyIff := iff_of_false (ne_true_of_eq_false (status_finish m bitBUSY)) (fun hne => hne rfl)
      nackIsAckb := (status_finish m bitNACK).trans hnack
      xcntIsK := h.xcntIsK
      kInRange := hk
      bitnInRange := h.bitnInRange
      idleOut := fun _ => hdir
      fits := ⟨rfl, hk, hdir⟩
      txbufWf := h.txbufWf
      txbufFits := h.txbufFits
      rxbufWf := h.rxbufWf
      rxbufFits := h.rxbufFits }
  | cons u rest =>
    have hrun : finishIfDone m = m := by simp only [finishIfDone, hm]
    have hne : m.mpc ≠ [] := by simp [hm]
    rw [hrun]
    exact { h with
      busyIff := iff_of_true h.busy hne
      nackIsAckb := hnack
      kInRange := hk
      idleOut := fun h0 => absurd h0 hne
      fits := (hw ▸ hfits : WalkFits cap ⟨m.k, m.bitn, m.sdaDir, true, true⟩ m.mpc) }

/-- The same before the program's end. -/
theorem Tracks.running {cap : Nat} {w : Walk} {m : Master} (h : Tracks cap w m) (hrep : w.reported = true)
    (hfits : WalkFits cap w m.mpc) (hne : m.mpc ≠ []) : m.Inv cap := by
  have hrun : finishIfDone m = m := by
    unfold finishIfDone
    split
    · contradiction
    · rfl
  exact hrun ▸ h.inv hrep hfits

theorem performUop_eq (m : Master) (p : Peer) (u : Micro) (rest : List Micro) : m.performUop p u rest =
    mapOk finishIfDone
      (Master.runControls u.post (Master.record { (m.doUop p u.uop).2 with mpc := rest } p (m.doUop p u.uop).1)) := by
  simp only [Master.performUop]
  cases Master.runControls u.post _ <;> rfl

/-- The uop at MPC with the control after it. -/
theorem Tracks.performUop {cap : Nat} {w : Walk} {m m' : Master} {p : Peer} {u : Micro} {rest : List Micro} (h : Tracks cap w m)
    (hfits : WalkFits cap (walkFromUop cap w u) rest) (hrun : m.performUop p u rest = .ok m') : m'.Inv cap := by
  obtain ⟨hok, hk⟩ := hfits.start
  obtain ⟨hpostOk, hrep⟩ := Bool.and_eq_true_iff.1 hok
  rw [performUop_eq] at hrun
  cases hpost : Master.runControls u.post (Master.record { (m.doUop p u.uop).2 with mpc := rest } p (m.doUop p u.uop).1) with
  | error e =>
    rw [hpost] at hrun
    cases hrun
  | ok m1 =>
    rw [hpost] at hrun
    cases hrun
    rcases (h.doUop p u.uop rest (m.doUop p u.uop).1).runControls hpostOk hpost with ⟨h1, hmpc⟩ | ⟨w', h1, hmpc, hok', hrep', hk'⟩
    · have hw : walkFromUop cap w u = u.post.foldl (Control.walk cap) (u.uop.walk w) := by
        simp only [walkFromUop, hpostOk, hrep, Bool.and_self]
        rw [walk_faultless hpostOk hrep]
      refine h1.inv hrep ?_
      rw [hmpc, ← hw]
      exact hfits
    · refine h1.inv hrep' ?_
      rw [hmpc]
      exact walkFits_stopSeq hok' hrep' (hk'.trans hk)

/-- R116: the MBB's step keeps the invariant. -/
theorem masterInv_step {cap : Nat} {m m' : Master} {p : Peer} (h : m.Inv cap) (hstep : m.step p = .ok m') : m'.Inv cap := by
  unfold Master.step at hstep
  split at hstep
  next => exact Except.ok.inj hstep ▸ h
  next u rest hm =>
    have hfits : WalkFits cap (walkFromUop cap (u.pre.foldl (Control.walk cap) ⟨m.k, m.bitn, m.sdaDir, true, true⟩) u) rest := by
      have := h.fits
      rw [Master.programFits, hm] at this
      exact this
    have hgo := goesTo_walkFromUop cap (u.pre.foldl (Control.walk cap) ⟨m.k, m.bitn, m.sdaDir, true, true⟩) u
    have hpreOk := hgo.1 hfits.start.1
    split at hstep
    next m1 hm1 =>
      rcases (masterInv_tracks h (by simp [hm])).runControls hpreOk hm1 with ⟨h1, hmpc⟩ | ⟨w', h1, hmpc, hok', hrep', hk'⟩
      · rw [hmpc, hm] at hstep
        exact h1.performUop hfits hstep
      · rw [hmpc] at hstep
        have hstop := walkFits_stopSeq hok' hrep' (hk'.trans (hgo.2.trans hfits.start.2))
        exact h1.performUop (walkFits_cons.1 hstop) hstep
    next => cases hstep

end Sys2Proof.Proofs
end

section
/-! The invariant of the whole machine: what presenting a command keeps, what each bridge primitive of the SED keeps, and from them that
every step of every agent keeps it (spec/30_encoding.md R92, spec/43_slave_dispatcher.md R148 to R159). -/

namespace Sys2Proof.Proofs

open Sys2Proof Sys2Proof.Machine Sys2Proof.Laws

/-! ### The programs of the commands fit -/

theorem walkProgram_append (cap : Nat) (w : Walk) (p q : List Micro) :
    walkProgram cap w (p ++ q) = walkProgram cap (walkProgram cap w p) q := List.foldl_append

/-- Control put before a line is walked before it. -/
theorem walkProgram_withPre (cap : Nat) (w : Walk) (cs : List Control) (u : Micro) (p : List Micro) :
    walkProgram cap w (withPre cs (u :: p)) = walkProgram cap (cs.foldl (Control.walk cap) w) (u :: p) := by
  simp only [walkProgram, withPre, List.foldl_cons, Micro.walk, List.foldl_append]

theorem walkFits_append {cap : Nat} {w : Walk} {p q : List Micro} :
    WalkFits cap w (p ++ q) ↔ WalkFits cap (walkProgram cap w p) q := by
  simp only [WalkFits, walkProgram_append]

section
variable {cap k : Nat}

/-- A send sequence leaves K as the control before it has it. -/
theorem walk_sendSeq {w : Walk} {before : List Control} {load : Control} {bitn : Nat} {dir : Dir}
    (h : (before ++ [load]).foldl (Control.walk cap) w = ⟨k, bitn, dir, true, true⟩) :
    walkProgram cap w (sendSeq before load) = ⟨k, 8, .out, true, true⟩ := by
  have hpre : (before ++ [load, .clearBitn]).foldl (Control.walk cap) w = ⟨k, 0, dir, true, true⟩ := by
    rw [List.append_cons, List.foldl_append, h]
    rfl
  refine (walkProgram_withPre ..).trans ?_
  rw [hpre]
  rfl

/-- A byte received and answered leaves K as the control before it has it. -/
theorem walk_recvSeq_respSeq {w : Walk} {before : List Control} {bitn : Nat} {dir : Dir} (hk : k < cap)
    (h : before.foldl (Control.walk cap) w = ⟨k, bitn, dir, true, true⟩) :
    walkProgram cap w (recvSeq before [.storeRxdata, .storeRxbuf] ++ respSeq .nackIfLast) = ⟨k, 8, .out, true, true⟩ := by
  have hpre : (before ++ [Control.clearRb, .clearBitn]).foldl (Control.walk cap) w = ⟨k, 0, dir, true, true⟩ := by
    rw [List.foldl_append, h]
    rfl
  have hrecv : walkProgram cap w (recvSeq before [.storeRxdata, .storeRxbuf]) = ⟨k, 8, .out, true, decide (k < cap)⟩ := by
    refine (walkProgram_withPre ..).trans ?_
    rw [hpre]
    cases h : decide (k < cap) <;> simp [walkProgram, repeatSeq, recvBit, recvEnd, line, Micro.walk, Control.walk, ProgUop.walk, h]
  rw [walkProgram_append, hrecv, decide_eq_true hk]
  rfl

/-- R133: from the control after a byte, with as many bytes to come as K leaves room for. -/
theorem walkFits_wrtxTail {n : Nat} {closing : List Control} {w : Walk}
    (h : closing.foldl (Control.walk cap) w = ⟨k, 8, .out, true, true⟩) (hk : k + n ≤ cap) : WalkFits cap w (wrtxTail n closing) := by
  induction n generalizing k closing w with
  | zero =>
    have hstop : WalkFits cap ⟨k, 8, .out, true, true⟩ stopSeq := walkFits_stopSeq rfl rfl hk
    rw [← h] at hstop
    simpa only [WalkFits, wrtxTail, stopSeq, walkProgram_withPre] using hstop
  | succ n ih =>
    have hload : (closing ++ [Control.loadShTx]).foldl (Control.walk cap) w = ⟨k, 8, .out, true, true⟩ := by
      rw [List.foldl_append, h]
      simp [Control.walk, show k < cap by omega]
    rw [wrtxTail, walkFits_append, walk_sendSeq hload]
    exact ih (k := k + 1) rfl (by omega)

/-- R137, likewise. -/
theorem walkFits_rdtxTail {n : Nat} {closing : List Control} {w : Walk}
    (h : closing.foldl (Control.walk cap) w = ⟨k, 8, .out, true, true⟩) (hk : k + n ≤ cap) : WalkFits cap w (rdtxTail n closing) := by
  induction n generalizing k closing w with
  | zero =>
    have hstop : WalkFits cap ⟨k, 8, .out, true, true⟩ stopSeq := walkFits_stopSeq rfl rfl hk
    rw [← h] at hstop
    simpa only [WalkFits, rdtxTail, stopSeq, walkProgram_withPre] using hstop
  | succ n ih =>
    rw [rdtxTail, walkFits_append, walk_recvSeq_respSeq (by omega) h]
    exact ih (k := k + 1) rfl (by omega)

/-- A program that is one, and fits from K, with Data an output. -/
def FitsAt (cap k bitn : Nat) (p : List Micro) : Prop := p ≠ [] ∧ WalkFits cap ⟨k, bitn, .out, true, true⟩ p

theorem fitsAt_startProgram (bitn : Nat) (hk : k ≤ cap) : FitsAt cap k bitn startProgram := ⟨nofun, rfl, hk, rfl⟩

theorem fitsAt_stopProgram (bitn : Nat) (hk : k ≤ cap) : FitsAt cap k bitn stopProgram := ⟨nofun, rfl, hk, rfl⟩

theorem fitsAt_sendProgram (bitn : Nat) (hk : k ≤ cap) : FitsAt cap k bitn sendProgram := by
  have hwalk : walkProgram cap ⟨k, bitn, .out, true, true⟩ sendProgram = ⟨k, 8, .out, true, true⟩ := walk_sendSeq rfl
  exact ⟨nofun, by simp only [WalkFits, hwalk, hk, and_self]⟩

theorem fitsAt_recvProgram (bitn : Nat) (hk : k ≤ cap) : FitsAt cap k bitn recvProgram := by
  have hwalk : walkProgram cap ⟨k, bitn, .out, true, true⟩ recvProgram = ⟨k, 8, .out, true, true⟩ := rfl
  exact ⟨nofun, by simp only [WalkFits, hwalk, hk, and_self]⟩

theorem fitsAt_respProgram (bitn : Nat) (hk : k ≤ cap) : FitsAt cap k bitn respProgram := ⟨nofun, rfl, hk, rfl⟩

theorem fitsAt_delayProgram (bitn : Nat) (hk : k ≤ cap) : FitsAt cap k bitn delayProgram := ⟨nofun, rfl, hk, rfl⟩

theorem fitsAt_wrtxProgram {n : Nat} (bitn : Nat) (hn : n ≤ cap) : FitsAt cap 0 bitn (wrtxProgram n) := by
  refine ⟨nofun, ?_⟩
  rw [wrtxProgram, walkFits_append, walkProgram_append, walk_sendSeq (k := 0) rfl]
  exact walkFits_wrtxTail (k := 0) rfl (by omega)

theorem fitsAt_rdtxProgram {n : Nat} (bitn : Nat) (hn : n ≤ cap) : FitsAt cap 0 bitn (rdtxProgram n) := by
  refine ⟨nofun, ?_⟩
  rw [rdtxProgram, walkFits_append, walkProgram_append, walk_sendSeq (k := 0) rfl]
  exact walkFits_rdtxTail (k := 0) rfl (by omega)

end

/-! ### Presenting a command (R92) -/

/-- A status bit after acceptance. -/
theorem status_accept (m : Master) (op len : Nibble) (data : Byte) (program : List Micro) (j : Nat) :
    (m.accept op len data program).status.getLsbD j = if j = bitBUSY then true else if j = bitDONE then false else m.status.getLsbD j := by
  simp only [Master.accept, putStatus_status, getLsbD_putBit (i := bitBUSY) (by decide), getLsbD_putBit (i := bitDONE) (by decide)]

section
variable {cap : Nat} {m : Master} (h : m.Inv cap)
include h

theorem masterInv_cmdl (v : Byte) : Master.Inv cap { m with cmdl := v } := { h with fits := h.fits }

theorem masterInv_cmdh (v : Byte) : Master.Inv cap { m with cmdh := v } := { h with fits := h.fits }

theorem masterInv_txbuf {i : Nat} (hi : i < cap) (v : Byte) : Master.Inv cap { m with txbuf := m.txbuf.write i v } :=
  { h with
    txbufWf := memory_write_wf i v h.txbufWf
    txbufFits := memory_write_fits v hi h.txbufFits
    fits := h.fits }

/-- A write of STATUS that keeps BUSY, NACK and bit 7. -/
theorem masterInv_status {v : Byte} (hkeep : ∀ j, j = bitBUSY ∨ j = bitNACK ∨ j = 7 → v.getLsbD j = m.status.getLsbD j) :
    Master.Inv cap { m with status := v } :=
  { h with
    reserved := (hkeep 7 (.inr (.inr rfl))).trans h.reserved
    busyIff := (Bool.eq_iff_iff.1 (hkeep bitBUSY (.inl rfl))).trans h.busyIff
    nackIsAckb := (hkeep bitNACK (.inr (.inl rfl))).trans h.nackIsAckb
    fits := h.fits }

theorem masterInv_raiseIll : m.raiseIll.Inv cap :=
  masterInv_status h fun j hj => (status_putStatus (by decide) m true j).trans (if_neg (by rcases hj with rfl | rfl | rfl <;> decide))

theorem masterInv_raiseOvr : m.raiseOvr.Inv cap :=
  masterInv_status h fun j hj => (status_putStatus (by decide) m true j).trans (if_neg (by rcases hj with rfl | rfl | rfl <;> decide))

theorem masterInv_writeStatus (v : Byte) : (m.writeStatus v).Inv cap :=
  masterInv_status h fun j hj => by
    refine (status_writeStatus m v j (by rcases hj with rfl | rfl | rfl <;> decide)).trans ?_
    rcases hj with rfl | rfl | rfl <;> exact Bool.and_true _

/-- The accepted command's walk starts where the idle MBB stands, with Data an output. -/
theorem tracks_accept (hidle : m.busy = false) (op len : Nibble) (data : Byte) (program : List Micro) :
    Tracks cap ⟨m.k, m.bitn, .out, true, true⟩ (m.accept op len data program) := by
  have hmpc : m.mpc = [] := by
    by_contra hne
    exact absurd (h.busyIff.2 hne) (by simp [hidle])
  exact { h with
    kIs := rfl
    bitnIs := rfl
    dirIs := (h.idleOut hmpc).symm
    reserved := (status_accept m op len data program 7).trans h.reserved
    busy := status_accept m op len data program bitBUSY
    nackIsAckb := fun _ => (status_accept m op len data program bitNACK).trans h.nackIsAckb }

/-- R92: presenting a single command whose program fits. -/
theorem masterInv_present {op : Nibble} {data : Byte} {program : List Micro}
    (hfits : FitsAt cap m.k m.bitn program) : (m.present op data program).Inv cap := by
  rcases present_cases op data program m with ⟨-, heq⟩ | ⟨hidle, heq⟩
  · exact heq ▸ masterInv_raiseOvr h
  · rw [heq]
    exact (tracks_accept h hidle op 0 data program).running rfl hfits.2 hfits.1

/-- R92: presenting a transaction whose program fits if its count does. -/
theorem masterInv_presentTransaction {op len : Nibble} {data : Byte} {program : List Micro}
    (hfits : len.toNat ≤ cap → FitsAt cap 0 m.bitn program) :
    (m.presentTransaction cap op len data program).Inv cap := by
  rcases presentTransaction_cases cap op len data program m with ⟨-, heq⟩ | ⟨hidle, hlen, heq⟩ | ⟨-, -, heq⟩
  · exact heq ▸ masterInv_raiseOvr h
  · rw [heq]
    have h1 := tracks_accept h hidle op len data program
    have h2 := (h1.putStatus (i := bitAF) (by decide) (by decide) (by decide) false).putStatus (i := bitDF)
      (by decide) (by decide) (by decide) false
    have h3 : Tracks cap ⟨0, m.bitn, .out, true, true⟩ (m.accept op len data program).clearTransaction :=
      { h2 with kIs := rfl, xcntIsK := rfl }
    obtain ⟨hne, hwalk⟩ := hfits (of_decide_eq_true hlen)
    exact h3.running rfl hwalk hne
  · exact heq ▸ masterInv_raiseIll h

end

/-! ### The host's accesses -/

theorem stateInv_onMaster {s : State} {f : Master → Master} (h : s.Inv) (hf : (f s.master).Inv s.bufCap) : (s.onMaster f).Inv :=
  ⟨hf, h.slave⟩

/-- Every command keeps the invariant. -/
theorem stateInv_exec_command {i : Instr} {s t : State} (h : s.Inv) (hi : isCommand i = true) (ht : exec i s = .next t) : t.Inv := by
  have hk := h.master.kInRange
  cases i with
  | start =>
    cases ht
    exact stateInv_onMaster h (masterInv_present h.master (fitsAt_startProgram _ hk))
  | stop =>
    cases ht
    exact stateInv_onMaster h (masterInv_present h.master (fitsAt_stopProgram _ hk))
  | send b =>
    cases ht
    exact stateInv_onMaster h (masterInv_present h.master (fitsAt_sendProgram _ hk))
  | recv =>
    cases ht
    exact stateInv_onMaster h (masterInv_present h.master (fitsAt_recvProgram _ hk))
  | resp n =>
    cases ht
    exact stateInv_onMaster h (masterInv_present h.master (fitsAt_respProgram _ hk))
  | delay u =>
    cases ht
    exact stateInv_onMaster h (masterInv_present h.master (fitsAt_delayProgram _ hk))
  | wrtx len addr x =>
    cases ht
    exact stateInv_onMaster h (masterInv_presentTransaction h.master (fitsAt_wrtxProgram _))
  | rdtx len addr x =>
    cases ht
    exact stateInv_onMaster h (masterInv_presentTransaction h.master (fitsAt_rdtxProgram _))
  | evAddrRd | evAddrWr | evTx | evRx | evEnd => cases hi

/-- R92: so does every word presented. -/
theorem stateInv_presentWord {w : CommandWord} {s t : State} (h : s.Inv) (ht : presentWord w s = .next t) : t.Inv := by
  cases hw : decodeCommand s.bufCap w with
  | ok i =>
    simp only [presentWord, hw] at ht
    exact stateInv_exec_command h (decodeCommand_isCommand hw) ht
  | reject e =>
    rw [presentWord_of_reject hw] at ht
    cases ht
    refine stateInv_onMaster h ?_
    unfold Master.rejectIllegal
    split
    · exact masterInv_raiseOvr h.master
    · exact masterInv_raiseIll h.master

/-- R37: an offset that names an entry of TXBUF names one within its `BUF_CAP`. -/
theorem lt_of_hostReg_txbuf {cap i : Nat} {off : Byte} (h : hostReg cap off = .txbuf i) : i < cap := by
  unfold hostReg at h
  repeat' split at h
  all_goals cases h
  omega

theorem stateInv_hostWrite {off v : Byte} {s t : State} (h : s.Inv) (ht : hostWrite off v s = .next t) : t.Inv := by
  unfold hostWrite at ht
  split at ht
  case h_1 =>
    cases ht
    exact stateInv_onMaster h (masterInv_cmdl h.master v)
  case h_2 => exact stateInv_presentWord (stateInv_onMaster h (masterInv_cmdh h.master v)) ht
  case h_3 =>
    cases ht
    exact stateInv_onMaster h (masterInv_writeStatus h.master v)
  case h_4 i hi =>
    cases ht
    exact stateInv_onMaster h (masterInv_txbuf h.master (lt_of_hostReg_txbuf hi) v)
  all_goals
    cases ht
    exact h

/-- R65: a read leaves both sides as they were. -/
theorem hostRead_keeps {off : Byte} {s t : State} (ht : hostRead off s = .next t) :
    t.master = s.master ∧ t.slave = s.slave ∧ t.peer = s.peer ∧ t.params = s.params := by
  unfold hostRead at ht
  split at ht
  case h_7 | h_8 =>
    unfold readEntry at ht
    split at ht
    · cases ht
      exact ⟨rfl, rfl, rfl, rfl⟩
    · cases ht
  all_goals
    cases ht
    exact ⟨rfl, rfl, rfl, rfl⟩

end Sys2Proof.Proofs
end

section
/-! The slave side of the invariant, the sides each agent's step leaves alone, and the invariant of the whole machine
(spec/43_slave_dispatcher.md R146 to R159, R166 to R169; spec/00_scope.md R4, R9). -/

namespace Sys2Proof.Proofs

open Sys2Proof Sys2Proof.Machine Sys2Proof.Laws

/-! ### The bridge primitives keep the slave side's invariant -/

section
variable {cap : Nat} {c : Isr} (h : c.slave.Inv cap)
include h

theorem slaveInv_portPop : c.portPop.2.slave.Inv cap := by
  rcases portPop_cases c with ⟨v, -, heq⟩ | ⟨-, heq⟩
  · rw [heq]
    exact { h with }
  · rwa [heq]

theorem slaveInv_armFromOutq : c.armFromOutq.slave.Inv cap := by
  rcases armFromOutq_cases c with ⟨v, rest, hq, heq⟩ | ⟨-, heq⟩
  · have hbound := h.outqBound
    rw [hq, List.length_cons] at hbound
    rw [heq]
    exact { h with armedHolds := fun _ => nofun, outqBound := (by omega : rest.length ≤ Config.qCap) }
  · rwa [heq]

theorem slaveInv_enqueueInq (v : Byte) : (c.enqueueInq v).slave.Inv cap := by
  rcases enqueueInq_cases c v with ⟨hroom, heq⟩ | ⟨-, heq⟩
  · rw [heq]
    exact { h with inqBound := by simpa using hroom }
  · rwa [heq]

theorem slaveInv_give (x : Sem) : (c.give x).slave.Inv cap := by
  cases x with
  | rx =>
    rcases give_rx_cases c with ⟨-, heq⟩ | ⟨-, heq⟩
    · rwa [heq]
    · rw [heq]
      exact { h with }
  | tx =>
    rcases give_tx_cases c with ⟨-, heq⟩ | ⟨-, heq⟩
    · rwa [heq]
    · rw [heq]
      exact { h with }

theorem slaveInv_storeSrx (v : Byte) : (c.storeSrx v).slave.Inv cap :=
  { h with
    srxbufWf := memory_write_wf _ v h.srxbufWf
    srxbufFits := memory_write_fits v h.rxcurInRange h.srxbufFits }

theorem slaveInv_advanceRx : (c.advanceRx cap).slave.Inv cap := by
  have hlt := h.rxcurInRange
  rcases advanceRx_cases cap c with ⟨-, heq⟩ | ⟨hne, heq⟩
  · rw [heq]
    exact slaveInv_give (c := { c with slave := { c.slave with rxcur := 0 } }) { h with rxcurInRange := (by omega : 0 < cap) } .rx
  · rw [heq]
    exact { h with rxcurInRange := (by omega : c.slave.rxcur + 1 < cap) }

theorem slaveInv_advanceTx : (c.advanceTx cap).slave.Inv cap := by
  have hlt := h.txcurInRange
  rcases advanceTx_cases cap c with ⟨-, heq⟩ | ⟨hne, heq⟩
  · rw [heq]
    exact slaveInv_give (c := { c with slave := { c.slave with txcur := 0 } }) { h with txcurInRange := (by omega : 0 < cap) } .tx
  · rw [heq]
    exact { h with txcurInRange := (by omega : c.slave.txcur + 1 < cap) }

theorem slaveInv_resetCursors : c.resetCursors.slave.Inv cap :=
  have hpos : 0 < cap := Nat.zero_lt_of_lt h.rxcurInRange
  { h with rxcurInRange := hpos, txcurInRange := hpos }

end

/-! ### Event classes (R152) -/

/-- R155 to R159: the bodies of the five classes, by `BUF_CAP`. -/
def eventBodies : List (Nat → Isr → Isr) := [fun _ => addrRdBody, fun _ => addrWrBody, txBody, rxBody, fun _ => endBody]

/-- An event's meaning is the common frame around its class's body. -/
theorem exec_event {i : Instr} (hi : isCommand i = false) :
    ∃ sto sta phase, ∃ body ∈ eventBodies, ∀ s, exec i s = .next (s.handleEvent sto sta (body s.bufCap) phase) := by
  cases i with
  | evAddrRd ign btc sto sta => exact ⟨sto, sta, .addrRd, fun _ => addrRdBody, by simp [eventBodies], fun _ => rfl⟩
  | evAddrWr ign btc sto sta => exact ⟨sto, sta, .addrWr, fun _ => addrWrBody, by simp [eventBodies], fun _ => rfl⟩
  | evTx ign btc sto sta => exact ⟨sto, sta, .inXfer, txBody, by simp [eventBodies], fun _ => rfl⟩
  | evRx ign sto sta => exact ⟨sto, sta, .inXfer, rxBody, by simp [eventBodies], fun _ => rfl⟩
  | evEnd ign sto sta => exact ⟨sto, sta, .idle, fun _ => endBody, by simp [eventBodies], fun _ => rfl⟩
  | start | stop | send | recv | resp | wrtx | rdtx | delay => cases hi

theorem slaveInv_body {cap : Nat} {body : Nat → Isr → Isr} (hbody : body ∈ eventBodies) {c : Isr} (h : c.slave.Inv cap) :
    (body cap c).slave.Inv cap := by
  simp only [eventBodies, List.mem_cons, List.not_mem_nil, or_false] at hbody
  rcases hbody with rfl | rfl | rfl | rfl | rfl
  · exact slaveInv_armFromOutq (slaveInv_resetCursors h)
  · exact slaveInv_portPop (slaveInv_resetCursors h)
  · exact slaveInv_advanceTx (slaveInv_armFromOutq h)
  · exact slaveInv_advanceRx (slaveInv_enqueueInq (slaveInv_storeSrx (slaveInv_portPop h) _) _)
  · exact slaveInv_give h .tx

/-- R154: clearing the latches leaves bits 7:5 of FLAGS zero. -/
theorem slaveInv_clearLatches {cap : Nat} {sl : Slave} (h : sl.Inv cap) (sto sta : Bool) : (sl.clearLatches sto sta).Inv cap := by
  have htop : (sl.clearLatches sto sta).flags.extractLsb' 5 3 = 0 := by
    apply BitVec.eq_of_getLsbD_eq
    intro j hj
    have hold : sl.flags.getLsbD (5 + j) = false := by
      simpa only [BitVec.getLsbD_extractLsb', hj, decide_true, Bool.true_and, BitVec.ofNat_eq_ofNat, BitVec.getLsbD_zero] using
        congrArg (·.getLsbD j) h.vectorTop
    simp only [BitVec.getLsbD_extractLsb', clearLatches_flags sto sta sl (5 + j), hold, Bool.false_and, Bool.and_false,
      BitVec.ofNat_eq_ofNat, BitVec.getLsbD_zero]
  rw [clearLatches_eq]
  exact { h with vectorTop := htop }

/-- R152, R160: the frame clears HOLD and EVT_PEND together. -/
theorem slaveInv_handleEvent {s : State} (h : s.slave.Inv s.bufCap) (sto sta : Bool) (phase : Phase) {body : Nat → Isr → Isr}
    (hbody : body ∈ eventBodies) : (s.handleEvent sto sta (body s.bufCap) phase).slave.Inv s.bufCap :=
  have hc := slaveInv_body hbody (c := ⟨s.slave.clearLatches sto sta, s.slaveDraws, false⟩) (slaveInv_clearLatches h sto sta)
  { hc with holdIsPend := rfl }

/-! ### The task side (R166, R167) -/

/-- R166: INQ gives its oldest byte. -/
theorem taskReceive_cons {s : State} {b : Byte} {rest : List Byte} (h : s.slave.inq = b :: rest) (w : Wait) :
    taskReceive w s = .next ((s.onSlave fun sl => { sl with inq := rest }).answerTask (.received b)) := by
  simp only [taskReceive, h, tryDequeue]

theorem taskReceive_nil {s : State} (h : s.slave.inq = []) (w : Wait) : taskReceive w s = .next (blockOrFail w s) := by
  simp only [taskReceive, h, tryDequeue]

/-- R167: OUTQ takes the byte if it has room. -/
theorem taskSend_room {s : State} (h : s.slave.outq.length < Config.qCap) (v : Byte) (w : Wait) :
    taskSend v w s = .next ((s.onSlave fun sl => { sl with outq := sl.outq ++ [v] }).answerTask .sent) := by
  simp only [taskSend, tryEnqueue, h, if_true]
  rfl

theorem taskSend_full {s : State} (h : Config.qCap ≤ s.slave.outq.length) (v : Byte) (w : Wait) :
    taskSend v w s = .next (blockOrFail w s) := by
  simp only [taskSend, tryEnqueue, Nat.not_lt.2 h, if_false]

/-! ### What each side's steps leave alone (R4) -/

/-- A command changes the master side alone. -/
theorem exec_command_onMaster {i : Instr} (hi : isCommand i = true) (cap : Nat) :
    ∃ f, ∀ s : State, s.bufCap = cap → exec i s = .next (s.onMaster f) := by
  cases i with
  | start | stop | send | recv | resp | delay => exact ⟨_, fun _ _ => rfl⟩
  | wrtx len addr x =>
    exact ⟨Master.presentTransaction cap 0x6 len (addressByte addr x) (wrtxProgram len.toNat), by rintro s rfl; rfl⟩
  | rdtx len addr x =>
    exact ⟨Master.presentTransaction cap 0x7 len (addressByte addr x) (rdtxProgram len.toNat), by rintro s rfl; rfl⟩
  | evAddrRd | evAddrWr | evTx | evRx | evEnd => cases hi

/-- So does a word presented, as the word and `BUF_CAP` say. -/
theorem presentWord_onMaster (w : CommandWord) (cap : Nat) :
    ∃ f, ∀ s : State, s.bufCap = cap → presentWord w s = .next (s.onMaster f) := by
  cases hw : decodeCommand cap w with
  | ok i =>
    obtain ⟨f, hf⟩ := exec_command_onMaster (decodeCommand_isCommand hw) cap
    refine ⟨f, ?_⟩
    rintro s rfl
    simp only [presentWord, hw, hf s rfl]
  | reject e =>
    refine ⟨Master.rejectIllegal, ?_⟩
    rintro s rfl
    exact presentWord_of_reject hw

/-- So does a host write, as the offset, the byte, CMDL and `BUF_CAP` say. -/
theorem hostWrite_onMaster (off v cmdl : Byte) (cap : Nat) :
    ∃ f, ∀ s : State, s.bufCap = cap → s.master.cmdl = cmdl → hostWrite off v s = .next (s.onMaster f) := by
  cases hreg : hostReg cap off with
  | cmdl => exact ⟨fun m => { m with cmdl := v }, by rintro s rfl -; simp only [hostWrite, hreg]⟩
  | cmdh =>
    obtain ⟨f, hf⟩ := presentWord_onMaster (commandWord cmdl v) cap
    refine ⟨fun m => f { m with cmdh := v }, ?_⟩
    rintro s rfl rfl
    simp only [hostWrite, hreg]
    exact hf (s.onMaster fun m => { m with cmdh := v }) rfl
  | status => exact ⟨(Master.writeStatus · v), by rintro s rfl -; simp only [hostWrite, hreg]⟩
  | txbuf i => exact ⟨fun m => { m with txbuf := m.txbuf.write i v }, by rintro s rfl -; simp only [hostWrite, hreg]⟩
  | rxdata | xcnt | pins | rxbuf | reserved => exact ⟨id, by rintro s rfl -; simp only [hostWrite, hreg]; rfl⟩

/-- A master-side agent's step leaves the slave side and the parameters. -/
theorem masterStep_keeps {a : AgentStep} {s t : State} (ha : isMasterStep a = true) (ht : agentStep a s = .next t) :
    t.slave = s.slave ∧ t.params = s.params := by
  cases a with
  | hostRead off =>
    obtain ⟨-, hslave, -, hparams⟩ := hostRead_keeps ht
    exact ⟨hslave, hparams⟩
  | hostWrite off v =>
    obtain ⟨f, hf⟩ := hostWrite_onMaster off v s.master.cmdl s.bufCap
    cases (hf s rfl rfl).symm.trans ht
    exact ⟨rfl, rfl⟩
  | mbb =>
    simp only [agentStep, mbbStep] at ht
    split at ht
    · cases ht
      exact ⟨rfl, rfl⟩
    · cases ht
  | peerDrive | masterReset =>
    cases ht
    exact ⟨rfl, rfl⟩
  | periphRaise | periphTransmit | sed | taskReceive | taskSend | taskTake | taskMask | slaveReset => cases ha

/-- A slave-side agent's step goes on, and leaves the master side, the PEER's drive and the parameters. -/
theorem slaveStep_next {a : AgentStep} (ha : isMasterStep a = false) (s : State) :
    ∃ t, agentStep a s = .next t ∧ t.master = s.master ∧ t.peer = s.peer ∧ t.params = s.params := by
  cases a with
  | hostRead | hostWrite | mbb | peerDrive | masterReset => cases ha
  | periphRaise sta sto nam rd btc rx =>
    rcases periphRaise_cases sta sto nam rd btc rx s with ⟨-, heq⟩ | ⟨-, heq⟩ <;> exact ⟨_, heq, rfl, rfl, rfl⟩
  | periphTransmit =>
    simp only [agentStep, periphTransmit]
    split <;> exact ⟨_, rfl, rfl, rfl, rfl⟩
  | sed =>
    simp only [agentStep, sedStep]
    split
    · obtain ⟨sto, sta, phase, body, -, hexec⟩ := exec_event (decodeEvent_isEvent s.slave.eventVector)
      exact ⟨_, hexec s, rfl, rfl, rfl⟩
    · exact ⟨s, rfl, rfl, rfl, rfl⟩
  | taskReceive w =>
    cases hq : s.slave.inq with
    | nil =>
      refine ⟨_, taskReceive_nil hq w, ?_⟩
      rcases blockOrFail_cases w s with ⟨-, heq⟩ | ⟨-, heq⟩ <;> rw [heq] <;> exact ⟨rfl, rfl, rfl⟩
    | cons b rest => exact ⟨_, taskReceive_cons hq w, rfl, rfl, rfl⟩
  | taskSend v w =>
    rcases Nat.lt_or_ge s.slave.outq.length Config.qCap with hq | hq
    · exact ⟨_, taskSend_room hq v w, rfl, rfl, rfl⟩
    · refine ⟨_, taskSend_full hq v w, ?_⟩
      rcases blockOrFail_cases w s with ⟨-, heq⟩ | ⟨-, heq⟩ <;> rw [heq] <;> exact ⟨rfl, rfl, rfl⟩
  | taskTake x => cases x <;> simp only [agentStep, taskTake] <;> split <;> exact ⟨_, rfl, rfl, rfl, rfl⟩
  | taskMask | slaveReset => exact ⟨_, rfl, rfl, rfl, rfl⟩

/-! ### The invariant of the machine -/

/-- R58: the reset slave side meets its invariant, at every `BUF_CAP`. -/
theorem slaveInv_reset (p : Params) : Slave.reset.Inv p.bufCap where
  rxcurInRange := Nat.succ_pos _
  txcurInRange := Nat.succ_pos _
  srxbufWf := rfl
  srxbufFits := rfl
  vectorTop := rfl
  holdIsPend := rfl
  armedHolds := nofun
  inqBound := Nat.zero_le _
  outqBound := Nat.zero_le _

/-- R57: the reset master side meets its invariant, whatever `BUF_CAP`. -/
theorem masterInv_reset (cap : Nat) : Master.reset.Inv cap where
  reserved := rfl
  busyIff := by decide
  nackIsAckb := rfl
  xcntIsK := rfl
  kInRange := Nat.zero_le _
  bitnInRange := Nat.zero_le _
  idleOut := fun _ => rfl
  fits := ⟨rfl, Nat.zero_le _, rfl⟩
  txbufWf := rfl
  txbufFits := rfl
  rxbufWf := rfl
  rxbufFits := rfl

/-- Settles O48: each side's reset values meet its invariant. -/
theorem resetMeetsTheInvariant : Obligations.ResetMeetsTheInvariant :=
  ⟨masterInv_reset _, slaveInv_reset _⟩

/-- A master-side agent's step keeps the invariant. -/
theorem stateInv_masterStep {a : AgentStep} {s t : State} (ha : isMasterStep a = true) (h : s.Inv) (ht : agentStep a s = .next t) :
    t.Inv := by
  cases a with
  | hostRead off =>
    obtain ⟨hmaster, hslave, -, hparams⟩ := hostRead_keeps ht
    obtain ⟨hm, hs⟩ := h
    have hcap : t.bufCap = s.bufCap := congrArg Params.bufCap hparams
    rw [← hcap] at hm hs
    exact ⟨hmaster ▸ hm, hslave ▸ hs⟩
  | hostWrite off v => exact stateInv_hostWrite h ht
  | mbb =>
    simp only [agentStep, mbbStep] at ht
    split at ht
    next m hm =>
      cases ht
      exact ⟨masterInv_step h.master hm, h.slave⟩
    next => cases ht
  | peerDrive scl sda =>
    cases ht
    exact ⟨h.master, h.slave⟩
  | masterReset =>
    cases ht
    exact stateInv_onMaster h (masterInv_reset _)
  | periphRaise | periphTransmit | sed | taskReceive | taskSend | taskTake | taskMask | slaveReset => cases ha

/-- A slave-side agent's step keeps the slave side's invariant. -/
theorem slaveInv_slaveStep {a : AgentStep} {s t : State} (ha : isMasterStep a = false) (h : s.slave.Inv s.bufCap)
    (ht : agentStep a s = .next t) : t.slave.Inv s.bufCap := by
  cases a with
  | hostRead | hostWrite | mbb | peerDrive | masterReset => cases ha
  | periphRaise sta sto nam rd btc rx =>
    rcases periphRaise_cases sta sto nam rd btc rx s with ⟨-, heq⟩ | ⟨-, heq⟩
    · cases heq.symm.trans ht
      exact { h with vectorTop := packEvent_top .., holdIsPend := rfl }
    · cases heq.symm.trans ht
      exact h
  | periphTransmit =>
    simp only [agentStep, periphTransmit] at ht
    split at ht <;>
      cases ht <;> exact { h with armedHolds := nofun }
  | sed =>
    simp only [agentStep, sedStep] at ht
    split at ht
    · obtain ⟨sto, sta, phase, body, hbody, hexec⟩ := exec_event (decodeEvent_isEvent s.slave.eventVector)
      cases (hexec s).symm.trans ht
      exact slaveInv_handleEvent h sto sta phase hbody
    · cases ht
      exact h
  | taskReceive w =>
    cases hq : s.slave.inq with
    | nil =>
      cases (taskReceive_nil hq w).symm.trans ht
      rcases blockOrFail_cases w s with ⟨-, heq⟩ | ⟨-, heq⟩ <;> rw [heq] <;> exact h
    | cons b rest =>
      have hbound := h.inqBound
      rw [hq, List.length_cons] at hbound
      cases (taskReceive_cons hq w).symm.trans ht
      exact { h with inqBound := (by omega : rest.length ≤ Config.qCap) }
  | taskSend v w =>
    rcases Nat.lt_or_ge s.slave.outq.length Config.qCap with hq | hq
    · cases (taskSend_room hq v w).symm.trans ht
      exact { h with outqBound := (by simpa using hq : (s.slave.outq ++ [v]).length ≤ Config.qCap) }
    · cases (taskSend_full hq v w).symm.trans ht
      rcases blockOrFail_cases w s with ⟨-, heq⟩ | ⟨-, heq⟩ <;> rw [heq] <;> exact h
  | taskTake x =>
    cases x <;> simp only [agentStep, taskTake] at ht <;> cases ht <;> split
    · exact { h with }
    · exact h
    · exact { h with }
    · exact h
  | taskMask on =>
    cases ht
    exact { h with }
  | slaveReset =>
    cases ht
    exact slaveInv_reset s.params

/-- Every agent's step keeps the invariant: a master-side one through the master side, a slave-side one through the slave side. -/
theorem stateInv_agentStep {a : AgentStep} {s t : State} (h : s.Inv) (ht : agentStep a s = .next t) : t.Inv := by
  cases ha : isMasterStep a with
  | true => exact stateInv_masterStep ha h ht
  | false =>
    obtain ⟨t', ht', hmaster, -, hparams⟩ := slaveStep_next ha s
    cases ht'.symm.trans ht
    have hcap : t.bufCap = s.bufCap := congrArg Params.bufCap hparams
    constructor
    · rw [hcap, hmaster]
      exact h.master
    · rw [hcap]
      exact slaveInv_slaveStep ha h.slave ht

/-! ### The interleaving (R20, R70) -/

/-- The choice of the next agent changes neither side. -/
theorem nextInput_keeps (s : State) :
    (nextInput s).2.master = s.master ∧ (nextInput s).2.slave = s.slave ∧ (nextInput s).2.params = s.params := by
  unfold nextInput
  split <;> exact ⟨rfl, rfl, rfl⟩

/-- Settles O49: the choice of an agent changes neither side, and every agent's step keeps the invariant. -/
theorem everyStepKeepsTheInvariant : Obligations.EveryStepKeepsTheInvariant := by
  intro s t h ht
  obtain ⟨hmaster, hslave, hparams⟩ := nextInput_keeps s
  have hcap : (nextInput s).2.bufCap = s.bufCap := congrArg Params.bufCap hparams
  refine stateInv_agentStep (a := (nextInput s).1) (s := (nextInput s).2) ⟨?_, ?_⟩ ht
  · rw [hcap, hmaster]
    exact h.master
  · rw [hcap, hslave]
    exact h.slave

/-- Settles O57: the choice of an agent leaves the parameters, and so does each side's step. -/
theorem noStepChangesTheParameters : Obligations.NoStepChangesTheParameters := by
  intro s t ht
  obtain ⟨-, -, hparams⟩ := nextInput_keeps s
  rw [← hparams]
  cases ha : isMasterStep (nextInput s).1 with
  | true => exact (masterStep_keeps ha ht).2
  | false =>
    obtain ⟨t', ht', -, -, hparams'⟩ := slaveStep_next ha (nextInput s).2
    cases ht'.symm.trans ht
    exact hparams'

/-- Settles O50: what each side's steps leave alone. -/
theorem theTwoSidesShareNoState : Obligations.TheTwoSidesShareNoState := by
  intro a s t ht
  refine ⟨fun ha => (masterStep_keeps ha ht).1, fun ha => ?_⟩
  obtain ⟨t', ht', hmaster, hpeer, -⟩ := slaveStep_next ha s
  cases ht'.symm.trans ht
  exact ⟨hmaster, hpeer⟩

end Sys2Proof.Proofs
end

section
/-! What no step does: refuse, fault on an entry that holds a value, disturb a running command, or see the other side
(spec/60_exceptions.md R175, R178; spec/20_memory.md R71, R76; spec/00_scope.md R4). -/

namespace Sys2Proof.Proofs

open Sys2Proof Sys2Proof.Machine Sys2Proof.Laws

/-! ### Control, one piece at a time (R116) -/

/-- The first piece of control is run, then the rest, unless it is an abort that is taken. -/
theorem runControls_cons_cases (c : Control) (cs : List Control) (m : Master) :
    (m.ackb = true ∧ Master.runControls (c :: cs) m = m.runControl c) ∨
    Master.runControls (c :: cs) m =
      match m.runControl c with
      | .ok m' => Master.runControls cs m'
      | .error e => .error e := by
  by_cases hc : ∃ f, c = .abortIfNack f
  · obtain ⟨f, rfl⟩ := hc
    cases hack : m.ackb with
    | true => exact .inl ⟨rfl, by simp only [Master.runControls, hack, if_true]⟩
    | false => exact .inr (by simp [Master.runControls, Master.runControl, hack])
  · exact .inr (runControls_cons (fun f hf => hc ⟨f, hf⟩) cs m)

/-- What every piece of control keeps, control keeps; and if it faults, one piece does so on the way. -/
theorem runControls_keeps {P : Master → Prop} (hP : ∀ c m m', P m → m.runControl c = .ok m' → P m') (cs : List Control)
    {m : Master} (hm : P m) :
    (∀ m', Master.runControls cs m = .ok m' → P m') ∧
    (∀ e, Master.runControls cs m = .error e → ∃ c m1, P m1 ∧ m1.runControl c = .error e) := by
  induction cs generalizing m with
  | nil =>
    refine ⟨fun m' h => ?_, fun e h => nomatch h⟩
    cases h
    exact hm
  | cons c cs ih =>
    rcases runControls_cons_cases c cs m with ⟨-, heq⟩ | heq
    · rw [heq]
      exact ⟨fun m' h => hP c m m' hm h, fun e h => ⟨c, m, hm, h⟩⟩
    · rw [heq]
      cases hc : m.runControl c with
      | ok m1 => exact ih (hP c m m1 hm hc)
      | error e =>
        refine ⟨fun m' h => (nomatch h), fun e' h => ?_⟩
        cases h
        exact ⟨c, m, hm, hc⟩

/-! ### The latched operands and TXBUF (R27, R43) -/

/-- The operands and TXBUF of `m'` are those of `m`. -/
def SameOperands (m m' : Master) : Prop := m'.lop = m.lop ∧ m'.llen = m.llen ∧ m'.ldata = m.ldata ∧ m'.txbuf = m.txbuf

theorem SameOperands.trans {m m' m'' : Master} (h : SameOperands m m') (h' : SameOperands m' m'') : SameOperands m m'' := by
  obtain ⟨hlop, hllen, hldata, htxbuf⟩ := h
  obtain ⟨hlop', hllen', hldata', htxbuf'⟩ := h'
  exact ⟨hlop'.trans hlop, hllen'.trans hllen, hldata'.trans hldata, htxbuf'.trans htxbuf⟩

theorem runControl_sameOperands {c : Control} {m m' : Master} (h : m.runControl c = .ok m') : SameOperands m m' := by
  cases c with
  | loadShTx =>
    simp only [Master.runControl] at h
    split at h
    · cases h
      exact ⟨rfl, rfl, rfl, rfl⟩
    · cases h
  | shiftRbUnlessLast | abortIfNack =>
    cases h
    split <;> exact ⟨rfl, rfl, rfl, rfl⟩
  | loadShData | loadShAddr | clearBitn | countBit | shiftSh | reportAck | clearRb | storeRxdata | storeRxbuf | countByte =>
    cases h
    exact ⟨rfl, rfl, rfl, rfl⟩

/-- R134: the one piece of control that faults is the load of an unwritten TXBUF entry. -/
theorem runControl_error {c : Control} {m : Master} {e : Fault} (h : m.runControl c = .error e) :
    e = .uninit .txbuf m.k ∧ m.txbuf.read m.k = none := by
  cases c with
  | loadShTx =>
    simp only [Master.runControl] at h
    split at h
    · cases h
    next hnone =>
      cases h
      exact ⟨rfl, hnone⟩
  | loadShData | loadShAddr | clearBitn | countBit | shiftSh | reportAck | clearRb | shiftRbUnlessLast | storeRxdata | storeRxbuf
  | countByte | abortIfNack => cases h

/-- Control keeps the operands and TXBUF, and faults only on an entry that holds no value. -/
theorem runControls_operands (cs : List Control) {m0 m : Master} (hm : SameOperands m0 m) :
    (∀ m', Master.runControls cs m = .ok m' → SameOperands m0 m') ∧
    (∀ e, Master.runControls cs m = .error e → ∃ i, e = .uninit .txbuf i ∧ m0.txbuf.read i = none) := by
  obtain ⟨hok, herror⟩ := runControls_keeps (P := SameOperands m0) (fun c m m' h hc => h.trans (runControl_sameOperands hc)) cs hm
  refine ⟨hok, fun e h => ?_⟩
  obtain ⟨c, m1, ⟨-, -, -, htxbuf⟩, hc⟩ := herror e h
  obtain ⟨he, hnone⟩ := runControl_error hc
  exact ⟨m1.k, he, htxbuf ▸ hnone⟩

/-- A uop and its record keep them too. -/
theorem sameOperands_doUop {m0 m : Master} (h : SameOperands m0 m) (p : Peer) (u : ProgUop) (rest : List Micro) (r : Uop) :
    SameOperands m0 (Master.record { (m.doUop p u).2 with mpc := rest } p r) := by
  cases u with
  | sample dst => cases dst <;> exact h
  | scl | sda | sdaOe | wait => exact h

theorem sameOperands_finishIfDone {m0 m : Master} (h : SameOperands m0 m) : SameOperands m0 (finishIfDone m) := by
  unfold finishIfDone
  split <;> exact h

/-- The uop at MPC with the control after it. -/
theorem performUop_operands {m0 m : Master} (h : SameOperands m0 m) (p : Peer) (u : Micro) (rest : List Micro) :
    (∀ m', m.performUop p u rest = .ok m' → SameOperands m0 m') ∧
    (∀ e, m.performUop p u rest = .error e → ∃ i, e = .uninit .txbuf i ∧ m0.txbuf.read i = none) := by
  obtain ⟨hok, herror⟩ := runControls_operands u.post (sameOperands_doUop h p u.uop rest (m.doUop p u.uop).1)
  rw [performUop_eq]
  generalize Master.runControls u.post _ = r at hok herror
  cases r with
  | ok m1 =>
    refine ⟨fun m' h' => ?_, fun e h' => nomatch h'⟩
    cases h'
    exact sameOperands_finishIfDone (hok m1 rfl)
  | error e =>
    refine ⟨fun m' h' => (nomatch h'), fun e' h' => ?_⟩
    cases h'
    exact herror e rfl

/-- The MBB's step. -/
theorem step_operands (m : Master) (p : Peer) :
    (∀ m', m.step p = .ok m' → SameOperands m m') ∧
    (∀ e, m.step p = .error e → ∃ i, e = .uninit .txbuf i ∧ m.txbuf.read i = none) := by
  have hsame : SameOperands m m := ⟨rfl, rfl, rfl, rfl⟩
  unfold Master.step
  split
  next =>
    refine ⟨fun m' h => ?_, fun e h => nomatch h⟩
    cases h
    exact hsame
  next u _ hm =>
    obtain ⟨hok, herror⟩ := runControls_operands u.pre hsame
    split
    next m1 hm1 =>
      split
      next =>
        refine ⟨fun m' h => ?_, fun e h => nomatch h⟩
        cases h
        exact hok m1 hm1
      next u' rest _ => exact performUop_operands (hok m1 hm1) p u' rest
    next e he =>
      refine ⟨fun m' h => (nomatch h), fun e' h => ?_⟩
      cases h
      exact herror e he

/-! ### Faults (R175, R178) -/

/-- R43, R44: a read of a transfer buffer, if not answered, faults on the entry. -/
theorem readEntry_stops {buf : Buffer} {mem : Memory} {i : Nat} {s : State} :
    (∀ r, readEntry buf mem i s ≠ .refused r) ∧ ∀ f, readEntry buf mem i s = .fault f → f = .uninit buf i ∧ mem.read i = none := by
  unfold readEntry
  split
  · exact ⟨nofun, nofun⟩
  next hnone =>
    refine ⟨nofun, fun f h => ?_⟩
    cases h
    exact ⟨rfl, hnone⟩

/-- The fault names an entry of the state's own buffers that holds no value. -/
def NamesUnwritten (m : Master) (f : Fault) : Prop :=
  ∀ buf i, f = .uninit buf i →
    match buf with
    | .txbuf => m.txbuf.read i = none
    | .rxbuf => m.rxbuf.read i = none

theorem hostRead_stops (off : Byte) (s : State) :
    (∀ r, hostRead off s ≠ .refused r) ∧ ∀ f, hostRead off s = .fault f → NamesUnwritten s.master f := by
  unfold hostRead
  split
  case h_7 | h_8 =>
    refine ⟨readEntry_stops.1, fun f h => ?_⟩
    obtain ⟨rfl, hnone⟩ := readEntry_stops.2 f h
    rintro _ _ ⟨⟩
    exact hnone
  all_goals exact ⟨nofun, nofun⟩

/-- What can stop an agent's step: a host read or the MBB, on an unwritten entry. -/
theorem agentStep_stops (a : AgentStep) (s : State) :
    (∀ r, agentStep a s ≠ .refused r) ∧ ∀ f, agentStep a s = .fault f → NamesUnwritten s.master f := by
  cases ha : isMasterStep a with
  | false =>
    obtain ⟨t, ht, -⟩ := slaveStep_next ha s
    rw [ht]
    exact ⟨nofun, nofun⟩
  | true =>
    cases a with
    | hostRead off => exact hostRead_stops off s
    | hostWrite off v =>
      obtain ⟨f, hf⟩ := hostWrite_onMaster off v s.master.cmdl s.bufCap
      rw [agentStep, hf s rfl rfl]
      exact ⟨nofun, nofun⟩
    | mbb =>
      simp only [agentStep, mbbStep]
      split
      · exact ⟨nofun, nofun⟩
      next e he =>
        refine ⟨nofun, fun f h => ?_⟩
        cases h
        obtain ⟨i, rfl, hnone⟩ := (step_operands s.master s.peer).2 e he
        rintro _ _ ⟨⟩
        exact hnone
    | peerDrive | masterReset => exact ⟨nofun, nofun⟩
    | periphRaise | periphTransmit | sed | taskReceive | taskSend | taskTake | taskMask | slaveReset => cases ha

/-- Settles O53: the agent whose turn it is stops only on an unwritten entry, and the choice of it changes no buffer. -/
theorem onlyUnwrittenEntriesStopTheMachine : Obligations.OnlyUnwrittenEntriesStopTheMachine := by
  intro s
  obtain ⟨hmaster, -, -⟩ := nextInput_keeps s
  obtain ⟨hrefused, hfault⟩ := agentStep_stops (nextInput s).1 (nextInput s).2
  exact ⟨hrefused, fun buf i h => hmaster ▸ hfault _ h buf i rfl⟩

/-! ### A running command (R71) -/

/-- Pins, MPC, datapath, latched operands, BUSY, DONE, RXBUF and TRACE of `m'` are those of `m`. -/
def CommandKept (m m' : Master) : Prop :=
  m'.lop = m.lop ∧ m'.llen = m.llen ∧ m'.ldata = m.ldata ∧
  m'.mpc = m.mpc ∧ m'.sclOut = m.sclOut ∧ m'.sdaOut = m.sdaOut ∧ m'.sdaDir = m.sdaDir ∧ m'.sh = m.sh ∧ m'.rb = m.rb ∧
  m'.bitn = m.bitn ∧ m'.ackb = m.ackb ∧ m'.k = m.k ∧ m'.busy = m.busy ∧ m'.done = m.done ∧ m'.rxbuf = m.rxbuf ∧ m'.trace = m.trace

theorem commandKept_refl (m : Master) : CommandKept m m := by simp only [CommandKept, and_self]

/-- A write of STATUS that keeps BUSY and DONE. -/
theorem commandKept_status {m : Master} {v : Byte} (hbusy : v.getLsbD bitBUSY = m.busy) (hdone : v.getLsbD bitDONE = m.done) :
    CommandKept m { m with status := v } :=
  ⟨rfl, rfl, rfl, rfl, rfl, rfl, rfl, rfl, rfl, rfl, rfl, rfl, hbusy, hdone, rfl, rfl⟩

/-- R71: a host write disturbs no running command. -/
theorem hostWrite_commandKept {off v : Byte} {s t : State} (hbusy : s.master.busy = true) (ht : hostWrite off v s = .next t) :
    CommandKept s.master t.master := by
  unfold hostWrite at ht
  split at ht
  case h_2 =>
    rw [presentWord_of_busy (s := s.onMaster fun m => { m with cmdh := v }) hbusy] at ht
    cases ht
    exact commandKept_status (m := { s.master with cmdh := v }) (busy_putOVR _ true)
      ((status_putStatus (by decide) s.master true bitDONE).trans (if_neg (by decide)))
  case h_3 =>
    cases ht
    exact commandKept_status ((status_writeStatus s.master v bitBUSY (by decide)).trans (Bool.and_true _))
      ((status_writeStatus s.master v bitDONE (by decide)).trans (Bool.and_true _))
  all_goals
    cases ht
    exact commandKept_refl _

/-- Settles O52: a host write disturbs no running command, the MBB's own step reads its operands and does not write them, and no other
agent's step but a master reset touches the master side. -/
theorem aRunningCommandIsItsOwn : Obligations.ARunningCommandIsItsOwn := by
  intro a s t hbusy ht hreset
  by_cases hmbb : a = .mbb
  · subst hmbb
    simp only [agentStep, mbbStep] at ht
    split at ht
    next m hm =>
      cases ht
      obtain ⟨hlop, hllen, hldata, -⟩ := (step_operands s.master s.peer).1 m hm
      exact ⟨hlop, hllen, hldata, fun h => absurd rfl h⟩
    next => cases ht
  · have hkept : CommandKept s.master t.master := by
      cases ha : isMasterStep a with
      | false =>
        obtain ⟨t', ht', hmaster, -⟩ := slaveStep_next ha s
        cases ht'.symm.trans ht
        exact hmaster ▸ commandKept_refl _
      | true =>
        cases a with
        | hostRead off => exact (hostRead_keeps ht).1 ▸ commandKept_refl _
        | hostWrite off v => exact hostWrite_commandKept hbusy ht
        | peerDrive =>
          cases ht
          exact commandKept_refl _
        | mbb => contradiction
        | masterReset => contradiction
        | periphRaise | periphTransmit | sed | taskReceive | taskSend | taskTake | taskMask | slaveReset => cases ha
    obtain ⟨hlop, hllen, hldata, hmpc, hscl, hsda, hdir, hsh, hrb, hbitn, hackb, hk, hbusy', hrest⟩ := hkept
    exact ⟨hlop, hllen, hldata, fun _ =>
      ⟨hmpc, hscl, hsda, hdir, hsh, hrb, hbitn, hackb, hk, hbusy'.trans hbusy, hrest⟩⟩

/-! ### Non-interference (R4) -/

/-- A master-side agent's step, from states that agree on the master side. -/
theorem masterStep_agrees {a : AgentStep} (ha : isMasterStep a = true) {s s' : State} (h : MasterSideAgrees s s') :
    OutcomesAgree MasterSideAgrees (agentStep a s) (agentStep a s') := by
  obtain ⟨hparams, hmaster, hpeer, hdraws, hread⟩ := h
  have hcap : s.bufCap = s'.bufCap := congrArg Params.bufCap hparams
  cases a with
  | hostRead off =>
    simp only [agentStep, hostRead, hcap, hmaster, hpeer, hdraws]
    split
    case h_7 | h_8 =>
      unfold readEntry
      split
      · exact ⟨hparams, hmaster, hpeer, hdraws, rfl⟩
      · rfl
    case h_9 => exact ⟨hparams, hmaster, hpeer, rfl, rfl⟩
    all_goals exact ⟨hparams, hmaster, hpeer, hdraws, rfl⟩
  | hostWrite off v =>
    obtain ⟨f, hf⟩ := hostWrite_onMaster off v s.master.cmdl s.bufCap
    simp only [agentStep, hf s rfl rfl, hf s' hcap.symm (congrArg Master.cmdl hmaster.symm)]
    exact ⟨hparams, congrArg f hmaster, hpeer, hdraws, hread⟩
  | mbb =>
    simp only [agentStep, mbbStep, hmaster, hpeer]
    split
    · exact ⟨hparams, rfl, rfl, hdraws, hread⟩
    · rfl
  | peerDrive => exact ⟨hparams, hmaster, rfl, hdraws, hread⟩
  | masterReset => exact ⟨hparams, rfl, hpeer, hdraws, hread⟩
  | periphRaise | periphTransmit | sed | taskReceive | taskSend | taskTake | taskMask | slaveReset => cases ha

section
variable {s s' : State} (h : SlaveSideAgrees s s')
include h

theorem slaveSideAgrees_onSlave (f : Slave → Slave) : SlaveSideAgrees (s.onSlave f) (s'.onSlave f) := by
  obtain ⟨hparams, hslave, hrest⟩ := h
  exact ⟨hparams, congrArg f hslave, hrest⟩

theorem slaveSideAgrees_answerTask (r : TaskResult) : SlaveSideAgrees (s.answerTask r) (s'.answerTask r) := by
  obtain ⟨hparams, hslave, hdraws, -, hsent⟩ := h
  exact ⟨hparams, hslave, hdraws, rfl, hsent⟩

theorem slaveSideAgrees_blockOrFail (w : Wait) : SlaveSideAgrees (blockOrFail w s) (blockOrFail w s') := by
  cases w with
  | indefinite => exact h
  | bounded expired =>
    cases expired
    · exact h
    · exact slaveSideAgrees_answerTask h .failed

end

/-- A slave-side agent's step, from states that agree on the slave side. -/
theorem slaveStep_agrees {a : AgentStep} (ha : isMasterStep a = false) {s s' : State} (h : SlaveSideAgrees s s') :
    OutcomesAgree SlaveSideAgrees (agentStep a s) (agentStep a s') := by
  obtain ⟨hparams, hslave, hdraws, htask, hsent⟩ := id h
  have hcap : s.bufCap = s'.bufCap := congrArg Params.bufCap hparams
  cases a with
  | hostRead | hostWrite | mbb | peerDrive | masterReset => cases ha
  | periphRaise sta sto nam rd btc rx =>
    simp only [agentStep, periphRaise, hslave]
    split
    · exact h
    · exact slaveSideAgrees_onSlave h _
  | periphTransmit =>
    simp only [agentStep, periphTransmit, hslave, hdraws]
    split
    · exact ⟨hparams, rfl, rfl, htask, rfl⟩
    · exact ⟨hparams, rfl, rfl, htask, rfl⟩
  | sed =>
    simp only [agentStep, sedStep, hslave]
    split
    · obtain ⟨sto, sta, phase, body, -, hexec⟩ := exec_event (decodeEvent_isEvent s'.slave.eventVector)
      simp only [hexec, State.handleEvent, hcap, hslave, hdraws]
      exact ⟨hparams, rfl, rfl, htask, hsent⟩
    · exact h
  | taskReceive w =>
    cases hq : s'.slave.inq with
    | nil =>
      rw [agentStep, agentStep, taskReceive_nil (hslave ▸ hq), taskReceive_nil hq]
      exact slaveSideAgrees_blockOrFail h w
    | cons b rest =>
      rw [agentStep, agentStep, taskReceive_cons (hslave ▸ hq), taskReceive_cons hq]
      exact slaveSideAgrees_answerTask (slaveSideAgrees_onSlave h _) _
  | taskSend v w =>
    rcases Nat.lt_or_ge s'.slave.outq.length Config.qCap with hq | hq
    · rw [agentStep, agentStep, taskSend_room (hslave ▸ hq), taskSend_room hq]
      exact slaveSideAgrees_answerTask (slaveSideAgrees_onSlave h _) _
    · rw [agentStep, agentStep, taskSend_full (hslave ▸ hq), taskSend_full hq]
      exact slaveSideAgrees_blockOrFail h w
  | taskTake x =>
    cases x <;> simp only [agentStep, taskTake, hslave] <;> split
    · exact slaveSideAgrees_answerTask (slaveSideAgrees_onSlave h _) _
    · exact h
    · exact slaveSideAgrees_answerTask (slaveSideAgrees_onSlave h _) _
    · exact h
  | taskMask on => exact slaveSideAgrees_onSlave h _
  | slaveReset => exact slaveSideAgrees_onSlave h _

/-- Settles O51: each side's step reads its own side alone. -/
theorem noSideSeesTheOther : Obligations.NoSideSeesTheOther :=
  fun _ _ _ => ⟨fun ha h => masterStep_agrees ha h, fun ha h => slaveStep_agrees ha h⟩

end Sys2Proof.Proofs
end

section
/-! The remaining registers that the host sees, and the acceptance of a command by an idle MBB (spec/10_state.md R36 to R45,
spec/30_encoding.md R92). -/

namespace Sys2Proof.Proofs

open Sys2Proof Sys2Proof.Machine Sys2Proof.Laws

/-! ### Offsets (R37) -/

/-- The six registers below 0x10 are other offsets than `off`. -/
theorem hostReg_of_six_le {cap : Nat} {off : Byte} (h : 6 ≤ off.toNat) : hostReg cap off =
    if 0x10 ≤ off.toNat ∧ off.toNat < 0x10 + cap then .txbuf (off.toNat - 0x10)
    else if 0x20 ≤ off.toNat ∧ off.toNat < 0x20 + cap then .rxbuf (off.toNat - 0x20)
    else .reserved := by
  have hne (k : Byte) (hk : k.toNat < 6) : off ≠ k := by
    rintro rfl
    omega
  simp only [hostReg, hne 0x00 (by decide), hne 0x01 (by decide), hne 0x02 (by decide), hne 0x03 (by decide), hne 0x04 (by decide),
    hne 0x05 (by decide), if_false]
  rfl

/-- The offset of entry `i` of RXBUF names it, at every capacity of R9. -/
theorem hostReg_rxbuf {cap i : Nat} (hi : i < cap) (hcap : cap ≤ 15) : hostReg cap (BitVec.ofNat 8 (0x20 + i)) = .rxbuf i := by
  have htoNat : (BitVec.ofNat 8 (0x20 + i)).toNat = 0x20 + i := Nat.mod_eq_of_lt (by omega)
  have htx : ¬ (0x10 ≤ 0x20 + i ∧ 0x20 + i < 0x10 + cap) := by omega
  have hrx : 0x20 ≤ 0x20 + i ∧ 0x20 + i < 0x20 + cap := by omega
  rw [hostReg_of_six_le (by omega), htoNat, if_neg htx, if_pos hrx, Nat.add_sub_cancel_left]

/-- R45: an offset outside both buffers and above the six registers is reserved. -/
theorem hostReg_reserved {cap : Nat} {off : Byte} (h : 6 ≤ off.toNat) (htx : off.toNat < 0x10 ∨ 0x10 + cap ≤ off.toNat)
    (hrx : off.toNat < 0x20 ∨ 0x20 + cap ≤ off.toNat) : hostReg cap off = .reserved := by
  rw [hostReg_of_six_le h, if_neg (by omega), if_neg (by omega)]

/-! ### STATUS (R36) -/

theorem hostWrite_status (v : Byte) (s : State) : hostWrite 0x02 v s = .next (s.onMaster (Master.writeStatus · v)) := rfl

theorem hostRead_status (s : State) : hostRead 0x02 s = .next (s.answerHost s.master.readStatus) := rfl

/-- R36: a read shows every bit but bit 7. -/
theorem readStatus_bit (m : Master) (j : Nat) : m.readStatus.getLsbD j = (m.status.getLsbD j && j != 7) := by
  have hmask : ∀ k : Fin 8, (0x7F : Byte).getLsbD k = (k.val != 7) := by decide
  rw [Master.readStatus, BitVec.getLsbD_and]
  rcases Nat.lt_or_ge j 8 with hj | hj
  · rw [hmask ⟨j, hj⟩]
  · rw [BitVec.getLsbD_of_ge m.status j hj, Bool.false_and, Bool.false_and]

/-- Settles O29: the bits of the write and of the read, one by one. -/
theorem statusIsWriteOneToClear : Obligations.StatusIsWriteOneToClear := by
  intro s v
  refine ⟨⟨_, hostWrite_status v s, rfl, fun j hj => ?_⟩, ⟨_, hostRead_status s, readStatus_bit s.master⟩⟩
  have hw1c : decide (3 ≤ j ∧ j ≤ 6) = (j == 3 || j == 4 || j == 5 || j == 6) := by
    interval_cases j <;> rfl
  rw [← hw1c]
  exact status_writeStatus s.master v j hj

/-! ### The other registers -/

/-- Settles O30: six offsets that name a register each, and the buffers' own offsets. -/
theorem hostReadsReturnTheRegisters : Obligations.HostReadsReturnTheRegisters := by
  intro s
  refine ⟨⟨_, rfl, rfl⟩, ⟨_, rfl, rfl⟩, ⟨_, rfl, rfl⟩, ⟨_, rfl, rfl⟩, fun i v hi hv => hostRead_txbuf hi hv, ?_, ?_, ?_⟩
  · intro i v hi hv
    simp only [hostRead, hostReg_rxbuf hi (bufCap_le s), readEntry, hv]
    rfl
  · intro i hi hnone
    simp only [hostRead, hostReg_txbuf hi (bufCap_le s), readEntry, hnone]
  · intro i hi hnone
    simp only [hostRead, hostReg_rxbuf hi (bufCap_le s), readEntry, hnone]

/-- Settles O32: the offset is reserved. -/
theorem reservedOffsetsHoldNothing : Obligations.ReservedOffsetsHoldNothing := by
  intro off v s h htx hrx
  have hreg := hostReg_reserved h htx hrx
  constructor
  · simp only [hostWrite, hreg]
  · simp only [hostRead, hreg]
    rfl

/-- Settles O33: the three registers by their offsets, RXBUF by its entries'. -/
theorem readOnlyRegistersIgnoreWrites : Obligations.ReadOnlyRegistersIgnoreWrites := by
  intro s v
  refine ⟨rfl, rfl, rfl, fun i hi => ?_⟩
  simp only [hostWrite, hostReg_rxbuf hi (bufCap_le s)]

/-! ### Acceptance (R92) -/

/-- An idle MBB accepts a single command, and what it writes besides the latches is BUSY and DONE. -/
theorem acceptedAs_of_present {i : Instr} {s : State} {op : Nibble} {data : Byte} {program : List Micro}
    (hi : exec i s = .next (s.onMaster (Master.present op data program))) (h : s.master.busy = false) :
    ∃ t, exec i s = .next t ∧ AcceptedAs s t op 0 data program := by
  have hstatus := status_accept s.master op 0 data program
  refine ⟨_, hi.trans (exec_present h), rfl, hstatus bitBUSY, hstatus bitDONE, fun j hj => ?_⟩
  refine (hstatus j).trans ((if_neg ?_).trans (if_neg ?_)) <;> simp only [bitBUSY, bitDONE] <;> omega

/-- A status bit of an accepted transaction. -/
theorem status_clearTransaction (m : Master) (j : Nat) :
    m.clearTransaction.status.getLsbD j = if j = bitDF then false else if j = bitAF then false else m.status.getLsbD j := by
  simp only [Master.clearTransaction, putStatus_status, getLsbD_putBit (i := bitDF) (by decide), getLsbD_putBit (i := bitAF) (by decide)]

/-- An idle MBB accepts a transaction whose count fits. -/
theorem acceptedAs_of_presentTransaction {i : Instr} {s : State} {op len : Nibble} {data : Byte} {program : List Micro}
    (hi : exec i s = .next (s.onMaster (Master.presentTransaction s.bufCap op len data program))) (h : s.master.busy = false)
    (hlen : len.toNat ≤ s.bufCap) : ∃ t, exec i s = .next t ∧ TransactionAcceptedAs s t op len data program := by
  have hstatus (j : Nat) := (status_clearTransaction (s.master.accept op len data program) j)
  simp only [status_accept] at hstatus
  refine ⟨_, hi.trans (exec_presentTransaction h hlen), rfl, hstatus bitBUSY, hstatus bitDONE, hstatus bitAF, hstatus bitDF, fun j hj => ?_⟩
  refine (hstatus j).trans ((if_neg ?_).trans ((if_neg ?_).trans ((if_neg ?_).trans (if_neg ?_)))) <;>
    simp only [bitBUSY, bitDONE, bitAF, bitDF] <;> omega

/-- R87: the operand byte of RESP. -/
theorem addressByte_zero (n : Bool) : addressByte 0 n = if n then 0x01 else 0x00 := by cases n <;> rfl

/-- Settles O8: each single command is presented with its own opcode, operand and program. -/
theorem singleCommandsAreAcceptedWhenIdle : Obligations.SingleCommandsAreAcceptedWhenIdle := by
  intro s h
  exact ⟨acceptedAs_of_present rfl h, acceptedAs_of_present rfl h, fun b => acceptedAs_of_present rfl h, acceptedAs_of_present rfl h,
    fun n => addressByte_zero n ▸ acceptedAs_of_present rfl h, fun u => acceptedAs_of_present rfl h⟩

/-- Settles O9: so is each transaction. -/
theorem transactionsAreAcceptedWhenIdle : Obligations.TransactionsAreAcceptedWhenIdle := by
  intro s len addr x h hlen
  exact ⟨acceptedAs_of_presentTransaction rfl h hlen, acceptedAs_of_presentTransaction rfl h hlen⟩

/-! ### The word that runs (R39, R205) -/

theorem presentWord_of_ok {w : CommandWord} {s : State} {i : Instr} (h : decodeCommand s.bufCap w = .ok i) :
    presentWord w s = exec i s := by
  simp only [presentWord, h]

/-- R145: a pending, unmasked event runs its class. -/
theorem sedStep_of_pending {s : State} (hpend : s.slave.evtPend = true) (hmask : s.slave.imask = false) :
    sedStep s = exec (decodeEvent s.slave.flags) s := by
  simp only [sedStep, hpend, hmask, Bool.not_false, Bool.and_self, if_true, Slave.eventVector]

/-- R145, R179: without one the SED stutters. -/
theorem sedStep_of_not_pending {s : State} (h : ¬ (s.slave.evtPend = true ∧ s.slave.imask = false)) : sedStep s = .next s := by
  have hcond : (s.slave.evtPend && !s.slave.imask) = false := by
    cases hpend : s.slave.evtPend <;> cases hmask : s.slave.imask <;> simp_all
  simp only [sedStep, hcond, Bool.false_eq_true, if_false]

/-- Settles O6: the soonest input is that agent's step, and the step presents the word or handles the event. -/
theorem stepRunsTheDecodedInstruction : Obligations.StepRunsTheDecodedInstruction := by
  constructor
  · intro s v rest i hinputs hdecode
    rw [step_of_inputs hinputs, agentStep, hostWrite_cmdh]
    exact presentWord_of_ok hdecode
  · intro s rest hinputs hpend hmask
    rw [step_of_inputs hinputs]
    exact sedStep_of_pending hpend hmask

/-- R60, R82: the word of CMDL and CMDH, when they hold its fields. -/
theorem commandWord_fields (w : CommandWord) : commandWord (dataField w) (opField w ++ lenField w) = w := packCommand_fields w

/-- Settles O7: the placed word is what the host's CMDH write completes, the placed vector what the SED finds. -/
theorem placedWordRunsNext : Obligations.PlacedWordRunsNext := by
  constructor
  · intro s w i hdecode
    refine ⟨_, ?_, rfl⟩
    simp only [State.withFetchWord, BitVec.ofNat_toNat, BitVec.setWidth_eq]
    rw [if_neg (by decide), step_of_inputs (s := s.placeCommand w) rfl, agentStep, hostWrite_cmdh]
    simp only [State.placeCommand, given_master, commandWord_fields]
    exact presentWord_of_ok hdecode
  · intro s v
    refine ⟨_, ?_, rfl⟩
    simp only [State.withFetchWord, BitVec.ofNat_toNat, BitVec.setWidth_eq]
    rw [if_pos (by decide), step_of_inputs (s := s.placeEvent v) rfl]
    exact sedStep_of_pending rfl rfl

end Sys2Proof.Proofs
end

section
/-! The slave side's single steps: each bridge primitive and each event class in closed form, the peripheral's raise and transmission, and
the task side (spec/43_slave_dispatcher.md R145 to R169). -/

namespace Sys2Proof.Proofs

open Sys2Proof Sys2Proof.Machine Sys2Proof.Laws

/-! ### The bridge primitives in closed form (R148 to R153) -/

section
variable (c : Isr)

/-- R148. -/
theorem portPop_eq : c.portPop = (c.slave.portRx.getD (Config.drawPort c.draws),
    { c with slave := { c.slave with portRx := none }, draws := c.draws + (if c.slave.portRx = none then 1 else 0) }) := by
  rcases portPop_cases c with ⟨v, hport, heq⟩ | ⟨hport, heq⟩
  · simp [heq, hport]
  · simp only [heq, hport, Option.getD_none, if_true]
    rw [← hport]

/-- R150, R152. -/
theorem armFromOutq_eq : c.armFromOutq = { c with slave := { c.slave with
    outq := c.slave.outq.tail
    portTx := c.slave.outq.head?.or c.slave.portTx
    txArmed := c.slave.txArmed || !c.slave.outq.isEmpty } } := by
  rcases armFromOutq_cases c with ⟨v, rest, hq, heq⟩ | ⟨hq, heq⟩
  · simp [heq, hq]
  · simp only [heq, hq, List.tail_nil, List.head?_nil, Option.none_or, List.isEmpty_nil, Bool.not_true, Bool.or_false]
    rw [← hq]

/-- R151. -/
theorem enqueueInq_eq (v : Byte) : c.enqueueInq v = { c with slave := { c.slave with
    inq := if c.slave.inq.length < Config.qCap then c.slave.inq ++ [v] else c.slave.inq } } := by
  rcases enqueueInq_cases c v with ⟨hroom, heq⟩ | ⟨hfull, heq⟩
  · rw [heq, if_pos hroom]
  · rw [heq, if_neg (by omega)]

/-- R153. -/
theorem give_rx_eq : c.give .rx = {
    slave := { c.slave with semRx := true }
    draws := c.draws + (if c.slave.semRx then 0 else 1)
    woken := c.woken || (!c.slave.semRx && Config.drawWoken c.draws) } := by
  rcases give_rx_cases c with ⟨hsem, heq⟩ | ⟨hsem, heq⟩
  · simp only [heq, hsem, if_true, Nat.add_zero, Bool.not_true, Bool.false_and, Bool.or_false]
    rw [← hsem]
  · simp [heq, hsem]

/-- R153. -/
theorem give_tx_eq : c.give .tx = {
    slave := { c.slave with semTx := true }
    draws := c.draws + (if c.slave.semTx then 0 else 1)
    woken := c.woken || (!c.slave.semTx && Config.drawWoken c.draws) } := by
  rcases give_tx_cases c with ⟨hsem, heq⟩ | ⟨hsem, heq⟩
  · simp only [heq, hsem, if_true, Nat.add_zero, Bool.not_true, Bool.false_and, Bool.or_false]
    rw [← hsem]
  · simp [heq, hsem]

/-- R158: whether the receive cursor's advance raises SEM_RX. -/
def raisesRx (cap : Nat) : Bool := decide (c.slave.rxcur + 1 = cap) && !c.slave.semRx

/-- R157: whether the transmit cursor's advance raises SEM_TX. -/
def raisesTx (cap : Nat) : Bool := decide (c.slave.txcur + 1 = cap) && !c.slave.semTx

/-- R158. -/
theorem advanceRx_eq (cap : Nat) : c.advanceRx cap = {
    slave := { c.slave with
      rxcur := if c.slave.rxcur + 1 = cap then 0 else c.slave.rxcur + 1
      semRx := c.slave.semRx || decide (c.slave.rxcur + 1 = cap) }
    draws := c.draws + (if raisesRx c cap then 1 else 0)
    woken := c.woken || (raisesRx c cap && Config.drawWoken c.draws) } := by
  rcases advanceRx_cases cap c with ⟨hwrap, heq⟩ | ⟨hgo, heq⟩
  · rw [heq, give_rx_eq]
    cases hsem : c.slave.semRx <;> simp [raisesRx, hwrap, hsem]
  · simp [heq, raisesRx, hgo]

/-- R157. -/
theorem advanceTx_eq (cap : Nat) : c.advanceTx cap = {
    slave := { c.slave with
      txcur := if c.slave.txcur + 1 = cap then 0 else c.slave.txcur + 1
      semTx := c.slave.semTx || decide (c.slave.txcur + 1 = cap) }
    draws := c.draws + (if raisesTx c cap then 1 else 0)
    woken := c.woken || (raisesTx c cap && Config.drawWoken c.draws) } := by
  rcases advanceTx_cases cap c with ⟨hwrap, heq⟩ | ⟨hgo, heq⟩
  · rw [heq, give_tx_eq]
    cases hsem : c.slave.semTx <;> simp [raisesTx, hwrap, hsem]
  · simp [heq, raisesTx, hgo]

end

/-! ### The event classes (R155 to R159) -/

/-- What an event's handling starts from: the latches cleared, nothing woken. -/
def isrStart (sto sta : Bool) (s : State) : Isr := ⟨s.slave.clearLatches sto sta, s.slaveDraws, false⟩

theorem handleEvent_eq (sto sta : Bool) (body : Isr → Isr) (phase : Phase) (s : State) : s.handleEvent sto sta body phase =
    { s with
      slave := (body (isrStart sto sta s)).slave.endEvent phase (body (isrStart sto sta s)).woken
      slaveDraws := (body (isrStart sto sta s)).draws } := rfl

/-- Settles O34: the two cases of `armFromOutq` after the cursors are reset. -/
theorem addressReadArmsTheOldestByte : Obligations.AddressReadArmsTheOldestByte := by
  intro ign btc sto sta s
  have hexec : exec (.evAddrRd ign btc sto sta) s = .next (s.handleEvent sto sta addrRdBody .addrRd) := rfl
  refine ⟨_, clearLatches_flags sto sta s.slave, fun v rest hq => ?_, fun hq => ?_⟩
  · have harm : addrRdBody (isrStart sto sta s) = { (isrStart sto sta s).resetCursors with
        slave := { (isrStart sto sta s).resetCursors.slave with outq := rest, portTx := some v, txArmed := true } } := by
      rcases armFromOutq_cases (isrStart sto sta s).resetCursors with ⟨v', rest', hq', heq⟩ | ⟨hq', -⟩
      · cases hq.symm.trans hq'
        exact heq
      · cases hq.symm.trans hq'
    rw [hexec, handleEvent_eq, harm]
    rfl
  · have harm : addrRdBody (isrStart sto sta s) = (isrStart sto sta s).resetCursors := by
      rcases armFromOutq_cases (isrStart sto sta s).resetCursors with ⟨v', rest', hq', -⟩ | ⟨-, heq⟩
      · cases hq.symm.trans hq'
      · exact heq
    rw [hexec, handleEvent_eq, harm]
    rfl

/-- Settles O35: the cursors are reset and the port popped. -/
theorem addressWriteDropsTheAddressByte : Obligations.AddressWriteDropsTheAddressByte := by
  intro ign btc sto sta s
  have hexec : exec (.evAddrWr ign btc sto sta) s = .next (s.handleEvent sto sta addrWrBody .addrWr) := rfl
  refine ⟨_, clearLatches_flags sto sta s.slave, ?_⟩
  rw [hexec, handleEvent_eq, addrWrBody, portPop_eq]
  rfl

/-- Settles O36: OUTQ's oldest byte is armed, then the cursor advances. -/
theorem transmitEventAdvancesTheCursor : Obligations.TransmitEventAdvancesTheCursor := by
  intro ign btc sto sta s
  have hexec : exec (.evTx ign btc sto sta) s = .next (s.handleEvent sto sta (txBody s.bufCap) .inXfer) := rfl
  refine ⟨_, _, clearLatches_flags sto sta s.slave, rfl, ?_⟩
  rw [hexec, handleEvent_eq, txBody, armFromOutq_eq, advanceTx_eq]
  -- the port's new byte is written as a match in the statement
  have houtq : (isrStart sto sta s).slave.outq = s.slave.outq := rfl
  rw [houtq]
  cases s.slave.outq <;> rfl

/-- Settles O37: the port is popped, the byte stored and queued, then the cursor advances. -/
theorem receiveEventStoresAndQueuesTheByte : Obligations.ReceiveEventStoresAndQueuesTheByte := by
  intro ign sto sta s
  have hexec : exec (.evRx ign sto sta) s = .next (s.handleEvent sto sta (rxBody s.bufCap) .inXfer) := rfl
  refine ⟨_, _, _, _, s.slave.srxbuf.write s.slave.rxcur (s.slave.portRx.getD (Config.drawPort s.slaveDraws)),
    clearLatches_flags sto sta s.slave, rfl, rfl, rfl, ?_, memory_read_write_same .., fun i hi => memory_read_write_ne _ _ hi⟩
  rw [hexec, handleEvent_eq]
  simp only [rxBody, portPop_eq, enqueueInq_eq, advanceRx_eq]
  rfl

/-- Settles O38: SEM_TX is given. -/
theorem endEventGivesSemTx : Obligations.EndEventGivesSemTx := by
  intro ign sto sta s
  have hexec : exec (.evEnd ign sto sta) s = .next (s.handleEvent sto sta endBody .idle) := rfl
  refine ⟨_, clearLatches_flags sto sta s.slave, ?_⟩
  rw [hexec, handleEvent_eq, endBody, give_tx_eq]
  rfl

/-! ### The SED's step (R145) -/

/-- R185: no event's body changes IMASK. -/
theorem body_imask {body : Nat → Isr → Isr} (hbody : body ∈ eventBodies) (cap : Nat) (c : Isr) :
    (body cap c).slave.imask = c.slave.imask := by
  simp only [eventBodies, List.mem_cons, List.not_mem_nil, or_false] at hbody
  rcases hbody with rfl | rfl | rfl | rfl | rfl
  · show (addrRdBody c).slave.imask = _
    rw [addrRdBody, armFromOutq_eq]
    rfl
  · show (addrWrBody c).slave.imask = _
    rw [addrWrBody, portPop_eq]
    rfl
  · rw [txBody, armFromOutq_eq, advanceTx_eq]
  · simp only [rxBody, portPop_eq, enqueueInq_eq, advanceRx_eq]
    rfl
  · show (endBody c).slave.imask = _
    rw [endBody, give_tx_eq]

/-- Settles O39: a pending, unmasked event is handled in the common frame, which ends it. -/
theorem sedStepsExactlyOnAPendingUnmaskedEvent : Obligations.SedStepsExactlyOnAPendingUnmaskedEvent := by
  intro s
  refine ⟨fun ⟨hpend, hmask⟩ => ?_, sedStep_of_not_pending⟩
  obtain ⟨sto, sta, phase, body, hbody, hexec⟩ := exec_event (decodeEvent_isEvent s.slave.flags)
  exact ⟨_, (sedStep_of_pending hpend hmask).trans (hexec s), rfl, rfl, (body_imask hbody s.bufCap (isrStart sto sta s)).trans hmask⟩

/-! ### The peripheral (R146, R149, R163) -/

/-- Settles O40: a raise that may be is, one that may not changes nothing; the vector raised is read bit by bit. -/
theorem peripheralRaisesOneEventAtATime : Obligations.PeripheralRaisesOneEventAtATime := by
  intro sta sto nam rd btc rx s
  rcases periphRaise_cases sta sto nam rd btc rx s with ⟨hmay, heq⟩ | ⟨hnot, heq⟩
  · refine ⟨fun h => absurd hmay h, fun _ => ⟨_, heq, ?_, ?_⟩⟩
    · cases rx <;> rfl
    · obtain ⟨hsta, hsto, hnam, hrd, hbtc⟩ :=
        packEvent_bits 0 btc rd nam (sto || s.slave.flags.getLsbD bitSTO) (sta || s.slave.flags.getLsbD bitSTA)
      exact ⟨hsta, hsto, hnam, hrd, hbtc⟩
  · exact ⟨fun _ => heq, fun h => absurd h hnot⟩

/-- R149: an armed port's byte is sent. -/
theorem periphTransmit_armed {s : State} {v : Byte} (harmed : s.slave.txArmed = true) (hport : s.slave.portTx = some v) :
    periphTransmit s = .next { s with
      slave := { s.slave with txArmed := false }, answers := { s.answers with transmitted := some v } } := by
  simp only [periphTransmit, harmed, hport]

/-- R163: a port that is not armed sends a draw. -/
theorem periphTransmit_unarmed {s : State} (harmed : s.slave.txArmed = false) : periphTransmit s = .next { s with
    answers := { s.answers with transmitted := some (Config.drawPort s.slaveDraws) }, slaveDraws := s.slaveDraws + 1 } := by
  simp only [periphTransmit, harmed]
  rw [← harmed]

/-- Settles O41: the port's two cases. -/
theorem peripheralSendsTheArmedByte : Obligations.PeripheralSendsTheArmedByte := fun _ =>
  ⟨fun _ _ => ⟨_, rfl, rfl⟩, fun _ => periphTransmit_armed, periphTransmit_unarmed⟩

/-! ### The task side (R166 to R169) -/

/-- A blocked task whose wait has not run out stays blocked. -/
theorem blockOrFail_of_ne {w : Wait} (h : w ≠ .bounded true) (s : State) : blockOrFail w s = s := by
  rcases blockOrFail_cases w s with ⟨hw, -⟩ | ⟨-, heq⟩
  · exact absurd hw h
  · exact heq

/-- Settles O45: each operation where it completes, where it stays blocked and where its wait has run out. -/
theorem taskOperationsCompleteOrBlock : Obligations.TaskOperationsCompleteOrBlock := by
  intro s w v on
  refine ⟨fun b rest hq => taskReceive_cons hq w, fun hq => taskSend_room hq v w, fun hq hw => ?_, fun hq hw => ?_,
    fun hq => taskReceive_nil hq _, fun hq => taskSend_full hq v _, fun h => ?_, fun h => ?_, fun h => ?_, fun h => ?_, rfl⟩
  · rw [taskReceive_nil hq, blockOrFail_of_ne hw]
  · rw [taskSend_full hq, blockOrFail_of_ne hw]
  · simp only [taskTake, h, if_true]
    rfl
  · simp only [taskTake, h, if_true]
    rfl
  · simp only [taskTake, h, Bool.false_eq_true, if_false]
  · simp only [taskTake, h, Bool.false_eq_true, if_false]

/-! ### One event at a time (R146, R170) -/

/-- Settles O54: the raise sets HOLD and EVT_PEND, which shut out another raise, and the unmasked SED clears both. -/
theorem eventsAreSerialised : Obligations.EventsAreSerialised := by
  intro s sta sto nam rd btc rx hmay
  obtain ⟨t, ht, heq, -⟩ := (peripheralRaisesOneEventAtATime sta sto nam rd btc rx s).2 hmay
  have hhold : t.slave.hold = true := by rw [heq]
  have hpend : t.slave.evtPend = true := by rw [heq]
  have hmask : t.slave.imask = s.slave.imask := by rw [heq]
  obtain ⟨w, hw, hwpend, hwhold, hwmask⟩ :=
    (sedStepsExactlyOnAPendingUnmaskedEvent (t.onSlave fun sl => { sl with imask := false })).1 ⟨hpend, rfl⟩
  refine ⟨t, _, ht, fun hmasked => ?_, fun sta' sto' nam' rd' btc' rx' => ?_, rfl, w, hw, hwhold, hwpend, hwmask⟩
  · refine sedStep_of_not_pending fun ⟨_, hun⟩ => ?_
    rw [hmask, hmasked] at hun
    cases hun
  · refine (peripheralRaisesOneEventAtATime sta' sto' nam' rd' btc' rx' t).1 fun hagain => ?_
    rw [hagain.1] at hhold
    cases hhold

end Sys2Proof.Proofs
end

section
/-! Whole transactions of the slave side: the cursors over any number of events, a write transaction raised byte by byte, and a read
transaction answered from OUTQ (spec/43_slave_dispatcher.md R155 to R158, R165; spec/42_master_transactions.md R141). -/

namespace Sys2Proof.Proofs

open Sys2Proof Sys2Proof.Machine Sys2Proof.Laws

/-! ### A cursor modulo `BUF_CAP` (R165) -/

theorem bufCap_pos (s : State) : 0 < s.bufCap := Nat.succ_pos _

/-- The cursor after one event more. -/
theorem cursor_succ {cap : Nat} (hcap : 0 < cap) (n : Nat) : (if n % cap + 1 = cap then 0 else n % cap + 1) = (n + 1) % cap := by
  have hlt := Nat.mod_lt n hcap
  rw [Nat.add_mod n 1 cap]
  split
  next h =>
    rcases Nat.lt_or_ge 1 cap with h1 | h1
    · rw [Nat.mod_eq_of_lt h1, h, Nat.mod_self]
    · obtain rfl : cap = 1 := by omega
      simp [Nat.mod_one]
  next h => rw [Nat.mod_eq_of_lt (a := 1) (by omega), Nat.mod_eq_of_lt (by omega : n % cap + 1 < cap)]

/-- The cursor has wrapped by then exactly if it had, or wraps now. -/
theorem wrapped_succ {cap : Nat} (hcap : 0 < cap) (sem : Bool) (n : Nat) :
    ((sem || decide (cap ≤ n)) || decide (n % cap + 1 = cap)) = (sem || decide (cap ≤ n + 1)) := by
  have hlt := Nat.mod_lt n hcap
  have hle := Nat.mod_le n cap
  have hiff : (cap ≤ n ∨ n % cap + 1 = cap) ↔ cap ≤ n + 1 := by
    rcases Nat.lt_or_ge n cap with h | h
    · rw [Nat.mod_eq_of_lt h]
      omega
    · omega
  rw [Bool.or_assoc, ← Bool.decide_or, decide_eq_decide.2 hiff]

/-! ### Runs of events -/

theorem execAll_append (l l' : List Instr) {s t : State} (h : execAll l s = .next t) : execAll (l ++ l') s = execAll l' t := by
  induction l generalizing s with
  | nil =>
    cases h
    rfl
  | cons i l ih =>
    simp only [List.cons_append, execAll] at h ⊢
    cases hi : exec i s with
    | next u =>
      simp only [hi] at h ⊢
      exact ih h
    | fault | refused =>
      simp only [hi] at h
      cases h

theorem execAll_singleton {i : Instr} {s t : State} (h : exec i s = .next t) : execAll [i] s = .next t := by
  simp only [execAll, h]

/-- R165, receiving: the address event and then `n` receive events. -/
theorem cursor_evRx (ign : BitVec 3) (btc sto sta : Bool) (n : Nat) (s : State) :
    ∃ t, execAll (.evAddrWr ign btc sto sta :: List.replicate n (.evRx ign sto sta)) s = .next t ∧ t.params = s.params ∧
      t.slave.rxcur = n % s.bufCap ∧ t.slave.txcur = 0 ∧ t.slave.semRx = (s.slave.semRx || decide (s.bufCap ≤ n)) ∧
      t.master = s.master := by
  induction n with
  | zero =>
    obtain ⟨f, -, haddr⟩ := addressWriteDropsTheAddressByte ign btc sto sta s
    refine ⟨_, execAll_singleton haddr, rfl, (Nat.zero_mod _).symm, rfl, ?_, rfl⟩
    rw [decide_eq_false (Nat.not_le.2 (bufCap_pos s)), Bool.or_false]
  | succ n ih =>
    obtain ⟨t, ht, hparams, hrx, htx, hsem, hmaster⟩ := ih
    obtain ⟨f, b, popped, raises, buf, -, -, -, -, hexec, -, -⟩ := receiveEventStoresAndQueuesTheByte ign sto sta t
    have hcap : t.bufCap = s.bufCap := congrArg Params.bufCap hparams
    rw [List.replicate_succ', ← List.cons_append, execAll_append _ _ ht]
    refine ⟨_, execAll_singleton hexec, hparams, ?_, htx, ?_, hmaster⟩
    · simp only [hrx, hcap]
      exact cursor_succ (bufCap_pos s) n
    · simp only [hsem, hrx, hcap]
      exact wrapped_succ (bufCap_pos s) s.slave.semRx n

/-- R165, transmitting, likewise. -/
theorem cursor_evTx (ign : BitVec 3) (btc sto sta : Bool) (n : Nat) (s : State) :
    ∃ t, execAll (.evAddrRd ign btc sto sta :: List.replicate n (.evTx ign btc sto sta)) s = .next t ∧ t.params = s.params ∧
      t.slave.txcur = n % s.bufCap ∧ t.slave.rxcur = 0 ∧ t.slave.semTx = (s.slave.semTx || decide (s.bufCap ≤ n)) ∧
      t.master = s.master := by
  induction n with
  | zero =>
    have hsem : s.slave.semTx = (s.slave.semTx || decide (s.bufCap ≤ 0)) := by
      rw [decide_eq_false (Nat.not_le.2 (bufCap_pos s)), Bool.or_false]
    obtain ⟨f, -, harm, hempty⟩ := addressReadArmsTheOldestByte ign btc sto sta s
    cases hq : s.slave.outq with
    | nil => exact ⟨_, execAll_singleton (hempty hq), rfl, (Nat.zero_mod _).symm, rfl, hsem, rfl⟩
    | cons v rest => exact ⟨_, execAll_singleton (harm v rest hq), rfl, (Nat.zero_mod _).symm, rfl, hsem, rfl⟩
  | succ n ih =>
    obtain ⟨t, ht, hparams, htx, hrx, hsem, hmaster⟩ := ih
    obtain ⟨f, raises, -, -, hexec⟩ := transmitEventAdvancesTheCursor ign btc sto sta t
    have hcap : t.bufCap = s.bufCap := congrArg Params.bufCap hparams
    rw [List.replicate_succ', ← List.cons_append, execAll_append _ _ ht]
    refine ⟨_, execAll_singleton hexec, hparams, ?_, hrx, ?_, hmaster⟩
    · simp only [htx, hcap]
      exact cursor_succ (bufCap_pos s) n
    · simp only [hsem, htx, hcap]
      exact wrapped_succ (bufCap_pos s) s.slave.semTx n

/-- Settles O42: one event more moves the cursor one place modulo `BUF_CAP`. -/
theorem cursorsCountModuloCapacity : Obligations.CursorsCountModuloCapacity := by
  intro s ign btc sto sta n
  obtain ⟨t, ht, -, hresult⟩ := cursor_evRx ign btc sto sta n s
  obtain ⟨t', ht', -, hresult'⟩ := cursor_evTx ign btc sto sta n s
  exact ⟨⟨t, ht, hresult⟩, ⟨t', ht', hresult'⟩⟩

/-! ### An event raised and handled (R145, R146) -/

/-- The mask is down and no event exists. -/
def Ready (sl : Slave) : Prop := sl.imask = false ∧ sl.hold = false ∧ sl.evtPend = false

/-- The slave side with an event raised. -/
def raised (sta sto nam rd btc : Bool) (rx : Option Byte) (sl : Slave) : Slave :=
  { sl with
    flags := raisedFlags sl.flags sta sto nam rd btc
    portRx := rx.or sl.portRx
    evtPend := true
    hold := true
    eventSeen := nam || !sto }

theorem runScript_single {a : AgentStep} {s t : State} (h : agentStep a s = .next t) (rest : List AgentStep) :
    runScript (a :: rest) s = runScript rest t := by
  simp only [runScript_cons, h]

/-- Where nothing stands in its way, the event is raised, and the SED then runs the class of the vector raised. -/
theorem runScript_raise_sed (sta sto nam rd btc : Bool) (rx : Option Byte) {s t : State} {i : Instr} (hready : Ready s.slave)
    (hmay : MayRaise s.slave sta nam rd rx) (hi : decodeEvent (raisedFlags s.slave.flags sta sto nam rd btc) = i)
    (ht : exec i (s.onSlave (raised sta sto nam rd btc rx)) = .next t) (rest : List AgentStep) :
    runScript (.periphRaise sta sto nam rd btc rx :: .sed :: rest) s = runScript rest t := by
  have hraise : agentStep (.periphRaise sta sto nam rd btc rx) s = .next (s.onSlave (raised sta sto nam rd btc rx)) := by
    rcases periphRaise_cases sta sto nam rd btc rx s with ⟨-, heq⟩ | ⟨hnot, -⟩
    · exact heq
    · exact absurd hmay hnot
  have hsed : agentStep .sed (s.onSlave (raised sta sto nam rd btc rx)) = .next t := by
    subst hi
    exact (sedStep_of_pending (s := s.onSlave (raised sta sto nam rd btc rx)) rfl hready.1).trans ht
  rw [runScript_single hraise, runScript_single hsed]

/-- R146: an event that is no address match may be raised whenever none exists. -/
theorem mayRaise_of_ready {sl : Slave} (h : Ready sl) (sta rd : Bool) (rx : Option Byte) : MayRaise sl sta false rd rx :=
  ⟨h.2.1, h.2.2, nofun⟩

/-- R146: the address match of a new START may be, too, with the byte that matched. -/
theorem mayRaise_address {sl : Slave} (h : Ready sl) (rd : Bool) :
    MayRaise sl true true rd (some (Config.slvAddr ++ BitVec.ofBool rd)) :=
  ⟨h.2.1, h.2.2, fun _ => ⟨.inl rfl, .inr rfl⟩⟩

/-! ### Receiving (R156, R158) -/

/-- The address event of a write transaction. -/
theorem runScript_addrWr {s : State} (hready : Ready s.slave) (rest : List AgentStep) :
    ∃ t, runScript (.periphRaise true false true false false (some (Config.slvAddr ++ BitVec.ofBool false)) :: .sed :: rest) s =
        runScript rest t ∧
      Ready t.slave ∧ t.params = s.params ∧ t.master = s.master ∧ t.slave.rxcur = 0 ∧ t.slave.inq = s.slave.inq ∧
      t.slave.outq = s.slave.outq ∧ t.slave.semRx = s.slave.semRx := by
  obtain ⟨f, -, hexec⟩ := addressWriteDropsTheAddressByte 0 false (false || s.slave.flags.getLsbD bitSTO)
    (true || s.slave.flags.getLsbD bitSTA) (s.onSlave (raised true false true false false (some (Config.slvAddr ++ BitVec.ofBool false))))
  refine ⟨_, runScript_raise_sed true false true false false _ hready (mayRaise_address hready false) (decodeEvent_packEvent ..) hexec rest, ?_⟩
  exact ⟨⟨hready.1, rfl, rfl⟩, rfl, rfl, rfl, rfl, rfl, rfl⟩

/-- A data byte received, with room for it on INQ. -/
theorem runScript_received {s : State} (hready : Ready s.slave) (hroom : s.slave.inq.length < Config.qCap) (v : Byte)
    (rest : List AgentStep) :
    ∃ t, runScript (.periphRaise false false false false true (some v) :: .sed :: rest) s = runScript rest t ∧
      Ready t.slave ∧ t.params = s.params ∧ t.master = s.master ∧
      t.slave.rxcur = (if s.slave.rxcur + 1 = s.bufCap then 0 else s.slave.rxcur + 1) ∧ t.slave.inq = s.slave.inq ++ [v] ∧
      t.slave.outq = s.slave.outq ∧ t.slave.semRx = (s.slave.semRx || decide (s.slave.rxcur + 1 = s.bufCap)) ∧
      t.slave.srxbuf.read s.slave.rxcur = some v ∧
      ∀ i, i ≠ s.slave.rxcur → t.slave.srxbuf.read i = s.slave.srxbuf.read i := by
  obtain ⟨f, b, popped, raises, buf, -, rfl, -, -, hexec, hsame, hother⟩ := receiveEventStoresAndQueuesTheByte 0
    (false || s.slave.flags.getLsbD bitSTO) (false || s.slave.flags.getLsbD bitSTA)
    (s.onSlave (raised false false false false true (some v)))
  refine ⟨_, runScript_raise_sed false false false false true _ hready (mayRaise_of_ready hready _ _ _) (decodeEvent_packEvent ..) hexec rest, ?_⟩
  exact ⟨⟨hready.1, rfl, rfl⟩, rfl, rfl, rfl, if_pos hroom, rfl, rfl, hsame, hother⟩

theorem eventScript_append (l l' : List (Bool × Bool × Bool × Bool × Bool × Option Byte)) :
    eventScript (l ++ l') = eventScript l ++ eventScript l' := by
  induction l with
  | nil => rfl
  | cons e l ih =>
    obtain ⟨sta, sto, nam, rd, btc, rx⟩ := e
    simp only [List.cons_append, eventScript, ih]

/-- Places that share an index of the buffer are at least a buffer apart. -/
theorem mod_ne_of_close {cap p n : Nat} (hlt : p < n) (hclose : n < p + cap) : p % cap ≠ n % cap := by
  intro h
  have hdvd : cap ∣ n - p := (Nat.modEq_iff_dvd' hlt.le).1 h
  exact absurd (Nat.le_of_dvd (by omega) hdvd) (by omega)

/-- The events of a write transaction: the address byte, then each data byte. -/
def writeEvents (bytes : List Byte) : List (Bool × Bool × Bool × Bool × Bool × Option Byte) :=
  (true, false, true, false, false, some (Config.slvAddr ++ BitVec.ofBool false)) ::
    bytes.map fun v => (false, false, false, false, true, some v)

/-- What the slave side `sl`, of capacity `cap`, is once it has received the bytes. -/
structure Received (cap : Nat) (sl sl' : Slave) (bytes : List Byte) : Prop where
  ready : Ready sl'
  inq : sl'.inq = sl.inq ++ bytes
  rxcur : sl'.rxcur = bytes.length % cap
  semRx : sl'.semRx = (sl.semRx || decide (cap ≤ bytes.length))
  lastBytes : ∀ p v, bytes[p]? = some v → bytes.length ≤ p + cap → sl'.srxbuf.read (p % cap) = some v
  outq : sl'.outq = sl.outq

/-- Each byte more goes to the end of INQ and to the cursor's place in SRXBUF, where it replaces only the byte a whole buffer before it. -/
theorem received_after (s : State) (hready : Ready s.slave) (bytes : List Byte)
    (hroom : s.slave.inq.length + bytes.length ≤ Config.qCap) :
    ∃ u, runScript (eventScript (writeEvents bytes)) s = .next u ∧ Received s.bufCap s.slave u.slave bytes ∧
      u.params = s.params ∧ u.master = s.master := by
  have hcap0 := bufCap_pos s
  induction bytes using List.reverseRecOn with
  | nil =>
    obtain ⟨t, hrun, hready', hparams, hmaster, hrx, hinq, houtq, hsem⟩ := runScript_addrWr hready []
    refine ⟨t.given [], hrun, ⟨hready', ?_, ?_, ?_, nofun, houtq⟩, hparams, hmaster⟩
    · rw [List.append_nil]
      exact hinq
    · rw [List.length_nil, Nat.zero_mod]
      exact hrx
    · rw [List.length_nil, decide_eq_false (Nat.not_le.2 hcap0), Bool.or_false]
      exact hsem
  | append_singleton bytes v ih =>
    rw [List.length_append, List.length_singleton] at hroom
    obtain ⟨u, hrun, ⟨hready, hinq, hrx, hsem, hread, houtq⟩, hparams, hmaster⟩ := ih (by omega)
    have hcap : u.bufCap = s.bufCap := congrArg Params.bufCap hparams
    have hinqRoom : u.slave.inq.length < Config.qCap := by
      rw [hinq, List.length_append]
      omega
    obtain ⟨t, hrun', hready', hparams', hmaster', hrx', hinq', houtq', hsem', hsame, hother⟩ := runScript_received hready hinqRoom v []
    rw [hrx, hcap] at hrx' hsem'
    rw [hrx] at hsame hother
    refine ⟨t.given [], ?_, ⟨hready', ?_, ?_, ?_, ?_, houtq'.trans houtq⟩, hparams'.trans hparams, hmaster'.trans hmaster⟩
    · rw [writeEvents, List.map_append, ← List.cons_append, eventScript_append, runScript_append, ← writeEvents, hrun]
      exact hrun'
    · rw [given_slave, hinq', hinq, List.append_assoc]
    · rw [given_slave, hrx', List.length_append]
      exact cursor_succ hcap0 bytes.length
    · rw [given_slave, hsem', hsem, List.length_append]
      exact wrapped_succ hcap0 s.slave.semRx bytes.length
    · intro p w hp hlast
      rw [List.length_append, List.length_singleton] at hlast
      rcases Nat.lt_trichotomy p bytes.length with hlt | heq | hgt
      · rw [List.getElem?_append_left hlt] at hp
        exact (hother _ (mod_ne_of_close hlt (by omega))).trans (hread p w hp (by omega))
      · subst heq
        rw [List.getElem?_concat_length] at hp
        cases hp
        exact hsame
      · rw [List.getElem?_eq_none (by simp; omega)] at hp
        cases hp

/-- Settles O43: what has been received after the last byte. -/
theorem receivedBytesReachInqInOrder : Obligations.ReceivedBytesReachInqInOrder := by
  intro s bytes hmask hhold hpend hroom
  obtain ⟨u, hrun, h, -, hmaster⟩ := received_after s ⟨hmask, hhold, hpend⟩ bytes hroom
  exact ⟨u, hrun, h.inq, h.rxcur, h.semRx, h.lastBytes, h.outq, h.ready.2.1, h.ready.2.2, hmaster⟩

/-! ### Transmitting (R149, R155, R157) -/

/-- The port is armed with a byte, the rest of OUTQ and INQ are as given, and no event exists. -/
def Armed (sl : Slave) (v : Byte) (rest inq : List Byte) : Prop :=
  Ready sl ∧ sl.txArmed = true ∧ sl.portTx = some v ∧ sl.outq = rest ∧ sl.inq = inq

/-- The address event of a read transaction arms the oldest byte. -/
theorem runScript_addrRd {s : State} {v : Byte} {rest : List Byte} (hready : Ready s.slave) (hq : s.slave.outq = v :: rest)
    (script : List AgentStep) :
    ∃ t, runScript (.periphRaise true false true true false (some (Config.slvAddr ++ BitVec.ofBool true)) :: .sed :: script) s =
        runScript script t ∧
      Armed t.slave v rest s.slave.inq ∧ t.master = s.master := by
  obtain ⟨f, -, harm, -⟩ := addressReadArmsTheOldestByte 0 false (false || s.slave.flags.getLsbD bitSTO)
    (true || s.slave.flags.getLsbD bitSTA) (s.onSlave (raised true false true true false (some (Config.slvAddr ++ BitVec.ofBool true))))
  refine ⟨_, runScript_raise_sed true false true true false _ hready (mayRaise_address hready true)
    (decodeEvent_packEvent ..) (harm v rest hq) script, ?_, rfl⟩
  exact ⟨⟨hready.1, rfl, rfl⟩, rfl, rfl, rfl, rfl⟩

/-- A byte sent from the armed port. -/
theorem runScript_transmit {s : State} {v : Byte} {rest inq : List Byte} (h : Armed s.slave v rest inq) (script : List AgentStep) :
    ∃ t, runScript (.periphTransmit :: script) s = runScript script t ∧
      t.slave = { s.slave with txArmed := false } ∧ t.answers.transmitted = some v ∧ t.master = s.master := by
  obtain ⟨-, harmed, hport, -, -⟩ := h
  exact ⟨_, runScript_single (a := .periphTransmit) (periphTransmit_armed harmed hport) script, rfl, rfl, rfl⟩

/-- The event of a byte sent arms the next one. -/
theorem runScript_sent {s : State} {v : Byte} {rest : List Byte} (hready : Ready s.slave) (hq : s.slave.outq = v :: rest)
    (script : List AgentStep) :
    ∃ t, runScript (.periphRaise false false false true false none :: .sed :: script) s = runScript script t ∧
      Armed t.slave v rest s.slave.inq ∧ t.master = s.master := by
  obtain ⟨f, raises, -, -, hexec⟩ := transmitEventAdvancesTheCursor 0 false (false || s.slave.flags.getLsbD bitSTO)
    (false || s.slave.flags.getLsbD bitSTA) (s.onSlave (raised false false false true false none))
  refine ⟨_, runScript_raise_sed false false false true false _ hready (mayRaise_of_ready hready _ _ _)
    (decodeEvent_packEvent ..) hexec script, ?_, rfl⟩
  have hq' : (s.onSlave (raised false false false true false none)).slave.outq = v :: rest := hq
  refine ⟨⟨hready.1, rfl, rfl⟩, ?_, ?_, ?_, rfl⟩ <;> simp only [hq', List.isEmpty_cons, Bool.not_false, Bool.or_true, List.tail_cons]

/-- The steps of a byte sent: the transmission, and the event of it. -/
def sentSteps : List AgentStep := [.periphTransmit, .periphRaise false false false true false none, .sed]

/-- After the address event and `k` bytes sent, byte `k` is armed. -/
theorem armed_after (s : State) (hready : Ready s.slave) (k : Nat) {v : Byte} (hk : s.slave.outq[k]? = some v) :
    ∃ t, runScript ([.periphRaise true false true true false (some (Config.slvAddr ++ BitVec.ofBool true)), .sed] ++
        (List.replicate k sentSteps).flatten) s = .next t ∧
      Armed t.slave v (s.slave.outq.drop (k + 1)) s.slave.inq ∧ t.master = s.master := by
  induction k generalizing v with
  | zero =>
    obtain ⟨hlt, hv⟩ := List.getElem?_eq_some_iff.1 hk
    have hq : s.slave.outq = v :: s.slave.outq.drop 1 := by
      rw [← hv, List.getElem_cons_drop]
      rfl
    obtain ⟨t, hrun, harmed, hmaster⟩ := runScript_addrRd hready hq []
    exact ⟨t.given [], hrun, harmed, hmaster⟩
  | succ k ih =>
    obtain ⟨hlt, hv⟩ := List.getElem?_eq_some_iff.1 hk
    obtain ⟨t, hrun, harmed, hmaster⟩ := ih (List.getElem?_eq_getElem (Nat.lt_of_succ_lt hlt))
    obtain ⟨t1, hrun1, hslave1, -, hmaster1⟩ := runScript_transmit harmed [.periphRaise false false false true false none, .sed]
    obtain ⟨⟨hmask, hhold, hpend⟩, -, -, houtq, hinq⟩ := harmed
    have hready1 : Ready t1.slave := by
      rw [hslave1]
      exact ⟨hmask, hhold, hpend⟩
    have hq : t1.slave.outq = v :: s.slave.outq.drop (k + 2) := by
      rw [hslave1, ← hv, List.getElem_cons_drop]
      exact houtq
    obtain ⟨t2, hrun2, harmed2, hmaster2⟩ := runScript_sent hready1 hq []
    refine ⟨t2.given [], ?_, ?_, (hmaster2.trans hmaster1).trans hmaster⟩
    · rw [List.replicate_succ', List.flatten_append, ← List.append_assoc, runScript_append, hrun]
      exact hrun1.trans hrun2
    · rw [hslave1] at harmed2
      exact hinq ▸ harmed2

/-- Settles O44: byte `k` of OUTQ is armed after `k` bytes sent, and the port sends what it is armed with. -/
theorem outqBytesAreTransmittedInOrder : Obligations.OutqBytesAreTransmittedInOrder := by
  intro s k v hmask hhold hpend hk
  obtain ⟨t, hrun, harmed, hmaster⟩ := armed_after s ⟨hmask, hhold, hpend⟩ k hk
  obtain ⟨u, hrun', hslave, hsent, hmaster'⟩ := runScript_transmit harmed []
  obtain ⟨-, -, -, houtq, hinq⟩ := harmed
  refine ⟨u.given [], ?_, hsent, ?_, ?_, hmaster'.trans hmaster⟩
  · rw [runScript_append, ← sentSteps, hrun]
    exact hrun'
  · rw [given_slave, hslave]
    exact houtq
  · rw [given_slave, hslave]
    exact hinq

end Sys2Proof.Proofs
end

section
/-! Running stretches of a program: what a list of lines does to the datapath, and the records its uops leave, which depend on the pins and
the PEER alone (spec/40_bus_primitives.md R100 to R107, spec/41_master_byte.md R116). -/

namespace Sys2Proof.Proofs

open Sys2Proof Sys2Proof.Machine Sys2Proof.Laws

/-! ### One line of uop (R116) -/

/-- A step with no control before the uop. -/
theorem step_of_pre_nil {m : Master} {u : Micro} {rest : List Micro} (hm : m.mpc = u :: rest) (hu : u.pre = []) (p : Peer) :
    m.step p = m.performUop p u rest := by
  simp only [Master.step, hm, hu, Master.runControls]

/-- A step whose control before the uop leaves `m1`, at its own first line. -/
theorem step_of_pre {m m1 : Master} {u v : Micro} {rest rest' : List Micro} (hm : m.mpc = u :: rest)
    (hpre : Master.runControls u.pre m = .ok m1) (hm1 : m1.mpc = v :: rest') (p : Peer) : m.step p = m1.performUop p v rest' := by
  simp only [Master.step, hm, hpre, hm1]

/-- The uop and what follows it read neither MPC nor the control before it. -/
theorem performUop_congr (m : Master) (l : List Micro) (p : Peer) {u v : Micro} (hu : u.uop = v.uop) (hp : u.post = v.post)
    (rest : List Micro) : Master.performUop { m with mpc := l } p u rest = m.performUop p v rest := by
  simp only [performUop_eq, hu, hp]
  cases v.uop with
  | sda src => cases src <;> rfl
  | wait src => cases src <;> rfl
  | sample dst => cases dst <;> rfl
  | scl v => rfl
  | sdaOe d => rfl

/-- R104: what SDA_OE leaves on Data. -/
theorem sdaLevel_with_dir (m : Master) (d : Dir) (p : Peer) :
    sdaLevel { m with sdaDir := d } p = ((d == .inp || m.sdaOut) && p.sda) := sdaLevel_eq { m with sdaDir := d } p

/-- R103: what SDA leaves on Data. -/
theorem sdaLevel_with_sda (m : Master) (v : Bool) (p : Peer) :
    sdaLevel { m with sdaOut := v } p = ((m.sdaDir == .inp || v) && p.sda) := sdaLevel_eq { m with sdaOut := v } p

/-- R125: the control of the line that samples a data bit. -/
theorem runControls_shiftRb (m : Master) : Master.runControls [.shiftRbUnlessLast, .countBit] m =
    .ok { m with rb := if m.bitn < 7 then m.rb <<< 1 else m.rb, bitn := m.bitn + 1 } := by
  simp only [Master.runControls, Master.runControl]
  split <;> rfl

/-- R125: the bit sampled, as the byte that is ORed into RB. -/
theorem ofBool_zeroExtend (b : Bool) : (BitVec.ofBool b).zeroExtend 8 = (if b then 0x01 else 0x00 : Byte) := by cases b <;> rfl

/-- Settles O12: a line without control is its uop alone; the two lines that sample are it and their own control. -/
theorem uopsChangeWhatTheirRulesSay : Obligations.UopsChangeWhatTheirRulesSay := by
  intro m p next rest
  refine ⟨fun v h => ⟨_, step_line h p, rfl⟩, fun src h => ⟨_, step_line h p, ?_⟩, fun d h => ⟨_, step_line h p, ?_⟩,
    fun src h => ⟨_, step_line h p, rfl⟩, fun h => ⟨_, step_of_pre_nil h rfl p, rfl, ?_⟩,
    fun h => ⟨_, _, ?_, rfl, rfl⟩⟩
  · rw [← sdaLevel_with_sda]
    rfl
  · rw [← sdaLevel_with_dir]
    rfl
  · have hstatus := status_putStatus (i := bitNACK) (by decide) m (sdaLevel m p)
    exact ⟨(hstatus bitNACK).trans (if_pos rfl), fun j hj => (hstatus j).trans (if_neg hj)⟩
  · rw [step_of_pre_nil h rfl p, performUop_eq, runControls_shiftRb, ← ofBool_zeroExtend]
    rfl

/-! ### The pins along a list of uops -/

/-- The three pins of the master side (R46). -/
structure Pins where
  scl : Bool
  sda : Bool
  dir : Dir

/-- The pins of a master side. -/
def pinsOf (m : Master) : Pins := ⟨m.sclOut, m.sdaOut, m.sdaDir⟩

/-- R101, R103, R104: the pins after a uop. -/
def Pins.after (q : Pins) : Uop → Pins
  | .scl v => { q with scl := v }
  | .sda v => { q with sda := v }
  | .sdaOe d => { q with dir := d }
  | .wait _ => q
  | .sample => q

/-- The level the master gives Data: high if the pin is an input (R102). -/
def Pins.data (q : Pins) : Bool :=
  match q.dir with
  | .out => q.sda
  | .inp => true

/-- R48: the record of a uop, by the pins after it and the PEER's drive. -/
def recordOf (u : Uop) (q : Pins) (p : Peer) : TraceRec := ⟨u, q.scl, q.sda, q.dir, q.scl && p.scl, q.data && p.sda⟩

/-- The pins after a list of uops. -/
def pinsAfter (q : Pins) (us : List Uop) : Pins := us.foldl Pins.after q

/-- The records of a list of uops from pins `q`, the PEER driving `f i` at the first of them, `f (i + 1)` at the next, and so on. -/
def recordsFrom (f : Nat → Peer) : Nat → Pins → List Uop → List TraceRec
  | _, _, [] => []
  | i, q, u :: us => recordOf u (q.after u) (f i) :: recordsFrom f (i + 1) (q.after u) us

/-- The master side with its pins moved by a list of uops and their records in its TRACE. -/
def driven (f : Nat → Peer) (i : Nat) (us : List Uop) (m : Master) : Master :=
  { m with
    sclOut := (pinsAfter (pinsOf m) us).scl
    sdaOut := (pinsAfter (pinsOf m) us).sda
    sdaDir := (pinsAfter (pinsOf m) us).dir
    trace := m.trace ++ recordsFrom f i (pinsOf m) us }

@[simp] theorem length_recordsFrom (f : Nat → Peer) (i : Nat) (q : Pins) (us : List Uop) : (recordsFrom f i q us).length = us.length := by
  induction us generalizing i q with
  | nil => rfl
  | cons u us ih => simp only [recordsFrom, List.length_cons, ih]

theorem pinsAfter_append (q : Pins) (us vs : List Uop) : pinsAfter q (us ++ vs) = pinsAfter (pinsAfter q us) vs :=
  List.foldl_append

theorem recordsFrom_append (f : Nat → Peer) (i : Nat) (q : Pins) (us vs : List Uop) :
    recordsFrom f i q (us ++ vs) = recordsFrom f i q us ++ recordsFrom f (i + us.length) (pinsAfter q us) vs := by
  induction us generalizing i q with
  | nil => rfl
  | cons u us ih =>
    simp only [List.cons_append, recordsFrom, ih, List.length_cons]
    rw [Nat.add_assoc, Nat.add_comm 1]
    rfl

/-- Stretches of uops compose. -/
theorem driven_append (f : Nat → Peer) (i : Nat) (us vs : List Uop) (m : Master) :
    driven f i (us ++ vs) m = driven f (i + us.length) vs (driven f i us m) := by
  simp only [driven, pinsAfter_append, recordsFrom_append, ← List.append_assoc]
  rfl

/-! ### Runs by the index of the step -/

/-- `n` MBB steps, the PEER driving `f i` at the first of them. -/
def runFrom (f : Nat → Peer) : Nat → Nat → Master → Except Fault Master
  | _, 0, m => .ok m
  | i, n + 1, m =>
    match m.step (f i) with
    | .ok m' => runFrom f (i + 1) n m'
    | .error e => .error e

/-- The PEER's drive at the `i`-th step; past the end of the list both lines are released. -/
def peerAt (ps : List Peer) (i : Nat) : Peer := ps.getD i Peer.released

theorem runFrom_succ_index (f : Nat → Peer) (i n : Nat) (m : Master) : runFrom f (i + 1) n m = runFrom (fun j => f (j + 1)) i n m := by
  induction n generalizing i m with
  | zero => rfl
  | succ n ih =>
    simp only [runFrom]
    cases m.step (f (i + 1)) with
    | ok m' => exact ih (i + 1) m'
    | error e => rfl

/-- A run beside a listed PEER. -/
theorem masterRun_eq_runFrom (m : Master) (ps : List Peer) : masterRun m ps = runFrom (peerAt ps) 0 ps.length m := by
  induction ps generalizing m with
  | nil => rfl
  | cons p ps ih =>
    simp only [masterRun, List.length_cons, runFrom, peerAt, List.getD_cons_zero]
    cases m.step p with
    | ok m' => exact (ih m').trans (runFrom_succ_index (peerAt (p :: ps)) 0 ps.length m').symm
    | error e => rfl

theorem runFrom_add (f : Nat → Peer) (i a b : Nat) (m : Master) :
    runFrom f i (a + b) m =
      match runFrom f i a m with
      | .ok m' => runFrom f (i + a) b m'
      | .error e => .error e := by
  induction a generalizing i m with
  | zero =>
    rw [Nat.zero_add]
    rfl
  | succ a ih =>
    rw [Nat.succ_add]
    simp only [runFrom]
    cases m.step (f i) with
    | ok m' =>
      simp only [ih]
      rw [Nat.add_assoc i 1 a, Nat.add_comm 1 a]
    | error e => rfl

/-! ### What a stretch of a program does -/

/-- The lines `prog`, run from `m` at the steps from `i` on, leave `m'` at whatever stands after them; at their program's end FINISH comes
with the last of them (R116). -/
def Runs (f : Nat → Peer) (i : Nat) (prog : List Micro) (m m' : Master) : Prop :=
  ∀ rest, runFrom f i prog.length { m with mpc := prog ++ rest } = .ok (finishIfDone { m' with mpc := rest })

theorem Runs.append {f : Nat → Peer} {i : Nat} {p q : List Micro} {m m1 m' : Master} (hp : Runs f i p m m1)
    (hq : Runs f (i + p.length) q m1 m') (hne : q ≠ []) : Runs f i (p ++ q) m m' := by
  intro rest
  obtain ⟨u, q, rfl⟩ := List.exists_cons_of_ne_nil hne
  rw [List.length_append, runFrom_add, List.append_assoc, hp]
  exact hq rest

/-- One line. -/
theorem runs_line {f : Nat → Peer} {i : Nat} {u : Micro} {m m' : Master} (hpre : u.pre = [])
    (h : ∀ rest, Master.runControls u.post (Master.record { (m.doUop (f i) u.uop).2 with mpc := rest } (f i) (m.doUop (f i) u.uop).1) =
      .ok { m' with mpc := rest }) : Runs f i [u] m m' := by
  intro rest
  show runFrom f i 1 _ = _
  rw [runFrom, step_of_pre_nil (m := { m with mpc := [u] ++ rest }) (u := u) (rest := rest) rfl hpre, performUop_congr m _ _ rfl rfl,
    performUop_eq, h]
  rfl

/-- The uop as the TRACE records it. -/
def resolve (m : Master) : ProgUop → Uop
  | .scl v => .scl v
  | .sda src => .sda (src.level m)
  | .sdaOe d => .sdaOe d
  | .wait src => .wait (src.units m)
  | .sample _ => .sample

/-- A uop that only moves pins or waits (R100). -/
def isPlain : ProgUop → Bool
  | .sample _ => false
  | .scl _ => true
  | .sda _ => true
  | .sdaOe _ => true
  | .wait _ => true

/-- A plain uop moves the pins as its record says, and nothing else. -/
theorem runs_plain (f : Nat → Peer) (i : Nat) {u : ProgUop} (hu : isPlain u = true) (m : Master) :
    Runs f i [line u] m (driven f i [resolve m u] m) := by
  refine runs_line rfl fun rest => ?_
  cases u with
  | sample dst => cases hu
  | scl v => rfl
  | sda src => cases src <;> rfl
  | sdaOe d => rfl
  | wait src => rfl

/-- What a uop resolves to depends on the datapath, not on the pins. -/
theorem resolve_driven (f : Nat → Peer) (i : Nat) (us : List Uop) (m : Master) : resolve (driven f i us m) = resolve m := by
  funext u
  cases u with
  | sda src => cases src <;> rfl
  | wait src => cases src <;> rfl
  | scl | sdaOe | sample => rfl

/-- Plain uops, one after the other. -/
theorem runs_plainLines (f : Nat → Peer) (i : Nat) (us : List ProgUop) (hne : us ≠ []) (hus : us.all isPlain = true) (m : Master) :
    Runs f i (us.map line) m (driven f i (us.map (resolve m)) m) := by
  induction us generalizing i m with
  | nil => contradiction
  | cons u us ih =>
    obtain ⟨hu, hus⟩ := Bool.and_eq_true_iff.1 (List.all_cons.symm.trans hus)
    cases us with
    | nil => exact runs_plain f i hu m
    | cons v us =>
      have hrest := ih (i + 1) nofun hus (driven f i [resolve m u] m)
      rw [resolve_driven] at hrest
      have happend := driven_append f i [resolve m u] ((v :: us).map (resolve m)) m
      rw [List.map_cons, List.map_cons (f := resolve m)]
      exact happend ▸ (runs_plain f i hu m).append hrest nofun

/-- Two stretches, the second of which changes the datapath to that of `d'`. -/
theorem Runs.append_driven {f : Nat → Peer} {i : Nat} {p q : List Micro} {us vs : List Uop} {m d d' : Master}
    (hp : Runs f i p m (driven f i us d)) (hlen : us.length = p.length)
    (hq : Runs f (i + us.length) q (driven f i us d) (driven f (i + us.length) vs (driven f i us d'))) (hne : q ≠ []) :
    Runs f i (p ++ q) m (driven f i (us ++ vs) d') := by
  rw [driven_append]
  exact hp.append (hlen ▸ hq) hne

/-! ### Control before a stretch -/

/-- Control that neither branches nor faults takes the place of the state it leaves. -/
theorem runs_withPre {f : Nat → Peer} {i : Nat} {cs : List Control} {u : Micro} {p : List Micro} {m m1 m' : Master} (hu : u.pre = [])
    (hcs : ∀ rest, Master.runControls cs { m with mpc := rest } = .ok { m1 with mpc := rest }) (h : Runs f i (u :: p) m1 m') :
    Runs f i (withPre cs (u :: p)) m m' := by
  intro rest
  rw [← h rest]
  simp only [withPre, List.cons_append, List.length_cons, runFrom]
  rw [hu, List.append_nil, step_of_pre (m := { m with mpc := _ }) rfl (hcs _) rfl,
    step_of_pre_nil (m := { m1 with mpc := _ }) rfl hu, performUop_congr m1 _ _ (u := { u with pre := cs }) (v := u) rfl rfl,
    performUop_congr m1 (u :: (p ++ rest)) _ rfl rfl]

/-- R133, R137: an abort that is taken takes the place of STOP_SEQ with the failure bit set. -/
theorem runFrom_abort {f : Nat → Peer} {i n : Nat} {fail : FailBit} {cs : List Control} {u : Micro} {p : List Micro} {m : Master}
    (hack : m.ackb = true) (hm : m.mpc = withPre (.abortIfNack fail :: cs) (u :: p)) :
    runFrom f i (n + 1) m = runFrom f i (n + 1) { m.putStatus fail.index true with mpc := stopSeq } := by
  have hpre : Master.runControls ((.abortIfNack fail :: cs) ++ u.pre) m = .ok { m.putStatus fail.index true with mpc := stopSeq } := by
    simp only [List.cons_append, Master.runControls, Master.runControl, hack, if_true]
  simp only [runFrom]
  rw [step_of_pre hm hpre rfl, step_of_pre_nil (m := { m.putStatus fail.index true with mpc := stopSeq }) rfl rfl]

end Sys2Proof.Proofs
end

section
/-! The uop sequences of the MBB (spec/41_master_byte.md R117 to R129): the uops each resolves to, what each does to the datapath, and the
end of every single command. -/

namespace Sys2Proof.Proofs

open Sys2Proof Sys2Proof.Machine Sys2Proof.Laws

/-! ### The uops of the sequences, as the TRACE records them -/

/-- R118. -/
def startUops : List Uop :=
  [.sdaOe .out, .sda true, .scl true, .wait Config.nBit, .sda false, .wait Config.nBit, .scl false, .wait Config.nBit]

/-- R119. -/
def stopUops : List Uop :=
  [.scl false, .sdaOe .out, .sda false, .wait Config.nBit, .scl true, .wait Config.nBit, .sda true]

/-- R122: one data bit. -/
def bitUops (v : Bool) : List Uop :=
  [.scl false, .wait Config.nBit, .sda v, .wait Config.nBit, .scl true, .wait Config.nBit]

/-- R122: the first `n` data bits of a byte, bit 7 first. -/
def dataUops (b : Byte) (n : Nat) : List Uop := (List.range n).flatMap fun j => bitUops (b.getLsbD (7 - j))

/-- R122: the acknowledgement clock. -/
def ackUops : List Uop :=
  [.scl false, .wait Config.nBit, .sdaOe .inp, .wait Config.nBit, .scl true, .wait Config.nAck, .sample, .scl false, .sdaOe .out, .sda false]

/-- R122: a byte sent. -/
def byteUops (b : Byte) : List Uop := dataUops b 8 ++ ackUops

/-- R125: one bit received. -/
def sampleUops : List Uop := [.scl false, .wait Config.nBit, .scl true, .wait Config.nBit, .sample]

/-- R125: a byte received. -/
def recvUops : List Uop :=
  .sdaOe .inp :: (List.range 8).flatMap (fun _ => sampleUops) ++ [.scl false, .sdaOe .out, .sda false]

/-- R128: the answer `v`. -/
def respUops (v : Bool) : List Uop :=
  [.sda false, .scl false, .sda v, .wait Config.nRsp, .scl true, .wait Config.nRsp, .scl false]

/-! ### The sequences of plain uops -/

section
variable (f : Nat → Peer) (i : Nat) (m : Master)

theorem runs_startSeq : Runs f i startSeq m (driven f i startUops m) :=
  runs_plainLines f i [.sdaOe .out, .sda .high, .scl true, .wait .nBit, .sda .low, .wait .nBit, .scl false, .wait .nBit] nofun rfl m

theorem runs_stopSeq : Runs f i stopSeq m (driven f i stopUops m) :=
  runs_plainLines f i [.scl false, .sdaOe .out, .sda .low, .wait .nBit, .scl true, .wait .nBit, .sda .high] nofun rfl m

theorem runs_respSeq (src : SdaSource) : Runs f i (respSeq src) m (driven f i (respUops (src.level m)) m) :=
  runs_plainLines f i [.sda .low, .scl false, .sda src, .wait .nRsp, .scl true, .wait .nRsp, .scl false] nofun rfl m

theorem runs_delayProgram : Runs f i delayProgram m (driven f i [.wait m.unitOperand] m) :=
  runs_plainLines f i [.wait .ldata] nofun rfl m

/-! ### SEND_SEQ (R122) -/

theorem runs_sendBit : Runs f i sendBit m (driven f i (bitUops (m.sh.getLsbD 7)) { m with sh := m.sh <<< 1, bitn := m.bitn + 1 }) :=
  Runs.append_driven (us := [.scl false, .wait Config.nBit, .sda (m.sh.getLsbD 7), .wait Config.nBit, .scl true]) (vs := [.wait Config.nBit])
    (runs_plainLines f i [.scl false, .wait .nBit, .sda .sh7, .wait .nBit, .scl true] nofun rfl m) rfl
    (runs_line rfl fun _ => rfl) nofun

/-- The acknowledgement is what the PEER gives, for Data is an input at the sample. -/
theorem runs_sendAck : Runs f i sendAck m (driven f i ackUops { m with
    ackb := (f (i + 6)).sda, status := putBit bitNACK (f (i + 6)).sda m.status }) := by
  have hbefore := runs_plainLines f i [.scl false, .wait .nBit, .sdaOe .inp, .wait .nBit, .scl true, .wait .nAck] nofun rfl m
  have hsample : Runs f i (_ ++ [{ uop := .sample .ackb, post := [.reportAck] }]) m (driven f i (_ ++ [.sample]) _) :=
    hbefore.append_driven rfl (d' := { m with ackb := (f (i + 6)).sda, status := putBit bitNACK (f (i + 6)).sda m.status })
      (runs_line rfl fun _ => rfl) nofun
  exact hsample.append_driven rfl (runs_plainLines f _ [.scl false, .sdaOe .out, .sda .low] nofun rfl _) nofun

theorem repeatSeq_succ' (n : Nat) (p : List Micro) : repeatSeq (n + 1) p = repeatSeq n p ++ p := by
  induction n with
  | zero => exact List.append_nil p
  | succ n ih =>
    show p ++ repeatSeq (n + 1) p = (p ++ repeatSeq n p) ++ p
    rw [ih, List.append_assoc]

theorem length_repeatSeq (n : Nat) (p : List Micro) : (repeatSeq n p).length = n * p.length := by
  induction n with
  | zero => exact (Nat.zero_mul _).symm
  | succ n ih => rw [repeatSeq, List.length_append, ih, Nat.succ_mul, Nat.add_comm]

theorem dataUops_succ (b : Byte) (n : Nat) : dataUops b (n + 1) = dataUops b n ++ bitUops (b.getLsbD (7 - n)) := by
  rw [dataUops, List.range_succ, List.flatMap_append, List.flatMap_singleton, dataUops]

theorem length_dataUops (b : Byte) (n : Nat) : (dataUops b n).length = n * 6 := by
  induction n with
  | zero => rfl
  | succ n ih =>
    rw [dataUops_succ, List.length_append, ih, Nat.succ_mul]
    rfl

/-- The loop over the data bits. -/
theorem runs_sendBits {n : Nat} (hpos : 1 ≤ n) (hn : n ≤ 8) : Runs f i (repeatSeq n sendBit) m
    (driven f i (dataUops m.sh n) { m with sh := m.sh <<< n, bitn := m.bitn + n }) := by
  induction n, hpos using Nat.le_induction with
  | base => exact runs_sendBit f i m
  | succ n hpos ih =>
    have hbit : (m.sh <<< n).getLsbD 7 = m.sh.getLsbD (7 - n) := by
      rw [BitVec.getLsbD_shiftLeft, decide_eq_false (by omega : ¬ 7 < n)]
      rfl
    rw [repeatSeq_succ', dataUops_succ, ← hbit, BitVec.shiftLeft_add]
    refine (ih (by omega)).append_driven ?_ (runs_sendBit f _ _) nofun
    rw [length_dataUops, length_repeatSeq]
    rfl

/-- R122: a byte sent, after the control that loads it. -/
theorem runs_sendSeq {before : List Control} {load : Control} {m1 : Master}
    (hcs : ∀ rest, Master.runControls (before ++ [load, .clearBitn]) { m with mpc := rest } = .ok { m1 with mpc := rest })
    (hbitn : m1.bitn = 0) : Runs f i (sendSeq before load) m (driven f i (byteUops m1.sh) { m1 with
      sh := 0x00, bitn := 8, ackb := (f (i + 54)).sda, status := putBit bitNACK (f (i + 54)).sda m1.status }) := by
  refine runs_withPre rfl hcs ?_
  have hbits := runs_sendBits f i m1 (n := 8) (by decide) (by decide)
  rw [hbitn, BitVec.shiftLeft_eq_zero (by decide)] at hbits
  exact hbits.append_driven rfl (runs_sendAck f _ _) nofun

/-! ### RECV_SEQ (R125, R126) -/

/-- The first `n` samples of a loop over the bits that begins at step `i`: one every 5 uops. -/
def samples (n : Nat) : List Bool := (List.range n).map fun j => (f (i + 5 * j + 4)).sda

/-- R126: one sample more moves the others up. -/
theorem assemble_concat (l : List Bool) (b : Bool) : assemble (l ++ [b]) = assemble l <<< 1 ||| (BitVec.ofBool b).zeroExtend 8 :=
  List.foldl_append

theorem samples_succ (n : Nat) : samples f i (n + 1) = samples f i n ++ [(f (i + 5 * n + 4)).sda] := by
  rw [samples, List.range_succ, List.map_append, samples]
  rfl

/-- One bit received, Data being an input. -/
theorem runs_recvBit (hdir : m.sdaDir = .inp) : Runs f i recvBit m (driven f i sampleUops { m with
    rb := if m.bitn < 7 then (m.rb ||| (BitVec.ofBool (f (i + 4)).sda).zeroExtend 8) <<< 1
      else m.rb ||| (BitVec.ofBool (f (i + 4)).sda).zeroExtend 8
    bitn := m.bitn + 1 }) := by
  have hbefore := runs_plainLines f i [.scl false, .wait .nBit, .scl true, .wait .nBit] nofun rfl m
  refine hbefore.append_driven rfl (runs_line rfl fun rest => (runControls_shiftRb _).trans ?_) nofun
  obtain ⟨mpc, sh, rb, bitn, ackb, k, lop, llen, ldata, cmdl, cmdh, status, rxdata, xcnt, sclOut, sdaOut, sdaDir, txbuf, rxbuf, trace⟩ := m
  cases hdir
  rfl

/-- The byte that RB holds after `n` bits: the bits so far, moved up but after the last. -/
def bitsReceived (n : Nat) : Byte := if n < 8 then assemble (samples f i n) <<< 1 else assemble (samples f i n)

theorem bitsReceived_succ {n : Nat} (hn : n < 8) :
    (if n < 7 then (bitsReceived f i n ||| (BitVec.ofBool (f (i + 5 * n + 4)).sda).zeroExtend 8) <<< 1
      else bitsReceived f i n ||| (BitVec.ofBool (f (i + 5 * n + 4)).sda).zeroExtend 8) = bitsReceived f i (n + 1) := by
  have hiff : n + 1 < 8 ↔ n < 7 := by omega
  simp only [bitsReceived, if_pos hn, samples_succ, assemble_concat, hiff]

theorem length_sampleUops_loop (n : Nat) : ((List.range n).flatMap fun _ => sampleUops).length = n * 5 := by
  rw [List.length_flatMap, List.map_const', List.length_range, List.sum_replicate, smul_eq_mul]
  rfl

theorem dir_sampleUops_loop (n : Nat) (q : Pins) : (pinsAfter q ((List.range n).flatMap fun _ => sampleUops)).dir = q.dir := by
  induction n with
  | zero => rfl
  | succ n ih =>
    rw [List.range_succ, List.flatMap_append, List.flatMap_singleton, pinsAfter_append]
    exact ih

/-- The loop over the bits. -/
theorem runs_recvBits {n : Nat} (hpos : 1 ≤ n) (hn : n ≤ 8) (hdir : m.sdaDir = .inp) (hrb : m.rb = 0) (hbitn : m.bitn = 0) :
    Runs f i (repeatSeq n recvBit) m
      (driven f i ((List.range n).flatMap fun _ => sampleUops) { m with rb := bitsReceived f i n, bitn := n }) := by
  induction n, hpos using Nat.le_induction with
  | base =>
    have hbit := runs_recvBit f i m hdir
    rw [hrb, hbitn] at hbit
    exact hbit
  | succ n hpos ih =>
    rw [repeatSeq_succ', List.range_succ, List.flatMap_append, List.flatMap_singleton, ← bitsReceived_succ f i (show n < 8 by omega)]
    have hlen : ((List.range n).flatMap fun _ => sampleUops).length = 5 * n := by rw [length_sampleUops_loop, Nat.mul_comm]
    refine (ih (by omega)).append_driven ?_ ?_ nofun
    · rw [length_sampleUops_loop, length_repeatSeq]
      rfl
    · rw [hlen]
      exact runs_recvBit f (i + 5 * n) _ ((dir_sampleUops_loop n (pinsOf m)).trans hdir)

/-- R125: what follows the loop, with the byte stored as `g` says. -/
theorem runs_recvEnd {store : List Control} {g : Master → Master}
    (hstore : ∀ m rest, Master.runControls store { m with mpc := rest } = .ok { g m with mpc := rest }) :
    Runs f i (recvEnd store) m (driven f i [.scl false, .sdaOe .out, .sda false] (g m)) := by
  have hend : recvEnd store = withPre store ([.scl false, .sdaOe .out, .sda .low].map line) := by
    simp only [recvEnd, List.map_cons, List.map_nil, withPre, line, List.append_nil]
  rw [hend]
  exact runs_withPre rfl (hstore m) (runs_plainLines f i [.scl false, .sdaOe .out, .sda .low] nofun rfl (g m))

/-- R125, R126: the byte received by a sequence that begins at step `i`. -/
def recvByte : Byte := assemble (samples f (i + 1) 8)

/-- R125: a byte received, after the control that clears RB and BITN, and stored as `g` says. -/
theorem runs_recvSeq {before store : List Control} {m1 : Master} {g : Master → Master}
    (hcs : ∀ rest, Master.runControls (before ++ [.clearRb, .clearBitn]) { m with mpc := rest } = .ok { m1 with mpc := rest })
    (hrb : m1.rb = 0) (hbitn : m1.bitn = 0)
    (hstore : ∀ m rest, Master.runControls store { m with mpc := rest } = .ok { g m with mpc := rest })
    (hg : ∀ i us m, g (driven f i us m) = driven f i us (g m)) :
    Runs f i (recvSeq before store) m (driven f i recvUops (g { m1 with rb := recvByte f i, bitn := 8 })) := by
  have hinput := runs_plainLines f i [.sdaOe .inp] nofun rfl m1
  have hbits : Runs f i ([.sdaOe .inp].map line ++ repeatSeq 8 recvBit) m1
      (driven f i (.sdaOe .inp :: (List.range 8).flatMap fun _ => sampleUops) { m1 with rb := recvByte f i, bitn := 8 }) :=
    hinput.append_driven rfl (runs_recvBits f (i + 1) _ (n := 8) (by decide) (by decide) rfl hrb hbitn) nofun
  have hbody := hbits.append_driven (q := recvEnd store) (vs := [.scl false, .sdaOe .out, .sda false])
    (d' := g { m1 with rb := recvByte f i, bitn := 8 }) rfl (by rw [← hg]; exact runs_recvEnd f _ _ hstore) (List.cons_ne_nil _ _)
  exact runs_withPre rfl hcs hbody

end

/-! ### The delay units of a stretch (R112, R143) -/

/-- The units a uop waits. -/
def uopUnits : Uop → Nat
  | .wait n => n
  | .scl _ => 0
  | .sda _ => 0
  | .sdaOe _ => 0
  | .sample => 0

/-- The delay units of a list of uops. -/
def unitsOf (us : List Uop) : Nat := (us.map uopUnits).sum

theorem traceUnits_recordsFrom (f : Nat → Peer) (i : Nat) (q : Pins) (us : List Uop) : traceUnits (recordsFrom f i q us) = unitsOf us := by
  induction us generalizing i q with
  | nil => rfl
  | cons u us ih =>
    rw [recordsFrom, traceUnits, ih]
    cases u <;> rfl

theorem unitsOf_append (us vs : List Uop) : unitsOf (us ++ vs) = unitsOf us + unitsOf vs := by
  rw [unitsOf, List.map_append, List.sum_append, unitsOf, unitsOf]

theorem unitsOf_dataUops (b : Byte) (n : Nat) : unitsOf (dataUops b n) = n * (3 * Config.nBit) := by
  induction n with
  | zero => exact (Nat.zero_mul _).symm
  | succ n ih =>
    have hbit (v : Bool) : unitsOf (bitUops v) = 3 * Config.nBit := rfl
    rw [dataUops_succ, unitsOf_append, ih, Nat.succ_mul n, hbit]

/-- R129: a byte sent. -/
theorem unitsOf_byteUops (b : Byte) : unitsOf (byteUops b) = 26 * Config.nBit + Config.nAck := by
  have hack : unitsOf ackUops = 2 * Config.nBit + Config.nAck := by
    simp only [unitsOf, ackUops, List.map_cons, List.map_nil, uopUnits, List.sum_cons, List.sum_nil]
    omega
  rw [byteUops, unitsOf_append, unitsOf_dataUops, hack]
  omega

/-! ### Commands run to their end (R116) -/

/-- A command completes as claimed if its run from the state that acceptance leaves comes to FINISH with what `result` says; its records
are those of its uops. -/
theorem completes_of_runFrom {c : Instr} {n : Nat} {s : State} {m0 : Master} {when_ : List Peer → Prop}
    {result : List Peer → Master → List TraceRec → Prop}
    (hexec : exec c s = .next { s with master := m0 }) (htrace : m0.trace = s.master.trace)
    (hruns : ∀ ps : List Peer, ps.length = n → when_ ps →
      ∃ us d, runFrom (peerAt ps) 0 n { m0 with trace := [] } = .ok (Master.finish (driven (peerAt ps) 0 us d)) ∧ d.trace = [] ∧
        us.length = n ∧
        result ps (traceAfter s.master.trace (Master.finish (driven (peerAt ps) 0 us d))) (recordsFrom (peerAt ps) 0 (pinsOf d) us)) :
    Completes c n s when_ result := by
  refine completes_of_masterRun hexec htrace fun ps hps hwhen => ?_
  obtain ⟨us, d, hrun, hd, hus, hresult⟩ := hruns ps hps hwhen
  have hrecs : (Master.finish (driven (peerAt ps) 0 us d)).trace = recordsFrom (peerAt ps) 0 (pinsOf d) us := by
    show d.trace ++ _ = _
    rw [hd, List.nil_append]
  refine ⟨Master.finish (driven (peerAt ps) 0 us d), ?_, ?_, ?_⟩
  · rw [masterRun_eq_runFrom, hps, hrun]
  · rw [hrecs, length_recordsFrom, hus]
  · rw [hrecs]
    exact hresult

/-- A program run to its end. -/
theorem Runs.finishes {f : Nat → Peer} {i : Nat} {prog : List Micro} {m m' : Master} (h : Runs f i prog m m') :
    runFrom f i prog.length { m with mpc := prog } = .ok m'.finish := by
  have hrun := h []
  rw [List.append_nil] at hrun
  exact hrun

/-- A single command completes as claimed if its program, run from acceptance, does. -/
theorem completes_of_present {s : State} (h : s.master.busy = false) {c : Instr} {op : Nibble} {data : Byte} {program : List Micro}
    {n : Nat} {when_ : List Peer → Prop} {result : List Peer → Master → List TraceRec → Prop}
    (hexec : exec c s = .next (s.onMaster (Master.present op data program))) (hlen : program.length = n)
    (hruns : ∀ ps : List Peer, ps.length = n → when_ ps →
      ∃ us d, Runs (peerAt ps) 0 program { s.master.accept op 0 data program with trace := [] } (driven (peerAt ps) 0 us d) ∧
        d.trace = [] ∧ us.length = n ∧
        result ps (traceAfter s.master.trace (Master.finish (driven (peerAt ps) 0 us d))) (recordsFrom (peerAt ps) 0 (pinsOf d) us)) :
    Completes c n s when_ result := by
  refine completes_of_runFrom (hexec.trans (exec_present h)) rfl fun ps hps hwhen => ?_
  obtain ⟨us, d, hrun, hrest⟩ := hruns ps hps hwhen
  exact ⟨us, d, hlen ▸ hrun.finishes, hrest⟩

/-- STATUS from acceptance to FINISH, when NACK is reported on the way. -/
theorem status_accept_nack_finish (v : Byte) (b : Bool) :
    putBit bitBUSY false (putBit bitDONE true (putBit bitNACK b (putBit bitBUSY true (putBit bitDONE false v)))) =
      completed (putBit bitNACK b v) := by
  rw [putBit_comm (i := bitNACK) (j := bitBUSY) (by decide) (by decide) (by decide),
    putBit_comm (i := bitNACK) (j := bitDONE) (by decide) (by decide) (by decide), status_accept_finish]

section
variable {s : State} (h : s.master.busy = false) {when_ : List Peer → Prop} {result : List Peer → Master → List TraceRec → Prop}
include h

/-- R118: START, from acceptance to FINISH. -/
theorem completes_start (hresult : ∀ ps : List Peer, ps.length = 8 → when_ ps → result ps
      { s.master with
        mpc := [], lop := 0x1, llen := 0, ldata := 0x00, status := completed s.master.status,
        sclOut := false, sdaOut := false, sdaDir := .out
        trace := s.master.trace ++ recordsFrom (peerAt ps) 0 (pinsOf s.master) startUops }
      (recordsFrom (peerAt ps) 0 (pinsOf s.master) startUops)) : Completes .start 8 s when_ result := by
  simp only [← status_accept_finish] at hresult
  exact completes_of_present h (program := startProgram) rfl rfl fun ps hps hwhen =>
    ⟨startUops, _, runs_startSeq _ _ _, rfl, rfl, hresult ps hps hwhen⟩

/-- R119: STOP. -/
theorem completes_stop (hresult : ∀ ps : List Peer, ps.length = 7 → when_ ps → result ps
      { s.master with
        mpc := [], lop := 0x2, llen := 0, ldata := 0x00, status := completed s.master.status,
        sclOut := true, sdaOut := true, sdaDir := .out
        trace := s.master.trace ++ recordsFrom (peerAt ps) 0 (pinsOf s.master) stopUops }
      (recordsFrom (peerAt ps) 0 (pinsOf s.master) stopUops)) : Completes .stop 7 s when_ result := by
  simp only [← status_accept_finish] at hresult
  exact completes_of_present h (program := stopProgram) rfl rfl fun ps hps hwhen =>
    ⟨stopUops, _, runs_stopSeq _ _ _, rfl, rfl, hresult ps hps hwhen⟩

/-- R121, R122: SEND; the acknowledgement is what the PEER gives at the sample, 54 uops on. -/
theorem completes_send (b : Byte) (hresult : ∀ ps : List Peer, ps.length = sendUops → when_ ps → result ps
      { s.master with
        mpc := [], lop := 0x3, llen := 0, ldata := b, sh := 0x00, bitn := 8, ackb := peerSda ps ackSampleAt
        status := completed (putBit bitNACK (peerSda ps ackSampleAt) s.master.status),
        sclOut := false, sdaOut := false, sdaDir := .out
        trace := s.master.trace ++ recordsFrom (peerAt ps) 0 (pinsOf s.master) (byteUops b) }
      (recordsFrom (peerAt ps) 0 (pinsOf s.master) (byteUops b))) : Completes (.send b) sendUops s when_ result := by
  simp only [← status_accept_nack_finish] at hresult
  exact completes_of_present h (program := sendProgram) rfl rfl fun ps hps hwhen =>
    ⟨byteUops b, _, runs_sendSeq _ 0 _ (m1 := { s.master.accept 0x3 0 b sendProgram with trace := [], sh := b, bitn := 0 })
      (fun _ => rfl) rfl, rfl, rfl, hresult ps hps hwhen⟩

/-- R124, R125: RECV. -/
theorem completes_recv (hresult : ∀ ps : List Peer, ps.length = 44 → when_ ps → result ps
      { s.master with
        mpc := [], lop := 0x4, llen := 0, ldata := 0x00, rb := peerByte ps 0, rxdata := peerByte ps 0, bitn := 8,
        status := completed s.master.status, sclOut := false, sdaOut := false, sdaDir := .out
        trace := s.master.trace ++ recordsFrom (peerAt ps) 0 (pinsOf s.master) recvUops }
      (recordsFrom (peerAt ps) 0 (pinsOf s.master) recvUops)) : Completes .recv 44 s when_ result := by
  simp only [← status_accept_finish] at hresult
  exact completes_of_present h (program := recvProgram) rfl rfl fun ps hps hwhen =>
    ⟨recvUops, _, runs_recvSeq _ 0 _ (m1 := { s.master.accept 0x4 0 0x00 recvProgram with trace := [], rb := 0, bitn := 0 })
      (g := fun m => { m with rxdata := m.rb }) (fun _ => rfl) rfl rfl (fun _ _ => rfl) (fun _ _ _ => rfl), rfl, rfl,
      hresult ps hps hwhen⟩

/-- R127, R128: RESP. -/
theorem completes_resp (n : Bool) (hresult : ∀ ps : List Peer, ps.length = 7 → when_ ps → result ps
      { s.master with
        mpc := [], lop := 0x5, llen := 0, ldata := (if n then 0x01 else 0x00), status := completed s.master.status,
        sclOut := false, sdaOut := n, sdaDir := s.master.sdaDir
        trace := s.master.trace ++ recordsFrom (peerAt ps) 0 (pinsOf s.master) (respUops n) }
      (recordsFrom (peerAt ps) 0 (pinsOf s.master) (respUops n))) : Completes (.resp n) 7 s when_ result := by
  simp only [← status_accept_finish, ← addressByte_zero] at hresult
  have hlevel : SdaSource.ldata0.level { s.master.accept 0x5 0 (addressByte 0 n) respProgram with trace := [] } = n :=
    addressByte_bit0 0 n
  refine completes_of_present h (program := respProgram) rfl rfl fun ps hps hwhen =>
    ⟨respUops n, { s.master.accept 0x5 0 (addressByte 0 n) respProgram with trace := [] }, ?_, rfl, rfl, hresult ps hps hwhen⟩
  have hrun := runs_respSeq (peerAt ps) 0 { s.master.accept 0x5 0 (addressByte 0 n) respProgram with trace := [] } .ldata0
  rw [hlevel] at hrun
  exact hrun

/-- R110: DELAY. -/
theorem completes_delay (u : Byte) (hresult : ∀ ps : List Peer, ps.length = 1 → when_ ps → result ps
      { s.master with
        mpc := [], lop := 0x8, llen := 0, ldata := u, status := completed s.master.status
        trace := s.master.trace ++ recordsFrom (peerAt ps) 0 (pinsOf s.master) [.wait u.toNat] }
      (recordsFrom (peerAt ps) 0 (pinsOf s.master) [.wait u.toNat])) : Completes (.delay u) 1 s when_ result := by
  simp only [← status_accept_finish] at hresult
  exact completes_of_present h (program := delayProgram) rfl rfl fun ps hps hwhen =>
    ⟨[.wait u.toNat], _, runs_delayProgram _ _ _, rfl, rfl, hresult ps hps hwhen⟩

end

/-- Settles O14. -/
theorem startRunsToBothLinesLow : Obligations.StartRunsToBothLinesLow :=
  fun _ h => completes_start h fun _ _ _ => ⟨rfl, traceUnits_recordsFrom ..⟩

/-- Settles O16. -/
theorem stopRunsToBothLinesHigh : Obligations.StopRunsToBothLinesHigh :=
  fun _ h => completes_stop h fun _ _ _ => ⟨rfl, traceUnits_recordsFrom ..⟩

/-- Settles O18. -/
theorem sendRunsToItsAcknowledgement : Obligations.SendRunsToItsAcknowledgement :=
  fun b _ h => completes_send h b fun _ _ _ => ⟨rfl, (traceUnits_recordsFrom ..).trans (unitsOf_byteUops b)⟩

/-- R126: the last sample is bit 0, and each one before it a place higher. -/
theorem assemble_bit (l : List Bool) (j : Nat) (hj : j < 8) : (assemble l).getLsbD j = l.reverse.getD j false := by
  induction l using List.reverseRecOn generalizing j with
  | nil => simp [assemble]
  | append_singleton l b ih =>
    rw [assemble_concat, BitVec.getLsbD_or, BitVec.getLsbD_shiftLeft, List.reverse_concat]
    cases j with
    | zero => simp
    | succ j => simpa [hj, BitVec.getLsbD_ofBool] using ih j (by omega)

/-- Settles O20: RB assembles the samples, and RXDATA is RB. -/
theorem recvAssemblesTheSamples : Obligations.RecvAssemblesTheSamples := by
  refine fun s h => completes_recv h fun ps _ _ => ⟨rfl, fun j hj => ?_, traceUnits_recordsFrom ..⟩
  refine (assemble_bit _ (7 - j) (by omega)).trans ?_
  interval_cases j <;> rfl

/-- Settles O22: the program is one line. -/
theorem delayWaitsItsOperand : Obligations.DelayWaitsItsOperand :=
  fun u _ h => completes_delay h u fun _ _ _ => ⟨rfl, rfl⟩

end Sys2Proof.Proofs
end

section
/-! What uops put on the wire: the levels at the rising Clock edges, and the places at which Data moves while Clock is high, read off the
uops (spec/41_master_byte.md R130 to R132, spec/40_bus_primitives.md R108). -/

namespace Sys2Proof.Proofs

open Sys2Proof Sys2Proof.Machine Sys2Proof.Laws

/-! ### Rising Clock edges -/

/-- The level of Data at each rising Clock edge of a list of uops, the PEER releasing SCL. -/
def edges (f : Nat → Peer) : Nat → Pins → List Uop → List Bool
  | _, _, [] => []
  | i, q, u :: us =>
    (if !q.scl && (q.after u).scl then [(q.after u).data && (f i).sda] else []) ++ edges f (i + 1) (q.after u) us

section
variable {f : Nat → Peer}

theorem edges_append (i : Nat) (q : Pins) (us vs : List Uop) :
    edges f i q (us ++ vs) = edges f i q us ++ edges f (i + us.length) (pinsAfter q us) vs := by
  induction us generalizing i q with
  | nil => rfl
  | cons u us ih =>
    rw [List.cons_append, edges, ih, edges, List.append_assoc, List.length_cons, Nat.add_assoc, Nat.add_comm 1]
    rfl

/-- With SCL released the records' Clock is the master's. -/
theorem risingData_cons_recordsFrom (hscl : ∀ i, (f i).scl = true) (i : Nat) (q : Pins) (us : List Uop) {r : TraceRec}
    (hr : r.scl = q.scl) : risingData (r :: recordsFrom f i q us) = edges f i q us := by
  induction us generalizing i q r with
  | nil => rfl
  | cons u us ih =>
    have hclock : (recordOf u (q.after u) (f i)).scl = (q.after u).scl := by rw [recordOf, hscl, Bool.and_true]
    rw [recordsFrom, risingData, ih (i + 1) (q.after u) hclock, edges, isRise, hr, hclock]
    split <;> rfl

/-- The edges are those of the uops, where the first uop makes none. -/
theorem risingData_recordsFrom (hscl : ∀ i, (f i).scl = true) (i : Nat) (q : Pins) {u : Uop} (us : List Uop)
    (hu : (!q.scl && (q.after u).scl) = false) : risingData (recordsFrom f i q (u :: us)) = edges f i q (u :: us) := by
  rw [recordsFrom, risingData_cons_recordsFrom hscl, edges, hu]
  · rfl
  · rw [recordOf, hscl, Bool.and_true]

theorem edges_startUops (q : Pins) : edges f 0 q startUops = if q.scl then [] else [(f 2).sda] := by
  obtain ⟨scl, sda, dir⟩ := q
  cases scl <;> rfl

theorem edges_stopUops (i : Nat) (q : Pins) : edges f i q stopUops = [false] := by
  obtain ⟨scl, sda, dir⟩ := q
  cases scl <;> rfl

theorem edges_bitUops (i : Nat) {q : Pins} (hq : q.dir = .out) (v : Bool) : edges f i q (bitUops v) = [v && (f (i + 4)).sda] := by
  obtain ⟨scl, sda, dir⟩ := q
  cases hq
  cases scl <;> rfl

theorem dir_dataUops {q : Pins} (b : Byte) (n : Nat) : (pinsAfter q (dataUops b n)).dir = q.dir := by
  induction n with
  | zero => rfl
  | succ n ih =>
    rw [dataUops_succ, pinsAfter_append]
    exact ih

theorem edges_dataUops (i : Nat) {q : Pins} (hq : q.dir = .out) (b : Byte) (n : Nat) :
    edges f i q (dataUops b n) = (List.range n).map fun j => b.getLsbD (7 - j) && (f (i + 6 * j + 4)).sda := by
  induction n with
  | zero => rfl
  | succ n ih =>
    rw [dataUops_succ, edges_append, ih, edges_bitUops _ ((dir_dataUops b n).trans hq), length_dataUops, List.range_succ, List.map_append,
      Nat.mul_comm n]
    rfl

/-- R132: a byte sent, the PEER releasing Data at its data edges. -/
theorem edges_byteUops (i : Nat) {q : Pins} (hq : q.dir = .out) (b : Byte) (hdata : ∀ j, j < 8 → (f (i + 6 * j + 4)).sda = true) :
    edges f i q (byteUops b) = wireBits b ++ [(f (i + 52)).sda] := by
  have hbits : edges f i q (dataUops b 8) = wireBits b := by
    rw [edges_dataUops i hq, List.map_congr_left (g := fun j => b.getLsbD (7 - j))]
    · rfl
    · intro j hj
      rw [hdata j (List.mem_range.1 hj), Bool.and_true]
  rw [byteUops, edges_append, hbits]
  rfl

theorem pinsAfter_byteUops (q : Pins) (b : Byte) : pinsAfter q (byteUops b) = ⟨false, false, .out⟩ := rfl

/-- R125: a byte received. -/
theorem edges_recvUops (i : Nat) (q : Pins) : edges f i q recvUops = (List.range 8).map fun j => (f (i + 5 * j + 3)).sda := by
  obtain ⟨scl, sda, dir⟩ := q
  cases scl <;> rfl

theorem pinsAfter_recvUops (q : Pins) : pinsAfter q recvUops = ⟨false, false, .out⟩ := rfl

theorem edges_respUops (i : Nat) {q : Pins} (hq : q.dir = .out) (v : Bool) : edges f i q (respUops v) = [v && (f (i + 4)).sda] := by
  obtain ⟨scl, sda, dir⟩ := q
  cases hq
  cases scl <;> rfl

end

/-! ### Data moving while Clock is high -/

/-- The places at which a level that the pins give changes while SCL_OUT is 1, each with the level after it. -/
def movesWhileHigh (level : Pins → Bool) : Nat → Pins → List Uop → List (Nat × Bool)
  | _, _, [] => []
  | i, q, u :: us =>
    (if (q.after u).scl && (level (q.after u) != level q) then [(i, level (q.after u))] else []) ++
      movesWhileHigh level (i + 1) (q.after u) us

theorem movesWhileHigh_append (level : Pins → Bool) (i : Nat) (q : Pins) (us vs : List Uop) :
    movesWhileHigh level i q (us ++ vs) =
      movesWhileHigh level i q us ++ movesWhileHigh level (i + us.length) (pinsAfter q us) vs := by
  induction us generalizing i q with
  | nil => rfl
  | cons u us ih =>
    rw [List.cons_append, movesWhileHigh, ih, movesWhileHigh, List.append_assoc, List.length_cons, Nat.add_assoc, Nat.add_comm 1]
    rfl

/-- R118: from a pin state a command leaves, Data falls once. -/
theorem movesWhileHigh_startUops {level : Pins → Bool} (hlevel : level = Pins.sda ∨ level = Pins.data) {q : Pins}
    (hq : q.scl = false ∨ q.sda = true) : movesWhileHigh level 0 q startUops = [(4, false)] := by
  obtain ⟨scl, sda, dir⟩ := q
  rcases hlevel with rfl | rfl <;> rcases hq with hq | hq <;> cases hq
  · rfl
  · cases scl <;> rfl
  · rfl
  · cases scl <;> cases dir <;> rfl

/-- R119: from any pin state, Data rises once. -/
theorem movesWhileHigh_stopUops {level : Pins → Bool} (hlevel : level = Pins.sda ∨ level = Pins.data) (i : Nat) (q : Pins) :
    movesWhileHigh level i q stopUops = [(i + 6, true)] := by
  rcases hlevel with rfl | rfl <;> rfl

/-- A uop that moves Data leaves Clock. -/
theorem scl_after_of_data (q : Pins) (u : Uop) (h : (q.after u).data ≠ q.data) : (q.after u).scl = q.scl := by
  cases u with
  | scl v => exact absurd rfl h
  | sda | sdaOe | wait | sample => rfl

/-- R108 START, by the master's pins: Clock `s` and Data `d` before, `s'` and `d'` after, beside the PEER's `p` and `p'`. -/
theorem startCond_iff_move : ∀ {s s' d d' p p' : Bool}, (s = true → s' = true → p = p') → (d' ≠ d → s' = s) →
    (s && s' && (d && p) && !(d' && p')) = ((s' && (d' != d)) && (!d' && p')) := by decide

/-- R108 STOP. -/
theorem stopCond_iff_move : ∀ {s s' d d' p p' : Bool}, (s = true → s' = true → p = p') → (d' ≠ d → s' = s) →
    (s && s' && !(d && p) && (d' && p')) = ((s' && (d' != d)) && (d' && p')) := by decide

theorem countP_ite_singleton {α : Type} (c : Bool) (e : α) (P : α → Bool) :
    (if c then [e] else []).countP P = if c && P e then 1 else 0 := by
  cases c with
  | false => rfl
  | true => exact List.countP_singleton

/-- With SCL released and Data steady while Clock is high, the START and STOP conditions are the moves at which the PEER releases Data. -/
theorem countPairs_cons_recordsFrom {f : Nat → Peer} (hscl : ∀ i, (f i).scl = true) (i : Nat) (q : Pins) (us : List Uop) {r : TraceRec}
    (hclock : r.scl = q.scl) (hdata : r.sda = (q.data && (f i).sda))
    (hsteady : ∀ j r1 r2, (r :: recordsFrom f (i + 1) q us)[j]? = some r1 → (r :: recordsFrom f (i + 1) q us)[j + 1]? = some r2 →
      r1.scl = true → r2.scl = true → (f (i + j)).sda = (f (i + j + 1)).sda) :
    countPairs isStartCond (r :: recordsFrom f (i + 1) q us) =
        (movesWhileHigh Pins.data (i + 1) q us).countP (fun e => !e.2 && (f e.1).sda) ∧
      countPairs isStopCond (r :: recordsFrom f (i + 1) q us) =
        (movesWhileHigh Pins.data (i + 1) q us).countP (fun e => e.2 && (f e.1).sda) := by
  induction us generalizing i q r with
  | nil => exact ⟨rfl, rfl⟩
  | cons u us ih =>
    have hclock' : (recordOf u (q.after u) (f (i + 1))).scl = (q.after u).scl := by rw [recordOf, hscl, Bool.and_true]
    obtain ⟨hstart, hstop⟩ := ih (i + 1) (q.after u) hclock' rfl fun j r1 r2 h1 h2 hs1 hs2 => by
      have := hsteady (j + 1) r1 r2 h1 h2 hs1 hs2
      rwa [← Nat.add_assoc, Nat.add_right_comm i j 1] at this
    have hsteady' : q.scl = true → (q.after u).scl = true → (f i).sda = (f (i + 1)).sda :=
      hclock ▸ hclock' ▸ hsteady 0 r _ rfl rfl
    have hstart' : isStartCond r (recordOf u (q.after u) (f (i + 1))) =
        ((q.after u).scl && ((q.after u).data != q.data) && (!(q.after u).data && (f (i + 1)).sda)) := by
      rw [isStartCond, hclock, hclock', hdata]
      exact startCond_iff_move hsteady' (scl_after_of_data q u)
    have hstop' : isStopCond r (recordOf u (q.after u) (f (i + 1))) =
        ((q.after u).scl && ((q.after u).data != q.data) && ((q.after u).data && (f (i + 1)).sda)) := by
      rw [isStopCond, hclock, hclock', hdata]
      exact stopCond_iff_move hsteady' (scl_after_of_data q u)
    simp only [recordsFrom, countPairs, hstart, hstop, hstart', hstop', movesWhileHigh, List.countP_append, countP_ite_singleton, and_self]

/-- The conditions on the wire are those of a list of uops whose first one does not move Data while Clock is high. -/
theorem countPairs_recordsFrom {f : Nat → Peer} (hscl : ∀ i, (f i).scl = true) (q : Pins) {u : Uop} (us : List Uop)
    (hu : ((q.after u).scl && ((q.after u).data != q.data)) = false)
    (hsteady : ∀ j r1 r2, (recordsFrom f 0 q (u :: us))[j]? = some r1 → (recordsFrom f 0 q (u :: us))[j + 1]? = some r2 →
      r1.scl = true → r2.scl = true → (f j).sda = (f (j + 1)).sda) :
    countPairs isStartCond (recordsFrom f 0 q (u :: us)) =
        (movesWhileHigh Pins.data 0 q (u :: us)).countP (fun e => !e.2 && (f e.1).sda) ∧
      countPairs isStopCond (recordsFrom f 0 q (u :: us)) =
        (movesWhileHigh Pins.data 0 q (u :: us)).countP (fun e => e.2 && (f e.1).sda) := by
  rw [movesWhileHigh, hu]
  refine countPairs_cons_recordsFrom hscl 0 (q.after u) us ?_ rfl fun j r1 r2 h1 h2 hs1 hs2 => ?_
  · rw [recordOf, hscl, Bool.and_true]
  · rw [Nat.zero_add]
    exact hsteady j r1 r2 h1 h2 hs1 hs2

/-! ### The single commands on the wire -/

theorem scl_peerAt {ps : List Peer} (h : clockReleased ps) (i : Nat) : (peerAt ps i).scl = true := by
  rw [peerAt, List.getD_eq_getElem?_getD]
  cases hi : ps[i]? with
  | none => rfl
  | some p => exact h p (List.mem_of_getElem? hi)

theorem peerAt_of_peerReleased {ps : List Peer} (h : peerReleased ps) (i : Nat) : peerAt ps i = Peer.released := by
  rw [peerAt, List.getD_eq_getElem?_getD]
  cases hi : ps[i]? with
  | none => rfl
  | some p => exact h p (List.mem_of_getElem? hi)

theorem clockReleased_of_peerReleased {ps : List Peer} (h : peerReleased ps) : clockReleased ps := fun p hp => by rw [h p hp]; rfl

/-- With the PEER released the conditions are the falls and the rises of Data while Clock is high. -/
theorem countPairs_of_peerReleased {ps : List Peer} (hps : peerReleased ps) (q : Pins) {u : Uop} (us : List Uop)
    (hu : ((q.after u).scl && ((q.after u).data != q.data)) = false) :
    countPairs isStartCond (recordsFrom (peerAt ps) 0 q (u :: us)) = (movesWhileHigh Pins.data 0 q (u :: us)).countP (fun e => !e.2) ∧
      countPairs isStopCond (recordsFrom (peerAt ps) 0 q (u :: us)) = (movesWhileHigh Pins.data 0 q (u :: us)).countP (fun e => e.2) := by
  have hsda (i : Nat) : (peerAt ps i).sda = true := by rw [peerAt_of_peerReleased hps]; rfl
  obtain ⟨hstart, hstop⟩ := countPairs_recordsFrom (scl_peerAt (clockReleased_of_peerReleased hps)) q us hu
    fun j _ _ _ _ _ _ => (hsda j).trans (hsda (j + 1)).symm
  simp only [hsda, Bool.and_true] at hstart hstop
  exact ⟨hstart, hstop⟩

/-- R118's first uop moves no level of Data while Clock is high, from a pin state a command leaves. -/
theorem startUops_first_still {q : Pins} (hq : q.scl = false ∨ q.sda = true) :
    ((q.after (.sdaOe .out)).scl && ((q.after (.sdaOe .out)).data != q.data)) = false := by
  obtain ⟨scl, sda, dir⟩ := q
  rcases hq with hq | hq <;> cases hq
  · rfl
  · cases dir <;> exact Bool.and_false _

/-- Settles O15: the one move of Data while Clock is high is START's fall, and its one edge, begun with Clock low, is at its third uop. -/
theorem startMakesOneStartCondition : Obligations.StartMakesOneStartCondition := by
  refine fun s h hpins => completes_start h fun ps _ hps => ?_
  obtain ⟨hstart, hstop⟩ := countPairs_of_peerReleased hps (pinsOf s.master) _ (startUops_first_still hpins)
  have hmoves := movesWhileHigh_startUops (.inr rfl) (q := pinsOf s.master) hpins
  have hrising := risingData_recordsFrom (scl_peerAt (clockReleased_of_peerReleased hps)) 0 (pinsOf s.master) startUops.tail
    (u := .sdaOe .out) (Bool.not_and_self _)
  refine ⟨hstart.trans (congrArg _ hmoves), hstop.trans (congrArg _ hmoves), hrising.trans ((edges_startUops _).trans ?_)⟩
  rw [peerAt_of_peerReleased hps]
  rfl

/-- Settles O17: the one move of Data while Clock is high is STOP's rise. -/
theorem stopMakesOneStopCondition : Obligations.StopMakesOneStopCondition := by
  refine fun s h => completes_stop h fun ps _ hps => ?_
  obtain ⟨hstart, hstop⟩ := countPairs_of_peerReleased hps (pinsOf s.master) (u := .scl false) stopUops.tail rfl
  have hmoves := movesWhileHigh_stopUops (.inr rfl) 0 (pinsOf s.master)
  have hrising := risingData_recordsFrom (scl_peerAt (clockReleased_of_peerReleased hps)) 0 (pinsOf s.master) stopUops.tail
    (u := .scl false) (Bool.and_false _)
  exact ⟨hstop.trans (congrArg _ hmoves), hstart.trans (congrArg _ hmoves), hrising.trans (edges_stopUops 0 _)⟩

/-- Settles O19. -/
theorem sendPutsTheByteOnTheWire : Obligations.SendPutsTheByteOnTheWire := by
  intro b s h hdir
  refine completes_send h b fun ps _ ⟨hclock, hdata⟩ => ?_
  have hbyte := edges_byteUops (f := peerAt ps) 0 (q := pinsOf s.master) hdir b fun j hj => by
    rw [Nat.zero_add]
    exact hdata j hj
  rw [Nat.zero_add] at hbyte
  exact (risingData_recordsFrom (scl_peerAt hclock) 0 (pinsOf s.master) _ (Bool.and_false _)).trans hbyte

/-- Settles O21. -/
theorem respClocksItsBit : Obligations.RespClocksItsBit := by
  intro n s h hdir
  refine completes_resp h n fun ps _ _ => ⟨by rw [hdir], traceUnits_recordsFrom .., fun hps => ?_⟩
  have hedges := edges_respUops (f := peerAt ps) 0 (q := pinsOf s.master) hdir n
  rw [peerAt_of_peerReleased hps] at hedges
  refine (risingData_recordsFrom (scl_peerAt (clockReleased_of_peerReleased hps)) 0 (pinsOf s.master) _ ?_).trans ?_
  · exact Bool.not_and_self _
  · exact hedges.trans (by rw [Peer.released, Bool.and_true])

end Sys2Proof.Proofs
end

section
/-! WRTX (spec/42_master_transactions.md R133 to R136): the run of its bytes up to any one of them, and its three endings. -/

namespace Sys2Proof.Proofs

open Sys2Proof Sys2Proof.Machine Sys2Proof.Laws

/-! ### A transaction begun -/

/-- R92: the datapath and the operands that acceptance of a transaction leaves, with an empty TRACE. -/
def begun (m : Master) (op len : Nibble) (data : Byte) : Master := { (m.accept op len data []).clearTransaction with trace := [] }

/-- A transaction completes as claimed if its run from acceptance comes to FINISH with what `result` says. -/
theorem completes_of_presentTransaction {s : State} {c : Instr} {op len : Nibble} {data : Byte} {program : List Micro} {n : Nat}
    {when_ : List Peer → Prop} {result : List Peer → Master → List TraceRec → Prop} (h : s.master.busy = false)
    (hlen : len.toNat ≤ s.bufCap)
    (hexec : exec c s = .next (s.onMaster (Master.presentTransaction s.bufCap op len data program)))
    (hruns : ∀ ps : List Peer, ps.length = n → when_ ps →
      ∃ us d, runFrom (peerAt ps) 0 n { begun s.master op len data with mpc := program } =
          .ok (Master.finish (driven (peerAt ps) 0 us d)) ∧ d.trace = [] ∧ us.length = n ∧
        result ps (traceAfter s.master.trace (Master.finish (driven (peerAt ps) 0 us d))) (recordsFrom (peerAt ps) 0 (pinsOf d) us)) :
    Completes c n s when_ result :=
  completes_of_runFrom (hexec.trans (exec_presentTransaction h hlen)) rfl hruns

theorem finishIfDone_of_mpc {m : Master} (h : m.mpc ≠ []) : finishIfDone m = m := by
  obtain ⟨u, rest, hmpc⟩ := List.exists_cons_of_ne_nil h
  rw [finishIfDone, hmpc]

/-- The acknowledgement of the `n`-th byte sent. -/
def ackAt (f : Nat → Peer) (n : Nat) : Bool := (f (8 + sendUops * n + ackSampleAt)).sda

/-! ### Its bytes, one after the other -/

/-- The control that closes byte `n` before what follows it. -/
def wrtxClosing : Nat → List Control
  | 0 => [.abortIfNack .af]
  | _ + 1 => [.abortIfNack .df, .countByte]

/-- The program up to byte `n`. -/
def wrtxHead : Nat → List Micro
  | 0 => startSeq ++ sendSeq [] (.loadShAddr false)
  | n + 1 => wrtxHead n ++ sendSeq (wrtxClosing n) .loadShTx

/-- The uops of the bytes 0 to `n`. -/
def wrtxBytes (addr : DeviceAddr) (txbuf : Memory) : Nat → List Uop
  | 0 => byteUops (wrtxByte addr txbuf 0)
  | n + 1 => wrtxBytes addr txbuf n ++ byteUops (wrtxByte addr txbuf (n + 1))

/-- The uops up to byte `n`. -/
def wrtxSent (addr : DeviceAddr) (txbuf : Memory) (n : Nat) : List Uop := startUops ++ wrtxBytes addr txbuf n

theorem wrtxSent_succ (addr : DeviceAddr) (txbuf : Memory) (n : Nat) :
    wrtxSent addr txbuf (n + 1) = wrtxSent addr txbuf n ++ byteUops (wrtxByte addr txbuf (n + 1)) :=
  (List.append_assoc ..).symm

/-- The datapath after byte `n`, before the control that closes it. -/
def sentAt (f : Nat → Peer) (n : Nat) (m : Master) : Master :=
  { m with
    sh := 0x00, bitn := 8, ackb := ackAt f n, status := putBit bitNACK (ackAt f n) m.status, k := n - 1, xcnt := BitVec.ofNat 8 (n - 1) }

theorem wrtxTail_sub {n len : Nat} (h : n < len) :
    wrtxTail (len - n) (wrtxClosing n) = sendSeq (wrtxClosing n) .loadShTx ++ wrtxTail (len - (n + 1)) (wrtxClosing (n + 1)) := by
  obtain ⟨d, rfl⟩ : ∃ d, len = n + 1 + d := ⟨len - (n + 1), by omega⟩
  rw [show n + 1 + d - n = d + 1 by omega, Nat.add_sub_cancel_left]
  rfl

theorem wrtxTail_ne_nil (n : Nat) (closing : List Control) : wrtxTail n closing ≠ [] := by
  cases n <;> exact List.cons_ne_nil _ _

/-- R133: the program is its head up to any byte, and its tail. -/
theorem wrtxProgram_eq {n len : Nat} (h : n ≤ len) : wrtxProgram len = wrtxHead n ++ wrtxTail (len - n) (wrtxClosing n) := by
  induction n with
  | zero => rfl
  | succ n ih => rw [ih (by omega), wrtxTail_sub h, wrtxHead, List.append_assoc]

theorem length_byteUops (b : Byte) : (byteUops b).length = sendUops := by
  rw [byteUops, List.length_append, length_dataUops]
  rfl

theorem length_wrtxSent (addr : DeviceAddr) (txbuf : Memory) (n : Nat) : (wrtxSent addr txbuf n).length = 8 + sendUops * (n + 1) := by
  induction n with
  | zero =>
    rw [wrtxSent, wrtxBytes, List.length_append, length_byteUops]
    rfl
  | succ n ih => rw [wrtxSent_succ, List.length_append, length_byteUops, ih, Nat.mul_succ sendUops (n + 1), Nat.add_assoc]

theorem length_wrtxHead (n : Nat) : (wrtxHead n).length = 8 + sendUops * (n + 1) := by
  induction n with
  | zero => rfl
  | succ n ih =>
    have hsend : (sendSeq (wrtxClosing n) .loadShTx).length = sendUops := rfl
    rw [wrtxHead, List.length_append, hsend, ih, Nat.mul_succ sendUops (n + 1), Nat.add_assoc]

/-- R133, R137: the address byte is loaded. -/
theorem runControls_loadShAddr {m : Master} {addr : DeviceAddr} {low : Bool} (haddr : m.deviceAddr = addr) :
    Master.runControls [.loadShAddr low, .clearBitn] m = .ok { m with sh := addressByte addr low, bitn := 0 } := by
  subst haddr
  rfl

/-- R134: the entry's byte is loaded. -/
theorem runControls_loadShTx {m : Master} {v : Byte} (hv : m.txbuf.read m.k = some v) :
    Master.runControls [.loadShTx, .clearBitn] m = .ok { m with sh := v, bitn := 0 } := by
  simp only [Master.runControls, Master.runControl, hv]

/-- What the byte after byte `n` leaves is what byte `n + 1` leaves. -/
theorem sentAt_succ (f : Nat → Peer) (n : Nat) (m : Master) :
    { sentAt f n m with
      sh := 0x00, bitn := 8, ackb := ackAt f (n + 1), status := putBit bitNACK (ackAt f (n + 1)) (sentAt f n m).status, k := n
      xcnt := BitVec.ofNat 8 n } = sentAt f (n + 1) m := by
  simp only [sentAt, putBit_putBit (i := bitNACK) (by decide)]
  rfl

/-- R133, R136: an acknowledged byte is counted, if it is not the address byte. -/
theorem runControls_wrtxClosing {n : Nat} {m : Master} (hack : m.ackb = false) (hk : m.k = n - 1) (hx : m.xcnt = BitVec.ofNat 8 (n - 1))
    (cs : List Control) :
    Master.runControls (wrtxClosing n ++ cs) m = Master.runControls cs { m with k := n, xcnt := BitVec.ofNat 8 n } := by
  have hm : { m with k := n - 1, xcnt := BitVec.ofNat 8 (n - 1) } = m := by rw [← hx, ← hk]
  cases n with
  | zero =>
    exact (if_neg (Bool.eq_false_iff.1 hack)).trans (congrArg (Master.runControls cs) hm.symm)
  | succ n =>
    simp only [wrtxClosing, List.cons_append, List.nil_append, Master.runControls, Master.runControl, hack, hk]
    rfl

section
variable {f : Nat → Peer} {m : Master} {len : Nibble} {addr : DeviceAddr} {x : Bool}

/-- R134: the bytes up to byte `n`, all but the last acknowledged. -/
theorem runs_wrtxHead {n : Nat} (hacks : ∀ i, i < n → ackAt f i = false) (htx : ∀ i, i < n → m.txbuf.read i ≠ none) :
    Runs f 0 (wrtxHead n) (begun m 0x6 len (addressByte addr x))
      (driven f 0 (wrtxSent addr m.txbuf n) (sentAt f n (begun m 0x6 len (addressByte addr x)))) := by
  induction n with
  | zero =>
    refine (runs_startSeq f 0 _).append_driven rfl (runs_sendSeq f 8 _
      (m1 := driven f 0 startUops { begun m 0x6 len (addressByte addr x) with sh := addressByte addr false, bitn := 0 }) ?_ rfl) nofun
    exact fun rest => runControls_loadShAddr (addrField_addressByte addr x)
  | succ n ih =>
    obtain ⟨v, hv⟩ := Option.ne_none_iff_exists'.1 (htx n (Nat.lt_succ_self n))
    have hbyte : wrtxByte addr m.txbuf (n + 1) = v := by rw [wrtxByte, hv]; rfl
    rw [← sentAt_succ, wrtxSent_succ]
    refine (ih (fun i hi => hacks i (by omega)) fun i hi => htx i (by omega)).append_driven ?_ ?_ nofun
    · rw [length_wrtxSent, length_wrtxHead]
    · rw [length_wrtxSent, Nat.zero_add, hbyte]
      refine runs_sendSeq f _ _ (m1 := driven f 0 (wrtxSent addr m.txbuf n)
        { sentAt f n (begun m 0x6 len (addressByte addr x)) with sh := v, bitn := 0, k := n, xcnt := BitVec.ofNat 8 n }) (fun rest => ?_) rfl
      rw [runControls_wrtxClosing (hacks n (Nat.lt_succ_self n)) rfl rfl]
      exact runControls_loadShTx hv

/-- Up to byte `n` the program stands before the control that closes it. -/
theorem runFrom_wrtx {n : Nat} (hn : n ≤ len.toNat) (hacks : ∀ i, i < n → ackAt f i = false)
    (htx : ∀ i, i < n → m.txbuf.read i ≠ none) (a : Nat) :
    runFrom f 0 (8 + sendUops * (n + 1) + a) { begun m 0x6 len (addressByte addr x) with mpc := wrtxProgram len.toNat } =
      runFrom f (8 + sendUops * (n + 1)) a
        { driven f 0 (wrtxSent addr m.txbuf n) (sentAt f n (begun m 0x6 len (addressByte addr x))) with
          mpc := wrtxTail (len.toNat - n) (wrtxClosing n) } := by
  have hhead := runs_wrtxHead (f := f) (m := m) (len := len) (addr := addr) (x := x) hacks htx (wrtxTail (len.toNat - n) (wrtxClosing n))
  rw [← wrtxProgram_eq hn, length_wrtxHead] at hhead
  rw [runFrom_add, hhead, finishIfDone_of_mpc (wrtxTail_ne_nil _ _), Nat.zero_add]

end

/-! ### Its endings -/

/-- The failure bit that a byte not acknowledged sets. -/
def wrtxFail : Nat → FailBit
  | 0 => .af
  | _ + 1 => .df

theorem wrtxTail_begins_with_abort (d n : Nat) :
    ∃ cs u p, wrtxTail d (wrtxClosing n) = withPre (.abortIfNack (wrtxFail n) :: cs) (u :: p) := by
  cases d with
  | zero =>
    cases n with
    | zero => exact ⟨[], line (.scl false), stopSeq.tail, rfl⟩
    | succ n => exact ⟨[.countByte], line (.scl false), stopSeq.tail, rfl⟩
  | succ d =>
    cases n with
    | zero => exact ⟨[.loadShTx, .clearBitn], line (.scl false), _, rfl⟩
    | succ n => exact ⟨[.countByte, .loadShTx, .clearBitn], line (.scl false), _, rfl⟩

/-- The uops of a WRTX that ends after byte `n`. -/
def wrtxUops (addr : DeviceAddr) (txbuf : Memory) (n : Nat) : List Uop := wrtxSent addr txbuf n ++ stopUops

theorem length_wrtxUops (addr : DeviceAddr) (txbuf : Memory) (n : Nat) : (wrtxUops addr txbuf n).length = 8 + sendUops * (n + 1) + 7 := by
  rw [wrtxUops, List.length_append, length_wrtxSent]
  rfl

/-- STOP_SEQ after a stretch, to FINISH, with control before it that leaves the datapath `m'`. -/
theorem runFrom_closing_stopSeq {f : Nat → Peer} {i : Nat} {us : List Uop} (hlen : us.length = i) {closing : List Control} {m m' : Master}
    (hcs : ∀ rest, Master.runControls closing { driven f 0 us m with mpc := rest } = .ok { driven f 0 us m' with mpc := rest }) :
    runFrom f i 7 { driven f 0 us m with mpc := withPre closing stopSeq } = .ok (Master.finish (driven f 0 (us ++ stopUops) m')) := by
  have hstop := (runs_withPre rfl hcs (runs_stopSeq f i (driven f 0 us m'))).finishes
  rw [driven_append, hlen, Nat.zero_add]
  exact hstop

section
variable {s : State} {len : Nibble} {n : Nat} {when_ : List Peer → Prop} {result : List Peer → Master → List TraceRec → Prop}
  (h : s.master.busy = false) (hlen : len.toNat ≤ s.bufCap)
include h hlen

/-- R133, R135: a WRTX whose byte `n` is the first not acknowledged. -/
theorem completes_wrtx_nack (addr : DeviceAddr) (x : Bool) (hn : n ≤ len.toNat) (htx : ∀ i, i < n → s.master.txbuf.read i ≠ none)
    (hwhen : ∀ ps, when_ ps → (∀ i, i < n → ackOf ps i = false) ∧ ackOf ps n = true)
    (hresult : ∀ ps, when_ ps → result ps
      (traceAfter s.master.trace (Master.finish (driven (peerAt ps) 0 (wrtxUops addr s.master.txbuf n)
        ((sentAt (peerAt ps) n (begun s.master 0x6 len (addressByte addr x))).putStatus (wrtxFail n).index true))))
      (recordsFrom (peerAt ps) 0 (pinsOf s.master) (wrtxUops addr s.master.txbuf n))) :
    Completes (.wrtx len addr x) (8 + sendUops * (n + 1) + 7) s when_ result := by
  refine completes_of_presentTransaction h hlen rfl fun ps hps hw => ?_
  obtain ⟨hacks, hack⟩ := hwhen ps hw
  refine ⟨wrtxUops addr s.master.txbuf n, _, ?_, rfl, length_wrtxUops .., hresult ps hw⟩
  obtain ⟨cs, u, p, htail⟩ := wrtxTail_begins_with_abort (len.toNat - n) n
  rw [runFrom_wrtx (f := peerAt ps) hn hacks htx, runFrom_abort hack htail]
  exact runFrom_closing_stopSeq (closing := []) (length_wrtxSent addr s.master.txbuf n)
    (m := (sentAt (peerAt ps) n (begun s.master 0x6 len (addressByte addr x))).putStatus (wrtxFail n).index true) fun _ => rfl

/-- R133, R136: a WRTX all of whose bytes are acknowledged. -/
theorem completes_wrtx_acked (addr : DeviceAddr) (x : Bool) (htx : ∀ i, i < len.toNat → s.master.txbuf.read i ≠ none)
    (hwhen : ∀ ps, when_ ps → ∀ i, i ≤ len.toNat → ackOf ps i = false)
    (hresult : ∀ ps, when_ ps → result ps
      (traceAfter s.master.trace (Master.finish (driven (peerAt ps) 0 (wrtxUops addr s.master.txbuf len.toNat)
        { sentAt (peerAt ps) len.toNat (begun s.master 0x6 len (addressByte addr x)) with
          k := len.toNat, xcnt := BitVec.ofNat 8 len.toNat })))
      (recordsFrom (peerAt ps) 0 (pinsOf s.master) (wrtxUops addr s.master.txbuf len.toNat))) :
    Completes (.wrtx len addr x) (8 + sendUops * (len.toNat + 1) + 7) s when_ result := by
  refine completes_of_presentTransaction h hlen rfl fun ps hps hw => ?_
  refine ⟨wrtxUops addr s.master.txbuf len.toNat, _, ?_, rfl, length_wrtxUops .., hresult ps hw⟩
  rw [runFrom_wrtx (f := peerAt ps) le_rfl (fun i hi => hwhen ps hw i hi.le) htx, Nat.sub_self]
  exact runFrom_closing_stopSeq (length_wrtxSent ..) fun rest => by
    rw [← List.append_nil (wrtxClosing _), runControls_wrtxClosing (hwhen ps hw _ le_rfl) rfl rfl]
    rfl

end

/-! ### What every ending leaves -/

/-- A status bit from acceptance. -/
theorem status_begun (m : Master) (op len : Nibble) (data : Byte) (j : Nat) : (begun m op len data).status.getLsbD j =
    if j = bitDF then false else if j = bitAF then false else if j = bitBUSY then true else if j = bitDONE then false
      else m.status.getLsbD j := by
  rw [← status_accept m op len data []]
  exact status_clearTransaction (m.accept op len data []) j

/-- The bits no transaction writes, from acceptance. -/
theorem status_begun_kept (m : Master) (op len : Nibble) (data : Byte) {j : Nat} (hj : 5 ≤ j) :
    (begun m op len data).status.getLsbD j = m.status.getLsbD j := by
  obtain ⟨hbusy, hdone, haf, hdf⟩ : j ≠ bitBUSY ∧ j ≠ bitDONE ∧ j ≠ bitAF ∧ j ≠ bitDF := by
    simp only [bitBUSY, bitDONE, bitAF, bitDF]
    omega
  rw [status_begun, if_neg hdf, if_neg haf, if_neg hbusy, if_neg hdone]

/-- The end of a transaction whose STOP_SEQ is done, by the datapath it leaves. -/
theorem transactionEnded_finish {m d : Master} {op len : Nibble} {data : Byte} {ack : Bool} {st rb rxdata : Byte} {k : Nat} {rxbuf : Memory}
    (hd : d = { begun m op len data with
      sh := 0x00, bitn := 8, ackb := ack, status := st, k := k, xcnt := BitVec.ofNat 8 k, rb := rb, rxdata := rxdata, rxbuf := rxbuf })
    (hnack : st.getLsbD bitNACK = ack) (hkept : ∀ j, 5 ≤ j → st.getLsbD j = m.status.getLsbD j) (f : Nat → Peer) (us : List Uop)
    (t : List TraceRec) : TransactionEnded m (traceAfter t (Master.finish (driven f 0 (us ++ stopUops) d))) op len data := by
  subst hd
  have hpins : pinsAfter (pinsOf m) (us ++ stopUops) = ⟨true, true, .out⟩ := by
    rw [pinsAfter_append]
    rfl
  have hstatus (j : Nat) := status_finish (driven f 0 (us ++ stopUops) { begun m op len data with
    sh := 0x00, bitn := 8, ackb := ack, status := st, k := k, xcnt := BitVec.ofNat 8 k, rb := rb, rxdata := rxdata, rxbuf := rxbuf }) j
  exact ⟨rfl, hstatus bitBUSY, hstatus bitDONE, congrArg Pins.scl hpins, congrArg Pins.sda hpins, congrArg Pins.dir hpins, rfl, rfl, rfl, rfl,
    rfl, ((hstatus bitNACK).trans hnack).symm, rfl, (hstatus 7).trans (hkept 7 (by decide)), (hstatus bitILL).trans (hkept _ (by decide)),
    (hstatus bitOVR).trans (hkept _ (by decide)), rfl, rfl, rfl⟩

theorem unitsOf_wrtxUops (addr : DeviceAddr) (txbuf : Memory) (n : Nat) :
    unitsOf (wrtxUops addr txbuf n) = 3 * Config.nBit + (1 + n) * (26 * Config.nBit + Config.nAck) + 2 * Config.nBit := by
  have hsent : unitsOf (wrtxSent addr txbuf n) = 3 * Config.nBit + (1 + n) * (26 * Config.nBit + Config.nAck) := by
    induction n with
    | zero =>
      rw [wrtxSent, wrtxBytes, unitsOf_append, unitsOf_byteUops, Nat.one_mul]
      rfl
    | succ n ih => rw [wrtxSent_succ, unitsOf_append, unitsOf_byteUops, ih, ← Nat.add_assoc 1, Nat.succ_mul (1 + n), Nat.add_assoc]
  rw [wrtxUops, unitsOf_append, hsent]
  rfl

/-- A status bit from acceptance, after byte `n` and the abort it takes. -/
theorem status_sentAt_fail (f : Nat → Peer) (n : Nat) (m : Master) (fail : FailBit) (j : Nat) :
    ((sentAt f n m).putStatus fail.index true).status.getLsbD j =
      if j = fail.index then true else if j = bitNACK then ackAt f n else m.status.getLsbD j := by
  have hindex : fail.index < 8 := by cases fail <;> decide
  rw [status_putStatus hindex, sentAt, getLsbD_putBit (i := bitNACK) (by decide)]

/-- The end of a transaction that its byte `n` aborted. -/
theorem aborted_end {f : Nat → Peer} {n : Nat} (hack : ackAt f n = true) (m : Master) (op len : Nibble) (data : Byte) (us : List Uop)
    (t : List TraceRec) {e : Master} (he : e = traceAfter t (Master.finish (driven f 0 (us ++ stopUops)
      ((sentAt f n (begun m op len data)).putStatus (wrtxFail n).index true)))) :
    TransactionEnded m e op len data ∧ e.af = decide (n = 0) ∧ e.df = !decide (n = 0) ∧ e.nack = true := by
  subst he
  have hst := status_sentAt_fail f n (begun m op len data) (wrtxFail n)
  have hfinish (j : Nat) := status_finish (driven f 0 (us ++ stopUops)
    ((sentAt f n (begun m op len data)).putStatus (wrtxFail n).index true)) j
  have hindex : (wrtxFail n).index < 5 ∧ bitNACK ≠ (wrtxFail n).index := by
    cases n with
    | zero => decide
    | succ n => exact (by decide : bitDF < 5 ∧ bitNACK ≠ bitDF)
  have hnack : ((sentAt f n (begun m op len data)).putStatus (wrtxFail n).index true).status.getLsbD bitNACK = ackAt f n :=
    (hst bitNACK).trans (if_neg hindex.2)
  refine ⟨transactionEnded_finish rfl hnack (fun j hj => ?_) f us t, (hfinish bitAF).trans ((hst bitAF).trans ?_),
    (hfinish bitDF).trans ((hst bitDF).trans ?_), (hfinish bitNACK).trans (hnack.trans hack)⟩
  · rw [hst, if_neg (by omega), if_neg (by rw [bitNACK]; omega), status_begun_kept m op len data hj]
  · cases n with
    | zero => rfl
    | succ n => exact status_begun m op len data bitAF
  · cases n with
    | zero => exact status_begun m op len data bitDF
    | succ n => rfl

/-- The end of a transaction that nothing aborted. -/
theorem unaborted_end {m d : Master} {op len : Nibble} {data : Byte} {ack : Bool} {rb rxdata : Byte} {k : Nat} {rxbuf : Memory}
    (hack : ack = false)
    (hd : d = { begun m op len data with
      sh := 0x00, bitn := 8, ackb := ack, status := putBit bitNACK ack (begun m op len data).status, k := k, xcnt := BitVec.ofNat 8 k
      rb := rb, rxdata := rxdata, rxbuf := rxbuf })
    (f : Nat → Peer) (us : List Uop) (t : List TraceRec) {e : Master} (he : e = traceAfter t (Master.finish (driven f 0 (us ++ stopUops) d))) :
    TransactionEnded m e op len data ∧ e.af = false ∧ e.df = false ∧ e.nack = false := by
  have hst (j : Nat) : d.status.getLsbD j = if j = bitNACK then ack else (begun m op len data).status.getLsbD j := by
    rw [hd]
    exact getLsbD_putBit (by decide) ack _ j
  have hstatus : d.status = putBit bitNACK ack (begun m op len data).status := by rw [hd]
  have hfinish (j : Nat) := status_finish (driven f 0 (us ++ stopUops) d) j
  subst he
  refine ⟨transactionEnded_finish hd (hstatus ▸ hst bitNACK) (fun j hj => ?_) f us t,
    (hfinish bitAF).trans ((hst bitAF).trans (status_begun m op len data bitAF)),
    (hfinish bitDF).trans ((hst bitDF).trans (status_begun m op len data bitDF)),
    (hfinish bitNACK).trans ((hst bitNACK).trans hack)⟩
  rw [← hstatus, hst, if_neg (by rw [bitNACK]; omega), status_begun_kept m op len data hj]

/-- Settles O23. -/
theorem wrtxOutcomes : Obligations.WrtxOutcomes := by
  intro len addr x s h hlen
  have hunits {f : Nat → Peer} {q : Pins} (n : Nat) := (traceUnits_recordsFrom f 0 q _).trans (unitsOf_wrtxUops addr s.master.txbuf n)
  have haborted (ps : List Peer) (n : Nat) (hack : ackOf ps n = true) :=
    aborted_end (f := peerAt ps) hack s.master 0x6 len (addressByte addr x) (wrtxSent addr s.master.txbuf n) s.master.trace rfl
  refine ⟨?_, fun j hj htx => ?_, fun htx => ?_⟩
  · refine completes_wrtx_nack h hlen (n := 0) addr x (Nat.zero_le _) nofun (fun ps hack => ⟨nofun, hack⟩) fun ps hack => ?_
    obtain ⟨hended, haf, hdf, hnack⟩ := haborted ps 0 hack
    exact ⟨hended, haf, hdf, hnack, rfl, rfl, rfl, rfl, hunits 0⟩
  · refine completes_wrtx_nack h hlen (n := j + 1) addr x hj (fun i hi => htx i (by omega))
      (fun ps hacks => ⟨fun i hi => hacks.1 i (by omega), hacks.2⟩) fun ps hacks => ?_
    obtain ⟨hended, haf, hdf, hnack⟩ := haborted ps (j + 1) hacks.2
    exact ⟨hended, haf, hdf, hnack, rfl, rfl, rfl, rfl, hunits (j + 1)⟩
  · refine completes_wrtx_acked h hlen addr x htx (fun ps hacks => hacks) fun ps hacks => ?_
    obtain ⟨hended, haf, hdf, hnack⟩ := unaborted_end (hacks len.toNat le_rfl) rfl (peerAt ps) (wrtxSent addr s.master.txbuf len.toNat)
      s.master.trace rfl
    exact ⟨hended, haf, hdf, hnack, rfl, rfl, rfl, rfl, hunits len.toNat⟩

end Sys2Proof.Proofs
end

section
/-! WRTX on the wire, and the loading of its bytes from TXBUF (spec/42_master_transactions.md R134, R141; spec/20_memory.md R70). -/

namespace Sys2Proof.Proofs

open Sys2Proof Sys2Proof.Machine Sys2Proof.Laws

/-! ### On the wire -/

theorem pinsAfter_wrtxSent (q : Pins) (addr : DeviceAddr) (txbuf : Memory) (n : Nat) :
    pinsAfter q (wrtxSent addr txbuf n) = ⟨false, false, .out⟩ := by
  cases n with
  | zero => exact pinsAfter_append q startUops _
  | succ n => rw [wrtxSent_succ, pinsAfter_append, pinsAfter_byteUops]

/-- R141: the rising Clock edges of the bytes 0 to `n`. -/
theorem edges_wrtxSent {f : Nat → Peer} {n : Nat} (q : Pins) (addr : DeviceAddr) (txbuf : Memory)
    (hdata : ∀ j i, j ≤ n → i < 8 → (f (8 + sendUops * j + 6 * i + 4)).sda = true) :
    edges f 0 q (wrtxSent addr txbuf n) = (if q.scl then [] else [(f 2).sda]) ++
      (List.range (n + 1)).flatMap fun j => wireBits (wrtxByte addr txbuf j) ++ [(f (8 + sendUops * j + 52)).sda] := by
  induction n with
  | zero =>
    have hbyte := edges_byteUops (f := f) 8 (q := pinsAfter q startUops) rfl (wrtxByte addr txbuf 0) fun i hi => hdata 0 i le_rfl hi
    rw [wrtxSent, wrtxBytes, edges_append, edges_startUops]
    exact congrArg _ hbyte
  | succ n ih =>
    have hpins := congrArg Pins.dir (pinsAfter_wrtxSent q addr txbuf n)
    rw [wrtxSent_succ, edges_append, ih fun j i hj hi => hdata j i (by omega) hi, length_wrtxSent, Nat.zero_add,
      edges_byteUops _ hpins _ fun i hi => hdata (n + 1) i le_rfl hi, List.range_succ (n := n + 1), List.flatMap_append, List.append_assoc,
      List.flatMap_singleton]

/-- R131, R141, R119: and that of STOP. -/
theorem risingData_wrtxUops {ps : List Peer} {n : Nat} (hscl : clockReleased ps) (hdata : dataReleased ps n) (q : Pins) (addr : DeviceAddr)
    (txbuf : Memory) : risingData (recordsFrom (peerAt ps) 0 q (wrtxUops addr txbuf n)) = wrtxEdges q.scl addr txbuf n ps := by
  refine (risingData_recordsFrom (scl_peerAt hscl) 0 q (wrtxUops addr txbuf n).tail (u := .sdaOe .out) (Bool.not_and_self _)).trans ?_
  refine (edges_append 0 q (wrtxSent addr txbuf n) stopUops).trans ?_
  rw [edges_wrtxSent (f := peerAt ps) q addr txbuf hdata, edges_stopUops]
  rfl

/-- Settles O24. -/
theorem wrtxPutsItsBytesOnTheWire : Obligations.WrtxPutsItsBytesOnTheWire := by
  intro len addr x s h hlen
  refine ⟨fun htx => ?_, fun j hj htx => ?_⟩
  · exact completes_wrtx_acked h hlen addr x htx (fun ps hw => hw.2.1) fun ps ⟨hscl, _, hdata⟩ => risingData_wrtxUops hscl hdata _ _ _
  · exact completes_wrtx_nack h hlen addr x hj htx (fun ps hw => ⟨hw.2.1, hw.2.2.1⟩)
      fun ps ⟨hscl, _, _, hdata⟩ => risingData_wrtxUops hscl hdata _ _ _

/-! ### The entry that holds no value -/

/-- A step whose control before the uop faults. -/
theorem step_of_pre_error {m : Master} {u : Micro} {rest : List Micro} {e : Fault} (hm : m.mpc = u :: rest)
    (hpre : Master.runControls u.pre m = .error e) (p : Peer) : m.step p = .error e := by
  simp only [Master.step, hm, hpre]

/-- A run of a transaction from the state its acceptance leaves. -/
theorem runScript_begun (s : State) (op len : Nibble) (data : Byte) (program : List Micro) (ps : List Peer) :
    runScript (busScript ps) { s with master := (s.master.accept op len data program).clearTransaction } =
      match runFrom (peerAt ps) 0 ps.length { begun s.master op len data with mpc := program } with
      | .ok m => .next { s with master := traceAfter s.master.trace m, peer := lastPeer s.peer ps, inputs := [] }
      | .error e => .fault e := by
  rw [runScript_bus, masterRun_trace, masterRun_eq_runFrom]
  show (match mapOk _ (runFrom (peerAt ps) 0 ps.length { begun s.master op len data with mpc := program }) with
    | .ok m => _
    | .error f => _) = _
  cases runFrom (peerAt ps) 0 ps.length { begun s.master op len data with mpc := program } <;> rfl

/-- R134, R178: the step that would load an entry without value. -/
theorem step_loadShTx_unwritten {m : Master} {n : Nat} (rest : List Micro) (hack : m.ackb = false) (hk : m.k = n - 1)
    (hx : m.xcnt = BitVec.ofNat 8 (n - 1)) (htx : m.txbuf.read n = none) (p : Peer) :
    Master.step { m with mpc := sendSeq (wrtxClosing n) .loadShTx ++ rest } p = .error (.uninit .txbuf n) := by
  have hload : Master.runControls (wrtxClosing n ++ [.loadShTx, .clearBitn]) { m with mpc := sendSeq (wrtxClosing n) .loadShTx ++ rest } =
      .error (.uninit .txbuf n) := by
    refine (runControls_wrtxClosing (m := { m with mpc := sendSeq (wrtxClosing n) .loadShTx ++ rest }) hack hk hx _).trans ?_
    simp only [Master.runControls, Master.runControl, htx]
  exact step_of_pre_error (u := { uop := .scl false, pre := (wrtxClosing n ++ [.loadShTx, .clearBitn]) ++ [] }) rfl
    ((congrArg (Master.runControls · _) (List.append_nil _)).trans hload) p

/-- Settles O25. -/
theorem wrtxOfAnUnwrittenEntryFaults : Obligations.WrtxOfAnUnwrittenEntryFaults := by
  intro len addr x j s h hlen hj htx hnone
  have hrun (ps : List Peer) (hacks : ∀ i, i ≤ j → ackOf ps i = false) :=
    runFrom_wrtx (f := peerAt ps) (m := s.master) (addr := addr) (x := x) hj.le (fun i hi => hacks i hi.le) htx
  refine ⟨_, exec_presentTransaction h hlen, fun ps hps hacks => ?_, fun ps hps hacks => ?_⟩
  · have hbusy : (putBit bitNACK (ackAt (peerAt ps) j) (begun s.master 0x6 len (addressByte addr x)).status).getLsbD bitBUSY = true :=
      (getLsbD_putBit (by decide) ..).trans (status_begun ..)
    rw [runScript_begun, hps, ← Nat.add_zero (8 + sendUops * (j + 1)), hrun ps hacks 0]
    exact ⟨_, rfl, hbusy⟩
  · rw [runScript_begun, hps, hrun ps hacks 1, wrtxTail_sub hj, runFrom]
    rw [step_loadShTx_unwritten (m := driven (peerAt ps) 0 (wrtxSent addr s.master.txbuf j)
      (sentAt (peerAt ps) j (begun s.master 0x6 len (addressByte addr x)))) _ (hacks j le_rfl) rfl rfl hnone]

/-! ### Loading a byte -/

/-- What stands of SEND_SEQ after its first line. -/
def sendRest : List Micro := (repeatSeq 8 sendBit ++ sendAck).tail

/-- The first line of SEND_SEQ, after control that leaves `m1`. -/
theorem step_sendSeq {m m1 : Master} {before : List Control} {load : Control} {rest : List Micro} (hm : m.mpc = sendSeq before load ++ rest)
    (hcs : Master.runControls (before ++ [load, .clearBitn]) m = .ok m1) (hm1 : m1.mpc = m.mpc) (p : Peer) :
    m.step p = .ok (driven (fun _ => p) 0 [.scl false] { m1 with mpc := sendRest ++ rest }) := by
  have hpre : Master.runControls ((before ++ [load, .clearBitn]) ++ []) m = .ok m1 := by rw [List.append_nil, hcs]
  rw [step_of_pre (u := { uop := .scl false, pre := (before ++ [load, .clearBitn]) ++ [] }) hm hpre (hm1.trans hm) p, performUop_eq]
  rfl

/-- The entry about to be sent: the control before its SEND_SEQ closes the byte before and counts it, and loads entry `j`. -/
def AboutToSend (m : Master) (before : List Control) (j : Nat) : Prop :=
  (before = [.abortIfNack .af] ∧ j = m.k) ∨ (before = [.abortIfNack .df, .countByte] ∧ j = m.k + 1)

theorem aboutToSend_of {m : Master} {rest : List Micro} {j : Nat}
    (h : (m.mpc = sendSeq [.abortIfNack .af] .loadShTx ++ rest ∧ j = m.k) ∨
      (m.mpc = sendSeq [.abortIfNack .df, .countByte] .loadShTx ++ rest ∧ j = m.k + 1)) :
    ∃ before, m.mpc = sendSeq before .loadShTx ++ rest ∧ AboutToSend m before j := by
  rcases h with ⟨hmpc, hk⟩ | ⟨hmpc, hk⟩
  · exact ⟨_, hmpc, .inl ⟨rfl, hk⟩⟩
  · exact ⟨_, hmpc, .inr ⟨rfl, hk⟩⟩

theorem mbbStep_of_ok {s : State} {m : Master} (h : s.master.step s.peer = .ok m) : mbbStep s = .next { s with master := m } := by
  rw [mbbStep, h]

/-- R134: the control loads the entry's byte. -/
theorem runControls_load {m : Master} {before : List Control} {j : Nat} {v : Byte} (h : AboutToSend m before j) (hack : m.ackb = false)
    (hv : m.txbuf.read j = some v) :
    ∃ xcnt, Master.runControls (before ++ [.loadShTx, .clearBitn]) m = .ok { m with k := j, xcnt := xcnt, sh := v, bitn := 0 } := by
  rcases h with ⟨rfl, rfl⟩ | ⟨rfl, rfl⟩
  · refine ⟨m.xcnt, (if_neg (Bool.eq_false_iff.1 hack)).trans (runControls_loadShTx hv)⟩
  · refine ⟨BitVec.ofNat 8 (m.k + 1), (if_neg (Bool.eq_false_iff.1 hack)).trans ?_⟩
    exact runControls_loadShTx (m := { m with k := m.k + 1, xcnt := BitVec.ofNat 8 (m.k + 1) }) hv

/-- Settles O26. -/
theorem writeBeforeTheSendStepIsSent : Obligations.WriteBeforeTheSendStepIsSent := by
  intro s v rest j hj hack hsend
  obtain ⟨before, hmpc, hbefore⟩ := aboutToSend_of hsend
  obtain ⟨xcnt, hcs⟩ := runControls_load (m := { s.master with txbuf := s.master.txbuf.write j v }) hbefore hack (memory_read_write_same ..)
  have hstep := step_sendSeq (m := { s.master with txbuf := s.master.txbuf.write j v }) hmpc hcs rfl s.peer
  exact ⟨_, _, hostWrite_txbuf hj v, mbbStep_of_ok hstep, rfl, rfl, rfl, memory_read_write_same ..,
    fun i hi => memory_read_write_ne _ v hi⟩

/-! ### A byte on its way -/

/-- The lines of SEND_SEQ after its first: no control before the uop, and none after it but the loop's and the report of ACKB. -/
def isSendLine (u : Micro) : Prop := u.pre = [] ∧ (u.post = [] ∨ u.post = [.shiftSh, .countBit] ∨ u.post = [.reportAck])

theorem isSendLine_sendRest : ∀ u ∈ sendRest, isSendLine u := by
  simp only [isSendLine]
  decide

theorem runControls_sendPost {cs : List Control} (hcs : cs = [] ∨ cs = [.shiftSh, .countBit] ∨ cs = [.reportAck]) (m : Master) :
    ∃ m', Master.runControls cs m = .ok m' ∧ m'.mpc = m.mpc ∧ m'.txbuf = m.txbuf ∧
      ∀ mem, Master.runControls cs { m with txbuf := mem } = .ok { m' with txbuf := mem } := by
  rcases hcs with rfl | rfl | rfl <;> exact ⟨_, rfl, rfl, rfl, fun _ => rfl⟩

/-- A uop neither reads nor writes TXBUF. -/
theorem doUop_with_txbuf (m : Master) (mem : Memory) (p : Peer) (u : ProgUop) :
    Master.doUop { m with txbuf := mem } p u = ((m.doUop p u).1, { (m.doUop p u).2 with txbuf := mem }) := by
  cases u with
  | sda src => cases src <;> rfl
  | wait src => cases src <;> rfl
  | sample dst => cases dst <;> rfl
  | scl | sdaOe => rfl

theorem txbuf_doUop (m : Master) (p : Peer) (u : ProgUop) : (m.doUop p u).2.txbuf = m.txbuf := by
  cases u with
  | sample dst => cases dst <;> rfl
  | scl | sda | sdaOe | wait => rfl

theorem finishIfDone_keeps (m : Master) (mem : Memory) : (finishIfDone m).mpc = m.mpc ∧ (finishIfDone m).txbuf = m.txbuf ∧
    finishIfDone { m with txbuf := mem } = { finishIfDone m with txbuf := mem } := by
  obtain ⟨mpc⟩ := m
  cases mpc with
  | nil => exact ⟨rfl, rfl, rfl⟩
  | cons u rest => exact ⟨rfl, rfl, rfl⟩

/-- Such a line meets no fault, and neither reads nor writes TXBUF. -/
theorem step_sendLine {m : Master} {u : Micro} {rest : List Micro} (hm : m.mpc = u :: rest) (hu : isSendLine u) (p : Peer) :
    ∃ m', m.step p = .ok m' ∧ m'.mpc = rest ∧ m'.txbuf = m.txbuf ∧
      ∀ mem, Master.step { m with txbuf := mem } p = .ok { m' with txbuf := mem } := by
  obtain ⟨hpre, hpost⟩ := hu
  obtain ⟨m', hok, hmpc, htx, hmem⟩ := runControls_sendPost hpost
    (Master.record { (m.doUop p u.uop).2 with mpc := rest } p (m.doUop p u.uop).1)
  refine ⟨finishIfDone m', ?_, (finishIfDone_keeps m' []).1.trans hmpc,
    (finishIfDone_keeps m' []).2.1.trans (htx.trans (txbuf_doUop m p u.uop)), fun mem => ?_⟩
  · rw [step_of_pre_nil hm hpre, performUop_eq, hok]
    rfl
  · rw [step_of_pre_nil (m := { m with txbuf := mem }) hm hpre, performUop_eq, doUop_with_txbuf, ← (finishIfDone_keeps m' mem).2.2]
    exact congrArg (mapOk finishIfDone) (hmem mem)

/-- A run along such lines. -/
theorem masterRun_sendLines {p : List Micro} (hp : ∀ u ∈ p, isSendLine u) {ps : List Peer} (hlen : ps.length ≤ p.length) {m : Master}
    {rest : List Micro} (hm : m.mpc = p ++ rest) :
    ∃ m', masterRun m ps = .ok m' ∧ m'.mpc = p.drop ps.length ++ rest ∧ m'.txbuf = m.txbuf ∧
      ∀ mem, masterRun { m with txbuf := mem } ps = .ok { m' with txbuf := mem } := by
  induction ps generalizing m p with
  | nil => exact ⟨m, rfl, hm, rfl, fun _ => rfl⟩
  | cons q ps ih =>
    cases p with
    | nil => exact absurd hlen (Nat.not_succ_le_zero _)
    | cons u p =>
      obtain ⟨m1, hstep, hmpc, htx, hmem⟩ := step_sendLine hm (hp u (List.mem_cons_self ..)) q
      obtain ⟨m', hrun, hmpc', htx', hmem'⟩ := ih (fun v hv => hp v (List.mem_cons_of_mem _ hv)) (Nat.le_of_succ_le_succ hlen) hmpc
      refine ⟨m', ?_, hmpc', htx'.trans htx, fun mem => ?_⟩
      · rw [masterRun, hstep]
        exact hrun
      · rw [masterRun, hmem]
        exact hmem' mem

theorem runScript_bus_of_ok {s : State} {ps : List Peer} {m : Master} (h : masterRun s.master ps = .ok m) :
    runScript (busScript ps) s = .next { s with master := m, peer := lastPeer s.peer ps, inputs := [] } := by
  rw [runScript_bus, h]

/-- Settles O55: the lines after the first neither read nor write TXBUF. -/
theorem writeAfterTheSendStepIsNotSent : Obligations.WriteAfterTheSendStepIsNotSent := by
  intro s v v0 rest j hj hack hsend hv0
  obtain ⟨before, hmpc, hbefore⟩ := aboutToSend_of hsend
  obtain ⟨xcnt, hcs⟩ := runControls_load hbefore hack hv0
  refine ⟨_, mbbStep_of_ok (step_sendSeq hmpc hcs rfl s.peer), rfl, fun ps qs hlen => ?_⟩
  have hpq : ps.length + qs.length ≤ sendRest.length := Nat.le_of_lt_succ hlen
  obtain ⟨x, hx, hxmpc, -, -⟩ := masterRun_sendLines isSendLine_sendRest (ps := ps) (by omega)
    (m := driven (fun _ => s.peer) 0 [.scl false] { s.master with k := j, xcnt := xcnt, sh := v0, bitn := 0, mpc := sendRest ++ rest }) rfl
  have hdrop : ∀ u ∈ sendRest.drop ps.length, isSendLine u := fun u hu => isSendLine_sendRest u (List.mem_of_mem_drop hu)
  obtain ⟨a, ha, -, -, hmem⟩ := masterRun_sendLines hdrop (ps := qs) (by rw [List.length_drop]; omega) hxmpc
  exact ⟨_, _, _, _, runScript_bus_of_ok hx, hostWrite_txbuf (by exact hj) v, memory_read_write_same .., runScript_bus_of_ok ha,
    runScript_bus_of_ok (hmem _), rfl⟩

end Sys2Proof.Proofs
end

section
/-! RDTX (spec/42_master_transactions.md R137 to R140, R142): the run of its bytes, its two endings, and what it puts on the wire. -/

namespace Sys2Proof.Proofs

open Sys2Proof Sys2Proof.Machine Sys2Proof.Laws

/-! ### Its bytes, one after the other -/

/-- The control that closes the byte before: the address byte, or data byte `n - 1`. -/
def rdtxClosing : Nat → List Control
  | 0 => [.abortIfNack .af]
  | _ + 1 => [.countByte]

/-- One byte received and answered, as the program has it. -/
def rdtxStep (closing : List Control) : List Micro := recvSeq closing [.storeRxdata, .storeRxbuf] ++ respSeq .nackIfLast

/-- The program up to its first `n` data bytes. -/
def rdtxHead : Nat → List Micro
  | 0 => startSeq ++ sendSeq [] (.loadShAddr true)
  | n + 1 => rdtxHead n ++ rdtxStep (rdtxClosing n)

/-- The uops of the first `n` of `len` data bytes. -/
def rdtxBytes (len : Nat) : Nat → List Uop
  | 0 => []
  | n + 1 => rdtxBytes len n ++ (recvUops ++ respUops (decide (n + 1 = len)))

/-- The uops up to the first `n` of `len` data bytes. -/
def rdtxSent (addr : DeviceAddr) (len n : Nat) : List Uop := startUops ++ (byteUops (addressByte addr true) ++ rdtxBytes len n)

theorem rdtxSent_succ (addr : DeviceAddr) (len n : Nat) :
    rdtxSent addr len (n + 1) = rdtxSent addr len n ++ (recvUops ++ respUops (decide (n + 1 = len))) := by
  simp only [rdtxSent, rdtxBytes, List.append_assoc]

/-- Where the `n`-th data byte begins. -/
def dataStart (n : Nat) : Nat := 8 + sendUops + 51 * n

/-- The `n`-th data byte. -/
def dataAt (f : Nat → Peer) (n : Nat) : Byte := recvByte f (dataStart n)

/-- A buffer with the first `n` data bytes stored. -/
def stored (f : Nat → Peer) (mem : Memory) : Nat → Memory
  | 0 => mem
  | n + 1 => (stored f mem n).write n (dataAt f n)

/-- What RB and RXDATA hold after `n` data bytes. -/
def lastData (f : Nat → Peer) (old : Byte) : Nat → Byte
  | 0 => old
  | n + 1 => dataAt f n

/-- The datapath after the address byte and `n` data bytes, before the control that closes the last of them. -/
def receivedAt (f : Nat → Peer) (n : Nat) (m : Master) : Master :=
  { m with
    sh := 0x00, bitn := 8, ackb := ackAt f 0, status := putBit bitNACK (ackAt f 0) m.status, k := n - 1, xcnt := BitVec.ofNat 8 (n - 1)
    rb := lastData f m.rb n, rxdata := lastData f m.rxdata n, rxbuf := stored f m.rxbuf n }

theorem rdtxTail_sub {n len : Nat} (h : n < len) :
    rdtxTail (len - n) (rdtxClosing n) = rdtxStep (rdtxClosing n) ++ rdtxTail (len - (n + 1)) (rdtxClosing (n + 1)) := by
  obtain ⟨d, rfl⟩ : ∃ d, len = n + 1 + d := ⟨len - (n + 1), by omega⟩
  rw [show n + 1 + d - n = d + 1 by omega, Nat.add_sub_cancel_left]
  rfl

theorem rdtxTail_ne_nil (n : Nat) (closing : List Control) : rdtxTail n closing ≠ [] := by
  cases n <;> exact List.cons_ne_nil _ _

/-- R137: the program is its head up to any byte, and its tail. -/
theorem rdtxProgram_eq {n len : Nat} (h : n ≤ len) : rdtxProgram len = rdtxHead n ++ rdtxTail (len - n) (rdtxClosing n) := by
  induction n with
  | zero => rfl
  | succ n ih => rw [ih (by omega), rdtxTail_sub h, rdtxHead, List.append_assoc]

theorem length_rdtxSent (addr : DeviceAddr) (len n : Nat) : (rdtxSent addr len n).length = dataStart n := by
  induction n with
  | zero =>
    rw [rdtxSent, rdtxBytes, List.append_nil, List.length_append, length_byteUops]
    rfl
  | succ n ih =>
    rw [rdtxSent_succ, List.length_append, ih]
    rfl

theorem length_rdtxHead (n : Nat) : (rdtxHead n).length = dataStart n := by
  induction n with
  | zero => rfl
  | succ n ih =>
    have hstep : (rdtxStep (rdtxClosing n)).length = 51 := rfl
    rw [rdtxHead, List.length_append, hstep, ih, dataStart, dataStart, Nat.mul_succ, Nat.add_assoc]

/-- R137, R140: an acknowledged address byte is passed, and a data byte counted. -/
theorem runControls_rdtxClosing {n : Nat} {m : Master} (hack : m.ackb = false) (hk : m.k = n - 1) (hx : m.xcnt = BitVec.ofNat 8 (n - 1))
    (cs : List Control) :
    Master.runControls (rdtxClosing n ++ cs) m = Master.runControls cs { m with k := n, xcnt := BitVec.ofNat 8 n } := by
  have hm : { m with k := n - 1, xcnt := BitVec.ofNat 8 (n - 1) } = m := by rw [← hx, ← hk]
  cases n with
  | zero => exact (if_neg (Bool.eq_false_iff.1 hack)).trans (congrArg (Master.runControls cs) hm.symm)
  | succ n =>
    simp only [rdtxClosing, List.cons_append, List.nil_append, Master.runControls, Master.runControl, hk]
    rfl

/-- R125, R138: what follows the bits of a data byte. -/
def storeByte (m : Master) : Master := { m with rxdata := m.rb, rxbuf := m.rxbuf.write m.k m.rb }

/-- R137: the answer to data byte `n`. -/
theorem nackIfLast_eq {m : Master} {n len : Nat} (hk : m.k = n) (hlen : m.countOperand = len) (hn : n < len) :
    SdaSource.nackIfLast.level m = decide (n + 1 = len) := by
  rw [SdaSource.level, Master.nackIfLast, hk, hlen, ← decide_not]
  exact decide_eq_decide.2 (by omega)

section
variable {f : Nat → Peer} {m : Master} {len : Nibble} {addr : DeviceAddr} {x : Bool}

/-- R138: the address byte acknowledged, the first `n` data bytes. -/
theorem runs_rdtxHead {n : Nat} (hn : n ≤ len.toNat) (hack : 0 < n → ackAt f 0 = false) :
    Runs f 0 (rdtxHead n) (begun m 0x7 len (addressByte addr x))
      (driven f 0 (rdtxSent addr len.toNat n) (receivedAt f n (begun m 0x7 len (addressByte addr x)))) := by
  induction n with
  | zero =>
    rw [rdtxSent, rdtxBytes, List.append_nil]
    exact (runs_startSeq f 0 _).append_driven rfl (runs_sendSeq f 8 _
      (m1 := driven f 0 startUops { begun m 0x7 len (addressByte addr x) with sh := addressByte addr true, bitn := 0 })
      (fun rest => runControls_loadShAddr (addrField_addressByte addr x)) rfl) nofun
  | succ n ih =>
    have hack0 := hack (Nat.succ_pos n)
    have hrecv : Runs f (dataStart n) (recvSeq (rdtxClosing n) [.storeRxdata, .storeRxbuf])
        (driven f 0 (rdtxSent addr len.toNat n) (receivedAt f n (begun m 0x7 len (addressByte addr x))))
        (driven f (dataStart n) recvUops (driven f 0 (rdtxSent addr len.toNat n)
          (receivedAt f (n + 1) (begun m 0x7 len (addressByte addr x))))) := by
      refine runs_recvSeq f _ _ (m1 := driven f 0 (rdtxSent addr len.toNat n)
        { receivedAt f n (begun m 0x7 len (addressByte addr x)) with k := n, xcnt := BitVec.ofNat 8 n, rb := 0, bitn := 0 })
        (g := storeByte) (fun rest => ?_) rfl rfl (fun _ _ => rfl) (fun _ _ _ => rfl)
      rw [runControls_rdtxClosing hack0 rfl rfl]
      rfl
    rw [rdtxSent_succ, rdtxHead]
    refine (ih (by omega) fun _ => hack0).append_driven ?_ ?_ nofun
    · rw [length_rdtxSent, length_rdtxHead]
    · rw [length_rdtxSent, Nat.zero_add, rdtxStep]
      refine hrecv.append_driven rfl ?_ nofun
      rw [← nackIfLast_eq (m := driven f (dataStart n) recvUops (driven f 0 (rdtxSent addr len.toNat n)
        (receivedAt f (n + 1) (begun m 0x7 len (addressByte addr x))))) (n := n)
        (len := len.toNat) rfl rfl hn]
      exact runs_respSeq f _ _ .nackIfLast

/-- Up to data byte `n` the program stands before the control that closes it. -/
theorem runFrom_rdtx {n : Nat} (hn : n ≤ len.toNat) (hack : 0 < n → ackAt f 0 = false) (a : Nat) :
    runFrom f 0 (dataStart n + a) { begun m 0x7 len (addressByte addr x) with mpc := rdtxProgram len.toNat } =
      runFrom f (dataStart n) a
        { driven f 0 (rdtxSent addr len.toNat n) (receivedAt f n (begun m 0x7 len (addressByte addr x))) with
          mpc := rdtxTail (len.toNat - n) (rdtxClosing n) } := by
  have hhead := runs_rdtxHead (m := m) (addr := addr) (x := x) hn hack (rdtxTail (len.toNat - n) (rdtxClosing n))
  rw [← rdtxProgram_eq hn, length_rdtxHead] at hhead
  rw [runFrom_add, hhead, finishIfDone_of_mpc (rdtxTail_ne_nil _ _), Nat.zero_add]

end

/-! ### Its endings -/

theorem rdtxTail_begins_with_abort (d : Nat) : ∃ cs u p, rdtxTail d (rdtxClosing 0) = withPre (.abortIfNack .af :: cs) (u :: p) := by
  cases d with
  | zero => exact ⟨[], line (.scl false), stopSeq.tail, rfl⟩
  | succ d => exact ⟨[.clearRb, .clearBitn], line (.sdaOe .inp), _, rfl⟩

/-- The uops of an RDTX that ends after `n` of `len` data bytes. -/
def rdtxUops (addr : DeviceAddr) (len n : Nat) : List Uop := rdtxSent addr len n ++ stopUops

theorem length_rdtxUops (addr : DeviceAddr) (len n : Nat) : (rdtxUops addr len n).length = 8 + sendUops + 51 * n + 7 := by
  rw [rdtxUops, List.length_append, length_rdtxSent]
  rfl

section
variable {s : State} {len : Nibble} {when_ : List Peer → Prop} {result : List Peer → Master → List TraceRec → Prop}
  (h : s.master.busy = false) (hlen : len.toNat ≤ s.bufCap)
include h hlen

/-- R137: an RDTX whose address byte is not acknowledged. -/
theorem completes_rdtx_nack (addr : DeviceAddr) (x : Bool) (hwhen : ∀ ps, when_ ps → ackOf ps 0 = true)
    (hresult : ∀ ps, when_ ps → result ps
      (traceAfter s.master.trace (Master.finish (driven (peerAt ps) 0 (rdtxUops addr len.toNat 0)
        ((receivedAt (peerAt ps) 0 (begun s.master 0x7 len (addressByte addr x))).putStatus bitAF true))))
      (recordsFrom (peerAt ps) 0 (pinsOf s.master) (rdtxUops addr len.toNat 0))) :
    Completes (.rdtx len addr x) (8 + sendUops + 7) s when_ result := by
  refine completes_of_presentTransaction h hlen rfl fun ps hps hw => ?_
  refine ⟨rdtxUops addr len.toNat 0, _, ?_, rfl, length_rdtxUops .., hresult ps hw⟩
  obtain ⟨cs, u, p, htail⟩ := rdtxTail_begins_with_abort (len.toNat - 0)
  refine (runFrom_rdtx (f := peerAt ps) (Nat.zero_le _) nofun 7).trans ((runFrom_abort (hwhen ps hw) htail).trans ?_)
  exact runFrom_closing_stopSeq (closing := []) (length_rdtxSent addr len.toNat 0)
    (m := (receivedAt (peerAt ps) 0 (begun s.master 0x7 len (addressByte addr x))).putStatus bitAF true) fun _ => rfl

/-- R137, R139: an RDTX whose address byte is acknowledged. -/
theorem completes_rdtx_acked (addr : DeviceAddr) (x : Bool) (hwhen : ∀ ps, when_ ps → ackOf ps 0 = false)
    (hresult : ∀ ps, when_ ps → result ps
      (traceAfter s.master.trace (Master.finish (driven (peerAt ps) 0 (rdtxUops addr len.toNat len.toNat)
        { receivedAt (peerAt ps) len.toNat (begun s.master 0x7 len (addressByte addr x)) with
          k := len.toNat, xcnt := BitVec.ofNat 8 len.toNat })))
      (recordsFrom (peerAt ps) 0 (pinsOf s.master) (rdtxUops addr len.toNat len.toNat))) :
    Completes (.rdtx len addr x) (8 + sendUops + 51 * len.toNat + 7) s when_ result := by
  refine completes_of_presentTransaction h hlen rfl fun ps hps hw => ?_
  refine ⟨rdtxUops addr len.toNat len.toNat, _, ?_, rfl, length_rdtxUops .., hresult ps hw⟩
  refine (runFrom_rdtx (f := peerAt ps) le_rfl (fun _ => hwhen ps hw) 7).trans ?_
  rw [Nat.sub_self]
  exact runFrom_closing_stopSeq (length_rdtxSent ..) fun rest => by
    rw [← List.append_nil (rdtxClosing _), runControls_rdtxClosing (hwhen ps hw) rfl rfl]
    rfl

end

/-! ### What every ending leaves -/

theorem unitsOf_rdtxUops (addr : DeviceAddr) (len n : Nat) : unitsOf (rdtxUops addr len n) =
    3 * Config.nBit + (26 * Config.nBit + Config.nAck) + n * (16 * Config.nBit + 2 * Config.nRsp) + 2 * Config.nBit := by
  have hbyte (v : Bool) : unitsOf (recvUops ++ respUops v) = 16 * Config.nBit + 2 * Config.nRsp :=
    (unitsOf_append ..).trans (congrArg₂ (· + ·) (rfl : unitsOf recvUops = 16 * Config.nBit) (rfl : unitsOf (respUops v) = 2 * Config.nRsp))
  have hsent : unitsOf (rdtxSent addr len n) =
      3 * Config.nBit + (26 * Config.nBit + Config.nAck) + n * (16 * Config.nBit + 2 * Config.nRsp) := by
    induction n with
    | zero =>
      rw [rdtxSent, rdtxBytes, List.append_nil, unitsOf_append, unitsOf_byteUops, Nat.zero_mul]
      rfl
    | succ n ih => rw [rdtxSent_succ, unitsOf_append, ih, Nat.succ_mul n, hbyte, Nat.add_assoc]
  rw [rdtxUops, unitsOf_append, hsent]
  rfl

theorem read_stored_of_lt (f : Nat → Peer) (mem : Memory) {n k : Nat} (hk : k < n) : (stored f mem n).read k = some (dataAt f k) := by
  induction n with
  | zero => exact absurd hk (Nat.not_lt_zero k)
  | succ n ih =>
    rw [stored, memory_read_write]
    split
    next heq => rw [heq]
    next hne => exact ih (by omega)

theorem read_stored_of_le (f : Nat → Peer) (mem : Memory) {n k : Nat} (hk : n ≤ k) : (stored f mem n).read k = mem.read k := by
  induction n with
  | zero => rfl
  | succ n ih => rw [stored, memory_read_write_ne _ _ (by omega), ih (by omega)]

theorem lastData_eq (f : Nat → Peer) (old : Byte) (n : Nat) : lastData f old n = if n = 0 then old else dataAt f (n - 1) := by
  cases n <;> rfl

/-- Settles O27. -/
theorem rdtxOutcomes : Obligations.RdtxOutcomes := by
  intro len addr x s h hlen
  have hunits {f : Nat → Peer} {q : Pins} (n : Nat) := (traceUnits_recordsFrom f 0 q _).trans (unitsOf_rdtxUops addr len.toNat n)
  refine ⟨completes_rdtx_nack h hlen addr x (fun ps hack => hack) fun ps hack => ?_,
    completes_rdtx_acked h hlen addr x (fun ps hack => hack) fun ps hack => ?_⟩
  · obtain ⟨hended, haf, hdf, hnack⟩ := aborted_end (f := peerAt ps) (n := 0) hack s.master 0x7 len (addressByte addr x)
      (rdtxSent addr len.toNat 0) s.master.trace rfl
    exact ⟨hended, haf, hdf, hnack, rfl, rfl, rfl, rfl, (hunits 0).trans (by rw [Nat.zero_mul, Nat.add_zero])⟩
  · obtain ⟨hended, haf, hdf, hnack⟩ := unaborted_end (m := s.master) (op := 0x7) (len := len) (data := addressByte addr x)
      (ack := ackAt (peerAt ps) 0) (k := len.toNat) hack
      (d := { receivedAt (peerAt ps) len.toNat (begun s.master 0x7 len (addressByte addr x)) with
        k := len.toNat, xcnt := BitVec.ofNat 8 len.toNat })
      rfl (peerAt ps) (rdtxSent addr len.toNat len.toNat) s.master.trace rfl
    exact ⟨hended, haf, hdf, hnack, rfl, fun k hk => read_stored_of_lt (peerAt ps) _ hk, fun k hk => read_stored_of_le (peerAt ps) _ hk,
      lastData_eq (peerAt ps) _ _, lastData_eq (peerAt ps) _ _, hunits len.toNat⟩

/-! ### On the wire -/

/-- R142: the levels at the rising Clock edges of data byte `k` of `len`. -/
def answeredEdges (f : Nat → Peer) (len k : Nat) : List Bool :=
  (List.range 8).map (fun i => (f (dataStart k + 5 * i + 3)).sda) ++ [decide (k + 1 = len) && (f (dataStart k + 48)).sda]

theorem edges_answered {f : Nat → Peer} (k len : Nat) (q : Pins) :
    edges f (dataStart k) q (recvUops ++ respUops (decide (k + 1 = len))) = answeredEdges f len k := by
  rw [edges_append, edges_recvUops, pinsAfter_recvUops, edges_respUops _ rfl]
  rfl

/-- R131, R142: the rising Clock edges of the address byte and the first `n` of `len` data bytes. -/
theorem edges_rdtxSent {f : Nat → Peer} (q : Pins) (addr : DeviceAddr) (len n : Nat)
    (hdata : ∀ i, i < 8 → (f (8 + 6 * i + 4)).sda = true) :
    edges f 0 q (rdtxSent addr len n) = (if q.scl then [] else [(f 2).sda]) ++ wireBits (addressByte addr true) ++ [(f (8 + 52)).sda] ++
      (List.range n).flatMap (answeredEdges f len) := by
  induction n with
  | zero =>
    have hbyte := edges_byteUops (f := f) 8 (q := pinsAfter q startUops) rfl (addressByte addr true) hdata
    rw [rdtxSent, rdtxBytes, edges_append, edges_startUops, List.append_nil, List.range_zero, List.flatMap_nil,
      List.append_nil]
    exact (congrArg _ hbyte).trans (List.append_assoc ..).symm
  | succ n ih =>
    rw [rdtxSent_succ, edges_append, ih, length_rdtxSent, Nat.zero_add, edges_answered, List.range_succ, List.flatMap_append,
      List.flatMap_singleton, List.append_assoc _ _ (answeredEdges f len n)]

/-- R119: and that of STOP. -/
theorem risingData_rdtxUops {ps : List Peer} (hscl : clockReleased ps) (hdata : dataReleased ps 0) (q : Pins) (addr : DeviceAddr)
    (len n : Nat) : risingData (recordsFrom (peerAt ps) 0 q (rdtxUops addr len n)) =
      (if q.scl then [] else [peerSda ps 2]) ++ wireBits (addressByte addr true) ++ [peerSda ps (8 + 52)] ++
        (List.range n).flatMap (answeredEdges (peerAt ps) len) ++ [false] := by
  refine (risingData_recordsFrom (scl_peerAt hscl) 0 q (rdtxUops addr len n).tail (u := .sdaOe .out) (Bool.not_and_self _)).trans ?_
  refine (edges_append 0 q (rdtxSent addr len n) stopUops).trans ?_
  rw [edges_rdtxSent (f := peerAt ps) q addr len n (hdata 0 · le_rfl), edges_stopUops]
  rfl

/-- Settles O28. -/
theorem rdtxAnswersItsBytesOnTheWire : Obligations.RdtxAnswersItsBytesOnTheWire := by
  intro len addr x s h hlen
  refine ⟨completes_rdtx_nack h hlen addr x (fun ps hw => hw.2.1) fun ps ⟨hscl, _, hdata⟩ => ?_,
    completes_rdtx_acked h hlen addr x (fun ps hw => hw.2.1) fun ps ⟨hscl, _, hdata⟩ => risingData_rdtxUops hscl hdata ..⟩
  exact (risingData_rdtxUops hscl hdata ..).trans (by rw [List.range_zero, List.flatMap_nil, List.append_nil]; rfl)

end Sys2Proof.Proofs
end

section
/-! When Data moves (spec/41_master_byte.md R130): every sequence but START and STOP acts on Data with Clock low, so that a transaction
makes one START and one STOP condition (spec/42_master_transactions.md R135). -/

namespace Sys2Proof.Proofs

open Sys2Proof Sys2Proof.Machine Sys2Proof.Laws

/-! ### Uops that act on Data with Clock low -/

/-- R130: from the pins `q`, the uops act on Data with SCL_OUT = 0 only. -/
def quiet : Pins → List Uop → Bool
  | _, [] => true
  | q, u :: us => !(u.actsOnData && q.scl) && quiet (q.after u) us

theorem quiet_cons {q : Pins} {u : Uop} {us : List Uop} :
    quiet q (u :: us) = true ↔ (u.actsOnData && q.scl) = false ∧ quiet (q.after u) us = true := by
  rw [quiet, Bool.and_eq_true, Bool.not_eq_true']

theorem quiet_append (q : Pins) (us vs : List Uop) : quiet q (us ++ vs) = (quiet q us && quiet (pinsAfter q us) vs) := by
  induction us generalizing q with
  | nil => rfl
  | cons u us ih => rw [List.cons_append, quiet, ih, quiet, Bool.and_assoc]; rfl

/-- A uop on Data leaves Clock. -/
theorem scl_after_of_actsOnData (q : Pins) {u : Uop} (hu : u.actsOnData = true) : (q.after u).scl = q.scl := by
  cases u with
  | sda | sdaOe => rfl
  | scl | wait | sample => cases hu

theorem dataOnlyWhileLow_recordsFrom (f : Nat → Peer) (i : Nat) {q : Pins} {us : List Uop} (h : quiet q us = true) :
    dataOnlyWhileLow (recordsFrom f i q us) := by
  induction us generalizing i q with
  | nil => exact fun r hr => absurd hr List.not_mem_nil
  | cons u us ih =>
    obtain ⟨hu, hus⟩ := quiet_cons.1 h
    refine fun r hr hacts => (List.mem_cons.1 hr).elim (fun heq => ?_) fun hmem => ih (i + 1) hus r hmem hacts
    subst heq
    rw [show Uop.actsOnData u = true from hacts, Bool.true_and] at hu
    exact (scl_after_of_actsOnData q hacts).trans hu

/-- Any other uop leaves Data. -/
theorem level_after_of_not_actsOnData {level : Pins → Bool} (hlevel : level = Pins.sda ∨ level = Pins.data) (q : Pins) {u : Uop}
    (hu : u.actsOnData = false) : level (q.after u) = level q := by
  cases u with
  | sda | sdaOe => cases hu
  | scl | wait | sample => rcases hlevel with rfl | rfl <;> rfl

/-- They move no level of Data while Clock is high. -/
theorem movesWhileHigh_of_quiet {level : Pins → Bool} (hlevel : level = Pins.sda ∨ level = Pins.data) (i : Nat) {q : Pins} {us : List Uop}
    (h : quiet q us = true) : movesWhileHigh level i q us = [] := by
  induction us generalizing i q with
  | nil => rfl
  | cons u us ih =>
    obtain ⟨hu, hus⟩ := quiet_cons.1 h
    rw [movesWhileHigh, ih (i + 1) hus, List.append_nil]
    refine if_neg fun hmove => ?_
    obtain ⟨hclock, hchange⟩ := Bool.and_eq_true_iff.1 hmove
    cases hacts : u.actsOnData with
    | false => exact (bne_iff_ne.1 hchange) (level_after_of_not_actsOnData hlevel q hacts)
    | true =>
      rw [scl_after_of_actsOnData q hacts] at hclock
      rw [hacts, hclock] at hu
      cases hu

/-! ### The sequences -/

theorem quiet_byteUops (q : Pins) (b : Byte) : quiet q (byteUops b) = true := by
  obtain ⟨scl, sda, dir⟩ := q
  cases scl <;> rfl

theorem quiet_recvUops {q : Pins} (hq : q.scl = false) : quiet q recvUops = true := by
  obtain ⟨scl, sda, dir⟩ := q
  cases hq
  rfl

theorem quiet_respUops {q : Pins} (hq : q.scl = false) (v : Bool) : quiet q (respUops v) = true := by
  obtain ⟨scl, sda, dir⟩ := q
  cases hq
  rfl

theorem quiet_wrtxBytes (q : Pins) (addr : DeviceAddr) (txbuf : Memory) (n : Nat) : quiet q (wrtxBytes addr txbuf n) = true := by
  induction n with
  | zero => exact quiet_byteUops q _
  | succ n ih => rw [wrtxBytes, quiet_append, ih, quiet_byteUops]; rfl

theorem quiet_rdtxBytes {q : Pins} (hq : q.scl = false) (len n : Nat) :
    quiet q (rdtxBytes len n) = true ∧ (pinsAfter q (rdtxBytes len n)).scl = false := by
  induction n with
  | zero => exact ⟨rfl, hq⟩
  | succ n ih =>
    obtain ⟨hquiet, hscl⟩ := ih
    rw [rdtxBytes, quiet_append, hquiet, quiet_append, quiet_recvUops hscl, pinsAfter_recvUops, quiet_respUops rfl, pinsAfter_append]
    exact ⟨rfl, rfl⟩

/-! ### START, quiet uops, STOP -/

/-- What stands between START and STOP acts on Data with Clock low, and begins with Clock low. -/
def QuietFromLow (us : List Uop) : Prop := ∀ q : Pins, q.scl = false → quiet q us = true

theorem movesWhileHigh_transaction {level : Pins → Bool} (hlevel : level = Pins.sda ∨ level = Pins.data) {q : Pins}
    (hq : q.scl = false ∨ q.sda = true) {mid : List Uop} (hmid : QuietFromLow mid) :
    movesWhileHigh level 0 q (startUops ++ mid ++ stopUops) = [(4, false), (8 + mid.length + 6, true)] := by
  rw [movesWhileHigh_append, movesWhileHigh_append, movesWhileHigh_startUops hlevel hq, movesWhileHigh_of_quiet hlevel _ (hmid _ rfl),
    movesWhileHigh_stopUops hlevel, List.length_append, Nat.zero_add]
  rfl

theorem wrtxUops_eq (addr : DeviceAddr) (txbuf : Memory) (n : Nat) :
    ∃ mid, QuietFromLow mid ∧ wrtxUops addr txbuf n = startUops ++ mid ++ stopUops :=
  ⟨wrtxBytes addr txbuf n, fun q _ => quiet_wrtxBytes q addr txbuf n, rfl⟩

theorem rdtxUops_eq (addr : DeviceAddr) (len n : Nat) : ∃ mid, QuietFromLow mid ∧ rdtxUops addr len n = startUops ++ mid ++ stopUops := by
  refine ⟨byteUops (addressByte addr true) ++ rdtxBytes len n, fun q hq => ?_, rfl⟩
  rw [quiet_append, quiet_byteUops, pinsAfter_byteUops, (quiet_rdtxBytes rfl len n).1]
  rfl

/-- The outcomes of WRTX and RDTX with one claim about their records: it holds of them if it holds of the records of any START, quiet uops
and STOP. -/
theorem transactions_complete {s : State} (h : s.master.busy = false) {P : List Peer → List TraceRec → Prop}
    (hP : ∀ ps mid, QuietFromLow mid → P ps (recordsFrom (peerAt ps) 0 (pinsOf s.master) (startUops ++ mid ++ stopUops)))
    {len : Nibble} (hlen : len.toNat ≤ s.bufCap) (addr : DeviceAddr) (x : Bool) :
    Completes (.wrtx len addr x) (8 + sendUops + 7) s (fun ps => ackOf ps 0 = true) (fun ps _ recs => P ps recs) ∧
    (∀ j, j < len.toNat → (∀ i, i ≤ j → s.master.txbuf.read i ≠ none) →
      Completes (.wrtx len addr x) (8 + sendUops * (j + 2) + 7) s
        (fun ps => (∀ i, i ≤ j → ackOf ps i = false) ∧ ackOf ps (j + 1) = true) (fun ps _ recs => P ps recs)) ∧
    ((∀ i, i < len.toNat → s.master.txbuf.read i ≠ none) →
      Completes (.wrtx len addr x) (8 + sendUops * (len.toNat + 1) + 7) s
        (fun ps => ∀ i, i ≤ len.toNat → ackOf ps i = false) (fun ps _ recs => P ps recs)) ∧
    Completes (.rdtx len addr x) (8 + sendUops + 7) s (fun ps => ackOf ps 0 = true) (fun ps _ recs => P ps recs) ∧
    Completes (.rdtx len addr x) (8 + sendUops + 51 * len.toNat + 7) s (fun ps => ackOf ps 0 = false) (fun ps _ recs => P ps recs) := by
  have hwrtx (ps : List Peer) (n : Nat) : P ps (recordsFrom (peerAt ps) 0 (pinsOf s.master) (wrtxUops addr s.master.txbuf n)) := by
    obtain ⟨mid, hmid, heq⟩ := wrtxUops_eq addr s.master.txbuf n
    exact heq ▸ hP ps mid hmid
  have hrdtx (ps : List Peer) (n : Nat) : P ps (recordsFrom (peerAt ps) 0 (pinsOf s.master) (rdtxUops addr len.toNat n)) := by
    obtain ⟨mid, hmid, heq⟩ := rdtxUops_eq addr len.toNat n
    exact heq ▸ hP ps mid hmid
  refine ⟨?_, fun j hj htx => ?_, fun htx => ?_, ?_, ?_⟩
  · exact completes_wrtx_nack h hlen (n := 0) addr x (Nat.zero_le _) nofun (fun ps hack => ⟨nofun, hack⟩) fun ps _ => hwrtx ps 0
  · exact completes_wrtx_nack h hlen (n := j + 1) addr x hj (fun i hi => htx i (by omega))
      (fun ps hacks => ⟨fun i hi => hacks.1 i (by omega), hacks.2⟩) fun ps _ => hwrtx ps (j + 1)
  · exact completes_wrtx_acked h hlen addr x htx (fun ps hacks => hacks) fun ps _ => hwrtx ps len.toNat
  · exact completes_rdtx_nack h hlen addr x (fun ps hack => hack) fun ps _ => hrdtx ps 0
  · exact completes_rdtx_acked h hlen addr x (fun ps hack => hack) fun ps _ => hrdtx ps len.toNat

/-! ### One START and one STOP -/

/-- R135: START's fall and STOP's rise are the only moves of Data while Clock is high. -/
theorem oneStartOneStop_transaction {q : Pins} (hq : q.scl = false ∨ q.sda = true) (ps : List Peer) {mid : List Uop}
    (hmid : QuietFromLow mid) : oneStartOneStop ps (recordsFrom (peerAt ps) 0 q (startUops ++ mid ++ stopUops)) := by
  intro hscl hstart hstop hsteady
  have hfall : (peerAt ps 4).sda = true := by
    refine (hsteady 3 _ _ rfl rfl ?_ ?_).symm.trans hstart
    · exact scl_peerAt hscl 3
    · exact scl_peerAt hscl 4
  have hrise : (peerAt ps (8 + mid.length + 6)).sda = true := by
    rw [length_recordsFrom, List.length_append, List.length_append] at hstop
    exact hstop
  obtain ⟨hstarts, hstops⟩ := countPairs_recordsFrom (scl_peerAt hscl) q (startUops.tail ++ mid ++ stopUops) (startUops_first_still hq) hsteady
  have hmoves := movesWhileHigh_transaction (.inr rfl) hq hmid
  refine ⟨hstarts.trans ((congrArg _ hmoves).trans ?_), hstops.trans ((congrArg _ hmoves).trans ?_)⟩
  · simp [hfall]
  · simp [hrise]

/-- Settles O56. -/
theorem transactionsMakeOneStartAndOneStop : Obligations.TransactionsMakeOneStartAndOneStop :=
  fun _ addr x _ h hlen hpins => transactions_complete h (fun ps _ hmid => oneStartOneStop_transaction hpins ps hmid) hlen addr x

/-! ### Data moves only while Clock is low -/

/-- Where two records differ in SDA_OUT with SCL_OUT = 1, their uops moved Data while Clock was high. -/
theorem mem_movesWhileHigh (f : Nat → Peer) (i : Nat) (q : Pins) (us : List Uop) {r0 : TraceRec} (hr0 : r0.sdaOut = q.sda) {j : Nat}
    {r r' : TraceRec} (hr : (r0 :: recordsFrom f i q us)[j]? = some r) (hr' : (r0 :: recordsFrom f i q us)[j + 1]? = some r')
    (hclock : r'.sclOut = true) (hmove : r'.sdaOut ≠ r.sdaOut) : ∃ v, (i + j, v) ∈ movesWhileHigh Pins.sda i q us := by
  induction us generalizing i q r0 j with
  | nil => cases hr'
  | cons u us ih =>
    cases j with
    | zero =>
      cases hr
      cases hr'
      have hhead : ((q.after u).scl && ((q.after u).sda != q.sda)) = true := by
        rw [← hr0, Bool.and_eq_true, bne_iff_ne]
        exact ⟨hclock, hmove⟩
      exact ⟨_, List.mem_append_left _ (by rw [hhead]; exact List.mem_singleton_self _)⟩
    | succ j =>
      obtain ⟨v, hv⟩ := ih (i + 1) (q.after u) rfl hr hr'
      exact ⟨v, List.mem_append_right _ (by rwa [Nat.add_right_comm] at hv)⟩

/-- R130 for records, by the moves of their uops. -/
theorem onlyStartAndStop_of_moves {f : Nat → Peer} {q : Pins} {u : Uop} {us : List Uop}
    (hmoves : ∀ e ∈ movesWhileHigh Pins.sda 0 q (u :: us), e.1 = 4 ∨ e.1 + 1 = (u :: us).length)
    (htail : ∀ i r, 8 ≤ i → i + 1 < (u :: us).length → (recordsFrom f 0 q (u :: us))[i]? = some r → r.uop.actsOnData = true →
      r.sclOut = false) : onlyStartAndStopMoveData (recordsFrom f 0 q (u :: us)) := by
  rw [onlyStartAndStopMoveData, length_recordsFrom]
  refine ⟨fun i r r' hr hr' hclock hmove => ?_, htail⟩
  obtain ⟨v, hv⟩ := mem_movesWhileHigh f 1 (q.after u) us rfl hr hr' hclock hmove
  have := hmoves _ (List.mem_append_right _ hv)
  omega

/-- After START every uop of a transaction but the last acts on Data with Clock low. -/
theorem quiet_tail_transaction {f : Nat → Peer} {q : Pins} {mid : List Uop} (hmid : QuietFromLow mid) {i : Nat} {r : TraceRec} (hi : 8 ≤ i)
    (hlast : i + 1 < (startUops ++ mid ++ stopUops).length) (hr : (recordsFrom f 0 q (startUops ++ mid ++ stopUops))[i]? = some r)
    (hacts : r.uop.actsOnData = true) : r.sclOut = false := by
  have hsplit : startUops ++ mid ++ stopUops = startUops ++ (mid ++ stopUops.dropLast) ++ [.sda true] := by
    rw [← List.append_assoc, List.append_assoc _ stopUops.dropLast]
    rfl
  have hquiet : quiet (pinsAfter q startUops) (mid ++ stopUops.dropLast) = true := by
    rw [quiet_append, hmid _ rfl]
    rfl
  rw [hsplit] at hlast hr
  rw [recordsFrom_append, List.getElem?_append_left, recordsFrom_append, List.getElem?_append_right] at hr
  · exact dataOnlyWhileLow_recordsFrom f _ hquiet r (List.mem_of_getElem? hr) hacts
  · rw [length_recordsFrom]
    exact hi
  · rw [length_recordsFrom]
    rw [List.length_append] at hlast
    exact Nat.lt_of_succ_lt_succ hlast

/-- R130: a transaction. -/
theorem onlyStartAndStop_transaction (f : Nat → Peer) {q : Pins} (hq : q.scl = false ∨ q.sda = true) {mid : List Uop}
    (hmid : QuietFromLow mid) : onlyStartAndStopMoveData (recordsFrom f 0 q (startUops ++ mid ++ stopUops)) := by
  refine onlyStartAndStop_of_moves (u := .sdaOe .out) (us := startUops.tail ++ mid ++ stopUops) (fun e he => ?_) fun i r hi hlast hr hacts =>
    quiet_tail_transaction hmid hi hlast hr hacts
  rw [show Uop.sdaOe .out :: (startUops.tail ++ mid ++ stopUops) = startUops ++ mid ++ stopUops from rfl] at he ⊢
  rw [movesWhileHigh_transaction (.inl rfl) hq hmid] at he
  rw [List.length_append, List.length_append]
  rcases List.mem_pair.1 he with rfl | rfl
  · exact .inl rfl
  · exact .inr rfl

/-- Settles O58. -/
theorem dataMovesOnlyWhileClockIsLow : Obligations.DataMovesOnlyWhileClockIsLow := by
  intro s h
  refine ⟨fun b => ?_, ?_, fun n => ?_, ?_, fun hpins => ⟨?_, fun len addr x hlen => ?_⟩⟩
  · exact completes_send h b fun ps _ _ => dataOnlyWhileLow_recordsFrom _ 0 (quiet_byteUops (pinsOf s.master) b)
  · exact completes_recv h fun ps _ _ => ⟨dataOnlyWhileLow_recordsFrom (peerAt ps) 1 (us := recvUops.tail) rfl,
      fun hscl => dataOnlyWhileLow_recordsFrom _ 0 (quiet_recvUops (q := pinsOf s.master) hscl)⟩
  · exact completes_resp h n fun ps _ _ => ⟨dataOnlyWhileLow_recordsFrom (peerAt ps) 1 (us := (respUops n).tail) rfl,
      fun hscl => dataOnlyWhileLow_recordsFrom _ 0 (quiet_respUops (q := pinsOf s.master) hscl n)⟩
  · exact completes_stop h fun ps _ _ => onlyStartAndStop_of_moves (us := stopUops.tail)
      (fun e he => .inr (congrArg (·.1 + 1) (List.mem_singleton.1 (movesWhileHigh_stopUops (.inl rfl) 0 (pinsOf s.master) ▸ he))))
      fun i r hi hlast => absurd (show i + 1 < 7 from hlast) (by omega)
  · exact completes_start h fun ps _ _ => onlyStartAndStop_of_moves (us := startUops.tail)
      (fun e he => .inl (congrArg (·.1) (List.mem_singleton.1 (movesWhileHigh_startUops (.inl rfl) (q := pinsOf s.master) hpins ▸ he))))
      fun i r hi hlast => absurd (show i + 1 < 8 from hlast) (by omega)
  · exact transactions_complete h (fun ps _ hmid => onlyStartAndStop_transaction (peerAt ps) (q := pinsOf s.master) hpins hmid) hlen addr x

end Sys2Proof.Proofs
end
